-- ==== Sys2Proof/Word.lean ====
section
/-! DEFINITION. The byte, the one width of data of this hardware. -/

namespace Sys2Proof

/-- Every data register is 8 bits wide (00_scope.md R5, "Fixed, not parameters"). -/
abbrev Byte := BitVec 8

end Sys2Proof
end

