-- ==== Sys2Proof/Config.lean ====
section
/-! DEFINITION. The configuration record `Cfg` of 00_scope.md R5 with its defaults and its constraints, the twelve named events, and the free values. -/

namespace Sys2Proof

/-- The twelve named events: the vocabulary of the status register (30_encoding.md R73, R74). -/
inductive Event where
  | start | repStart | slawAck | slawNack | datawAck | datawNack
  | arbLost | slarAck | slarNack | datarAck | datarNack | busError
  deriving DecidableEq, Repr

/-- The twelve events in the order of the table of R74. -/
def Event.all : List Event :=
  [.start, .repStart, .slawAck, .slawNack, .datawAck, .datawNack,
   .arbLost, .slarAck, .slarNack, .datarAck, .datarNack, .busError]

/-- `Cfg.STATUS_CODE`: one code for each named event (R5, R74). -/
structure StatusCodes where
  start     : Byte
  repStart  : Byte
  slawAck   : Byte
  slawNack  : Byte
  datawAck  : Byte
  datawNack : Byte
  arbLost   : Byte
  slarAck   : Byte
  slarNack  : Byte
  datarAck  : Byte
  datarNack : Byte
  busError  : Byte
  deriving DecidableEq, Repr

/-- `Cfg.STATUS_CODE(ev)`. -/
def StatusCodes.code (t : StatusCodes) : Event → Byte
  | .start => t.start
  | .repStart => t.repStart
  | .slawAck => t.slawAck
  | .slawNack => t.slawNack
  | .datawAck => t.datawAck
  | .datawNack => t.datawNack
  | .arbLost => t.arbLost
  | .slarAck => t.slarAck
  | .slarNack => t.slarNack
  | .datarAck => t.datarAck
  | .datarNack => t.datarNack
  | .busError => t.busError

/-- `Cfg.CTRL_LAYOUT`: the bit position of each of the seven control fields (R5, R77). -/
structure CtrlLayout where
  ifl : Fin 8
  ea  : Fin 8
  sta : Fin 8
  sto : Fin 8
  wc  : Fin 8
  en  : Fin 8
  ie  : Fin 8
  deriving DecidableEq, Repr

/-- The seven positions, in the order of R77. -/
def CtrlLayout.positions (l : CtrlLayout) : List (Fin 8) :=
  [l.ifl, l.ea, l.sta, l.sto, l.wc, l.en, l.ie]

/-- `Cfg.HOST_MAP`: the register numbers of the host interface (R5, R79), each free. Entry `i` of `hbuf` is the number of `HBUF[i]`; the
cells that exist are the first `CAP` of them. `regBits` is the width of the number in an access word ("a larger CAP needs a HOST_MAP with
wider numbers"). DEDUCED (log 11). -/
structure HostMap where
  hcmd    : Nat
  hstat   : Nat
  hstate  : Nat
  hsize   : Nat
  hbuf    : List Nat
  regBits : Nat
  deriving DecidableEq, Repr

/-- `Cfg.HWSTATE_ON_START`: `keep` or `set(v)` (R5, 92_eei_decisions.md D15). -/
inductive HwstateOnStart where
  | keep
  | set (v : Byte)
  deriving DecidableEq, Repr

/-- `Cfg.ENGINE`: the contract the bus engine is assumed to meet (R5, 42_engine_requests.md R168, R169). -/
inductive EngineContract where
  | any
  | conformant
  deriving DecidableEq, Repr

/-- The configuration record (R5). A machine has one, which no step changes; the state carries it (log 5), so that a statement about
every state is a statement about every configuration. -/
structure Cfg where
  cap            : Nat
  codes          : StatusCodes
  layout         : CtrlLayout
  dirRead        : Bool
  clkdivInit     : Nat
  hwstateOnStart : HwstateOnStart
  hostMap        : HostMap
  engine         : EngineContract
  deriving DecidableEq, Repr

/-- `CLKDIV_INIT`: "none; opaque", "open, no default" (R5, 10_state.md R31, D30). No value of it can be proved. -/
opaque Config.clkdivInit : Nat

/-- `draw u8`: the `n`-th free byte (00_scope.md R6: a value that no rule constrains). -/
opaque Config.freeByte : Nat → Byte

/-- `draw Bool`: the `n`-th free bit. -/
opaque Config.freeBit : Nat → Bool

/-- The number of a cell that the map gives none: "the number that does not exist" which an access to it would name (40_host_interface.md
R110), a free value (log 11). -/
opaque Config.unlistedNumber : Nat → Nat

/-- The default codes of R74. -/
def StatusCodes.default : StatusCodes where
  start := 0x08
  repStart := 0x10
  slawAck := 0x18
  slawNack := 0x20
  datawAck := 0x28
  datawNack := 0x30
  arbLost := 0x38
  slarAck := 0x40
  slarNack := 0x48
  datarAck := 0x50
  datarNack := 0x58
  busError := 0x00

/-- The default positions of R77; bit 1 is reserved. -/
def CtrlLayout.default : CtrlLayout where
  ifl := 7
  ea := 6
  sta := 5
  sto := 4
  wc := 3
  en := 2
  ie := 0

/-- The default register map of R79: `HBUF[i]` at `0x10 + i`, the 240 numbers that fit in 8 bits. -/
def HostMap.default : HostMap where
  hcmd := 0x00
  hstat := 0x01
  hstate := 0x02
  hsize := 0x03
  hbuf := List.range' 0x10 240
  regBits := 8

/-- The default configuration of R5. -/
def Cfg.default : Cfg where
  cap := 8
  codes := .default
  layout := .default
  dirRead := true
  clkdivInit := Config.clkdivInit
  hwstateOnStart := .keep
  hostMap := .default
  engine := .any

/-- The numbers of the cells that exist, in the order of the cells (R79). -/
abbrev HostMap.cells (m : HostMap) (cap : Nat) : List Nat := m.hbuf.take cap

/-- The numbers of all registers that exist (R79). -/
abbrev HostMap.numbers (m : HostMap) (cap : Nat) : List Nat :=
  m.hcmd :: m.hstat :: m.hstate :: m.hsize :: m.cells cap

/-- Every cell has a number, the numbers are distinct (R5), and they fit the map's access words (R79). -/
abbrev HostMap.wf (m : HostMap) (cap : Nat) : Prop :=
  (m.cells cap).length = cap ∧ (m.numbers cap).Nodup ∧ ∀ n ∈ m.numbers cap, n < 2 ^ m.regBits

/-- The constraints of the table of R5: `2 <= CAP <= 255`, `STATUS_CODE` injective, seven distinct control positions, distinct host
register numbers. -/
abbrev Cfg.wf (c : Cfg) : Prop :=
  2 ≤ c.cap ∧ c.cap ≤ 255 ∧
  (Event.all.map c.codes.code).Nodup ∧
  c.layout.positions.Nodup ∧
  c.hostMap.wf c.cap

end Sys2Proof
end

