-- ==== Sys2Proof/Syntax.lean ====
section
/-! DEFINITION. The instructions: one constructor for each row of spec/opcode_table.json, in the table's order. -/

namespace Sys2Proof

/-- What an agent of the hardware can be asked to do in one step. The hardware fetches no program (30_encoding.md): an event is read
from the status register, a control image from a control write, an access from the host, a call has no encoding, and the engine's
step comes from the environment. -/
inductive Instr where
  | evStart
  | evRepStart
  | evSlawAck
  | evSlawNack
  | evDatawAck
  | evDatawNack
  | evArbLost
  | evSlarAck
  | evSlarNack
  | evDatarAck
  | evDatarNack
  | evBusError
  /-- Any status code `c` outside the twelve named ones (R75, R147). -/
  | evOther (c : Byte)
  | imgInit
  | imgIdle
  | imgStart
  | imgGo
  | imgGoAck
  | imgStop
  | hwrHbuf (i : Nat) (v : Byte)
  | hrdHbuf (i : Nat)
  | hwrHsize (v : Byte)
  | hrdHsize
  | hrdHstat
  | hrdHstate
  | hwrHcmdInit
  | hwrHcmdStart
  | hwrHcmdReserved (v : Byte)
  /-- An access (`w = true` a write) to a number that does not exist in that direction (R110). -/
  | hostUnmapped (w : Bool) (reg : Nat) (val : Byte)
  | init
  | busy
  | startTransfer (bytes : List Byte) (size : Byte)
  | startTransferRepeat
  | getResult (size : Byte)
  | getState
  | engRaise (code d : Byte)
  deriving DecidableEq, Repr

end Sys2Proof
end

