-- ==== Sys2Proof/WellFormed.lean ====
section
/-! DEFINITION. Which instruction terms stand for an instruction of the hardware, for a given configuration. -/

namespace Sys2Proof

/-- A number that a write reaches: `HCMD`, `HSIZE`, `HBUF[i]` (30_encoding.md R79). -/
def HostMap.writable (m : HostMap) (cap n : Nat) : Bool :=
  n == m.hcmd || n == m.hsize || (m.cells cap).contains n

/-- A number that a read reaches: `HSTAT`, `HSTATE`, `HSIZE`, `HBUF[i]` (R79). -/
def HostMap.readable (m : HostMap) (cap n : Nat) : Bool :=
  n == m.hstat || n == m.hstate || n == m.hsize || (m.cells cap).contains n

/-- The operands of `start_transfer` (40_host_interface.md R113): at least one byte in the read direction, at least `size` bytes, and
at least one, in the write direction. The range of `size` is no matter of form: out of range it faults (R113). -/
def Cfg.bytesSuffice (c : Cfg) (bytes : List Byte) (size : Byte) : Bool :=
  match bytes with
  | [] => false
  | b0 :: _ => b0.getLsbD 0 == c.dirRead || decide (size.toNat ≤ bytes.length)

/-- The well-formed terms: a buffer index below `CAP` (R100, R101), a reserved command that is reserved (R109), an unmapped access
that is unmapped and fits an access word (R110), an unrecognized code that is unrecognized (R75), and enough bytes for a call. -/
def Instr.wf (c : Cfg) : Instr → Bool
  | .evStart | .evRepStart | .evSlawAck | .evSlawNack | .evDatawAck | .evDatawNack => true
  | .evArbLost | .evSlarAck | .evSlarNack | .evDatarAck | .evDatarNack | .evBusError => true
  | .evOther b => Event.all.all fun e => c.codes.code e != b
  | .imgInit | .imgIdle | .imgStart | .imgGo | .imgGoAck | .imgStop => true
  | .hwrHbuf i _ => decide (i < c.cap)
  | .hrdHbuf i => decide (i < c.cap)
  | .hwrHsize _ | .hrdHsize | .hrdHstat | .hrdHstate | .hwrHcmdInit | .hwrHcmdStart => true
  | .hwrHcmdReserved v => v != 0x01 && v != 0x02
  | .hostUnmapped w reg _ =>
      decide (reg < 2 ^ c.hostMap.regBits) &&
        !(if w then c.hostMap.writable c.cap reg else c.hostMap.readable c.cap reg)
  | .init | .busy | .startTransferRepeat | .getState => true
  | .startTransfer bytes size => c.bytesSuffice bytes size
  | .getResult _ => true
  | .engRaise _ _ => true

end Sys2Proof
end

