-- ==== Sys2Proof/Decode.lean ====
section
/-! DEFINITION. The decoders of 30_encoding.md for each of the four carriers of an instruction, total on any bytes, and the encoder. -/

namespace Sys2Proof

/-- What carries an instruction (30_encoding.md R70): the status register, a control write, a host access, or the engine's step. The six
calls have no encoding; they are sequences of host accesses (R86). -/
inductive Carrier where
  | status
  | ctrl
  | hostAcc
  | engStep
  deriving DecidableEq, Repr

/-- Why a decoder rejects what it is given. -/
inductive DecodeError where
  /-- The carrier's format has another number of bytes (R70: each is of fixed length). -/
  | wrongLength (k : Carrier) (n : Nat)
  /-- A control byte that is none of the six images: "the model has no constructor for them" (R82). -/
  | noSuchImage (b : Byte)
  /-- A word with a bit set outside the format's fields. -/
  | bitsOutsideFormat (k : Carrier) (w : Nat)
  deriving DecidableEq, Repr

/-! ## Status codes -/

/-- The named event whose code is `b`, all 8 bits compared (R75). -/
def decodeEvent (t : StatusCodes) (b : Byte) : Option Event :=
  Event.all.find? fun e => t.code e == b

/-- The instruction of a named event. -/
def eventInstr : Event → Instr
  | .start => .evStart
  | .repStart => .evRepStart
  | .slawAck => .evSlawAck
  | .slawNack => .evSlawNack
  | .datawAck => .evDatawAck
  | .datawNack => .evDatawNack
  | .arbLost => .evArbLost
  | .slarAck => .evSlarAck
  | .slarNack => .evSlarNack
  | .datarAck => .evDatarAck
  | .datarNack => .evDatarNack
  | .busError => .evBusError

/-- Decoding a sampled status code: "The match is total: every byte decodes" (R75). -/
def decodeStatus (c : Cfg) (b : Byte) : Instr :=
  match decodeEvent c.codes b with
  | some e => eventInstr e
  | none => .evOther b

/-! ## Control images -/

/-- The seven one-bit fields of a control write (R76). -/
structure CtrlImage where
  ifl : Bool
  ea  : Bool
  sta : Bool
  sto : Bool
  wc  : Bool
  en  : Bool
  ie  : Bool
  deriving DecidableEq, Repr

/-- `IMG_INIT` (R78, R161). -/
def imageInit : CtrlImage := ⟨false, false, false, false, true, true, false⟩
/-- `IMG_IDLE` (R78, R162). -/
def imageIdle : CtrlImage := ⟨false, false, false, false, false, true, false⟩
/-- `IMG_START` (R78, R163). -/
def imageStart : CtrlImage := ⟨true, false, true, false, false, true, true⟩
/-- `IMG_GO` (R78, R164). -/
def imageGo : CtrlImage := ⟨true, false, false, false, false, true, true⟩
/-- `IMG_GO_ACK` (R78, R165). -/
def imageGoAck : CtrlImage := ⟨true, true, false, false, false, true, true⟩
/-- `IMG_STOP` (R78, R166). -/
def imageStop : CtrlImage := ⟨true, false, false, true, false, true, false⟩

/-- One field at its position. -/
def ctrlBit (p : Fin 8) (b : Bool) : Byte := if b then 1#8 <<< p.val else 0#8

/-- The byte of an image under a layout; every other bit is written 0 (R77). -/
def ctrlByte (l : CtrlLayout) (m : CtrlImage) : Byte :=
  ctrlBit l.ifl m.ifl ||| ctrlBit l.ea m.ea ||| ctrlBit l.sta m.sta ||| ctrlBit l.sto m.sto |||
    ctrlBit l.wc m.wc ||| ctrlBit l.en m.en ||| ctrlBit l.ie m.ie

/-- Decoding a control byte: one of the six images, and every other byte rejected by name (R82). -/
def decodeCtrl (c : Cfg) (b : Byte) : Except DecodeError Instr :=
  if b = ctrlByte c.layout imageInit then .ok .imgInit
  else if b = ctrlByte c.layout imageIdle then .ok .imgIdle
  else if b = ctrlByte c.layout imageStart then .ok .imgStart
  else if b = ctrlByte c.layout imageGo then .ok .imgGo
  else if b = ctrlByte c.layout imageGoAck then .ok .imgGoAck
  else if b = ctrlByte c.layout imageStop then .ok .imgStop
  else .error (.noSuchImage b)

/-! ## Host accesses -/

/-- The host registers by name (R79). -/
inductive HostReg where
  | hcmd
  | hstat
  | hstate
  | hsize
  | hbuf (i : Nat)
  deriving DecidableEq, Repr

/-- One host access by register name, as the scripts of R85 write it: `host wr <REG> <byte>`, `host rd <REG>`. -/
inductive Access where
  | wr (r : HostReg) (v : Byte)
  | rd (r : HostReg)
  deriving DecidableEq, Repr

/-- The number of a register (R79); of a cell outside the map's list, a free one (log 11). -/
def regNumber (m : HostMap) : HostReg → Nat
  | .hcmd => m.hcmd
  | .hstat => m.hstat
  | .hstate => m.hstate
  | .hsize => m.hsize
  | .hbuf i => m.hbuf.getD i (Config.unlistedNumber i)

/-- The register that has a number, if one has (R79). -/
def regNamed (c : Cfg) (n : Nat) : Option HostReg :=
  if n = c.hostMap.hcmd then some .hcmd
  else if n = c.hostMap.hstat then some .hstat
  else if n = c.hostMap.hstate then some .hstate
  else if n = c.hostMap.hsize then some .hsize
  else ((c.hostMap.cells c.cap).idxOf? n).map .hbuf

/-- The instruction of an access by name: the two command codes of R80, every other command reserved (R109), and a wrong direction as
a number that does not exist (R79, R110). -/
def accessInstr (c : Cfg) : Access → Instr
  | .wr .hcmd v =>
      if v = 0x01 then .hwrHcmdInit else if v = 0x02 then .hwrHcmdStart else .hwrHcmdReserved v
  | .wr .hsize v => .hwrHsize v
  | .wr (.hbuf i) v => .hwrHbuf i v
  | .wr r v => .hostUnmapped true (regNumber c.hostMap r) v
  | .rd .hstat => .hrdHstat
  | .rd .hstate => .hrdHstate
  | .rd .hsize => .hrdHsize
  | .rd (.hbuf i) => .hrdHbuf i
  | .rd .hcmd => .hostUnmapped false c.hostMap.hcmd 0

/-- The access that reaches a register in a direction, if one does: `HCMD` is write only, `HSTAT` and `HSTATE` are read only (R79). -/
def accessNamed (w : Bool) (val : Byte) (r : HostReg) : Option Access :=
  match w, r with
  | true, .hstat => none
  | true, .hstate => none
  | true, r => some (.wr r val)
  | false, .hcmd => none
  | false, r => some (.rd r)

/-- Decoding the triple `(w, reg, val)` of R79. A read that reaches a register ignores `val`; what reaches none is R110's access. -/
def decodeAccess (c : Cfg) (w : Bool) (reg : Nat) (val : Byte) : Instr :=
  match (regNamed c reg).bind (accessNamed w val) with
  | some a => accessInstr c a
  | none => .hostUnmapped w reg val

/-- The access word: `val` in bits 7:0, `reg` above it, `w` above that (R79; with the default width of `reg`, bits 16, 15:8, 7:0). -/
def accessWord (m : HostMap) (w : Bool) (reg : Nat) (val : Byte) : Nat :=
  val.toNat + 2 ^ 8 * reg + 2 ^ (8 + m.regBits) * w.toNat

/-- Decoding an access word. -/
def decodeHostAcc (c : Cfg) (w : Nat) : Except DecodeError Instr :=
  if w < 2 ^ (9 + c.hostMap.regBits) then
    .ok (decodeAccess c (decide (2 ^ (8 + c.hostMap.regBits) ≤ w)) (w / 2 ^ 8 % 2 ^ c.hostMap.regBits)
      (BitVec.ofNat 8 w))
  else .error (.bitsOutsideFormat .hostAcc w)

/-! ## The engine's step -/

/-- The word of the engine's step: `code` in bits 15:8, `d` in bits 7:0 (spec/opcode_table.json, row ENG_RAISE). -/
def engWord (code d : Byte) : Nat := d.toNat + 2 ^ 8 * code.toNat

/-- Decoding it. -/
def decodeEng (w : Nat) : Except DecodeError Instr :=
  if w < 2 ^ 16 then .ok (.engRaise (BitVec.ofNat 8 (w / 2 ^ 8)) (BitVec.ofNat 8 w))
  else .error (.bitsOutsideFormat .engStep w)

/-! ## All carriers together -/

/-- Decoding a carrier's word, its bits numbered from the least significant. -/
def decodeWord (c : Cfg) (k : Carrier) (w : Nat) : Except DecodeError Instr :=
  match k with
  | .status => if w < 2 ^ 8 then .ok (decodeStatus c (BitVec.ofNat 8 w)) else .error (.bitsOutsideFormat .status w)
  | .ctrl => if w < 2 ^ 8 then decodeCtrl c (BitVec.ofNat 8 w) else .error (.bitsOutsideFormat .ctrl w)
  | .hostAcc => decodeHostAcc c w
  | .engStep => decodeEng w

/-- The number of bytes a carrier's word takes. -/
def carrierBytes (c : Cfg) : Carrier → Nat
  | .status => 1
  | .ctrl => 1
  | .hostAcc => (16 + c.hostMap.regBits) / 8
  | .engStep => 2

/-- The word of a list of bytes, the least significant byte first. DESIGN CHOICE (log 12): the spec stores no word of more than one byte. -/
def wordOfBytes : List Byte → Nat
  | [] => 0
  | b :: bs => b.toNat + 2 ^ 8 * wordOfBytes bs

/-- The `n` low bytes of a word, the least significant first. -/
def bytesOfWord : Nat → Nat → List Byte
  | 0, _ => []
  | n + 1, w => BitVec.ofNat 8 w :: bytesOfWord n (w / 2 ^ 8)

/-- The decoder: any bytes, for any carrier. -/
def decode (c : Cfg) (k : Carrier) (bytes : List Byte) : Except DecodeError Instr :=
  if bytes.length = carrierBytes c k then decodeWord c k (wordOfBytes bytes)
  else .error (.wrongLength k bytes.length)

/-- The encoder: the carrier and the word of an instruction; none for the six calls, which have no encoding (R86). -/
def encodeWord (c : Cfg) : Instr → Option (Carrier × Nat)
  | .evStart => some (.status, c.codes.start.toNat)
  | .evRepStart => some (.status, c.codes.repStart.toNat)
  | .evSlawAck => some (.status, c.codes.slawAck.toNat)
  | .evSlawNack => some (.status, c.codes.slawNack.toNat)
  | .evDatawAck => some (.status, c.codes.datawAck.toNat)
  | .evDatawNack => some (.status, c.codes.datawNack.toNat)
  | .evArbLost => some (.status, c.codes.arbLost.toNat)
  | .evSlarAck => some (.status, c.codes.slarAck.toNat)
  | .evSlarNack => some (.status, c.codes.slarNack.toNat)
  | .evDatarAck => some (.status, c.codes.datarAck.toNat)
  | .evDatarNack => some (.status, c.codes.datarNack.toNat)
  | .evBusError => some (.status, c.codes.busError.toNat)
  | .evOther b => some (.status, b.toNat)
  | .imgInit => some (.ctrl, (ctrlByte c.layout imageInit).toNat)
  | .imgIdle => some (.ctrl, (ctrlByte c.layout imageIdle).toNat)
  | .imgStart => some (.ctrl, (ctrlByte c.layout imageStart).toNat)
  | .imgGo => some (.ctrl, (ctrlByte c.layout imageGo).toNat)
  | .imgGoAck => some (.ctrl, (ctrlByte c.layout imageGoAck).toNat)
  | .imgStop => some (.ctrl, (ctrlByte c.layout imageStop).toNat)
  | .hwrHbuf i v => some (.hostAcc, accessWord c.hostMap true (regNumber c.hostMap (.hbuf i)) v)
  | .hrdHbuf i => some (.hostAcc, accessWord c.hostMap false (regNumber c.hostMap (.hbuf i)) 0)
  | .hwrHsize v => some (.hostAcc, accessWord c.hostMap true c.hostMap.hsize v)
  | .hrdHsize => some (.hostAcc, accessWord c.hostMap false c.hostMap.hsize 0)
  | .hrdHstat => some (.hostAcc, accessWord c.hostMap false c.hostMap.hstat 0)
  | .hrdHstate => some (.hostAcc, accessWord c.hostMap false c.hostMap.hstate 0)
  | .hwrHcmdInit => some (.hostAcc, accessWord c.hostMap true c.hostMap.hcmd 0x01)
  | .hwrHcmdStart => some (.hostAcc, accessWord c.hostMap true c.hostMap.hcmd 0x02)
  | .hwrHcmdReserved v => some (.hostAcc, accessWord c.hostMap true c.hostMap.hcmd v)
  | .hostUnmapped w reg val => some (.hostAcc, accessWord c.hostMap w reg val)
  | .init => none
  | .busy => none
  | .startTransfer _ _ => none
  | .startTransferRepeat => none
  | .getResult _ => none
  | .getState => none
  | .engRaise code d => some (.engStep, engWord code d)

/-- The encoder's bytes. -/
def encode (c : Cfg) (i : Instr) : Option (Carrier × List Byte) :=
  match encodeWord c i with
  | some (k, w) => some (k, bytesOfWord (carrierBytes c k) w)
  | none => none

/-! ## The opcode table's words -/

/-- The carrier that the opcode table means by a byte. The formats STATUS and CTRL are both 8 bits wide, so a byte alone does not say
which it is: a named status code is a status code, an image is an image, and any other byte is an unrecognized status code. DESIGN CHOICE
(log 12): in the machine the carrier says which decoder reads a byte. -/
def tableByteCarrier (c : Cfg) (b : Byte) : Carrier :=
  match decodeEvent c.codes b, decodeCtrl c b with
  | none, .ok _ => .ctrl
  | _, _ => .status

/-- What a decoder accepted. -/
def accepted : Except DecodeError Instr → Option Instr
  | .ok i => some i
  | .error _ => none

/-- The instruction the decoder reads from a word of the opcode table, with the default configuration: 8 bits STATUS or CTRL, 16 bits the
engine's step, 24 bits (17 in whole bytes) a host access. -/
def decodeTableWord (nbits w : Nat) : Option Instr :=
  if 2 ^ nbits ≤ w then none
  else if nbits = 8 then
    accepted (decode Cfg.default (tableByteCarrier Cfg.default (BitVec.ofNat 8 w)) (bytesOfWord 1 w))
  else if nbits = 16 then accepted (decode Cfg.default .engStep (bytesOfWord 2 w))
  else if nbits = 24 then accepted (decode Cfg.default .hostAcc (bytesOfWord 3 w))
  else none

end Sys2Proof
end

