-- ==== Sys2Proof/Machine/State.lean ====
section
/-! DEFINITION. The state of the machine: everything the spec gives it (10_state.md), as plain data, its reset (R35, R210), and the reasons a
step can stop. -/

namespace Sys2Proof.Machine

/-- The closed list of fault reasons (60_exceptions.md R189). `raise` records one in `FAULT` (R9, R32); a step from a state that holds
one answers it as its outcome (log 2). Every one is SAFE: the source gives no behaviour there, and the model claims none ("Errs:
toward unprovable", R189). -/
inductive Fault where
  /-- Raised by host accesses to `HBUF`, `HSIZE`, `HCMD` while `IE = 1` (R100 to R103, R106, R107, R117). Safe. -/
  | hostAccessWhileBusy
  /-- Raised by the START command and by the calls that take a size (R107, R113, R115). Safe. -/
  | sizeOutOfRange (v : Byte)
  /-- Raised by a read of a cell of `BUF`, or of `SIZE`, that nothing has written since reset (R35, R101, R103, R107, R132). Safe. -/
  | uninitialisedRead
  /-- Raised by the two stores of received bytes when `CUR` has left the buffer (R51, R139, R141). Safe. -/
  | bufferIndexFault (i : Nat)
  /-- Raised by a command code other than INIT and START (R109). Safe. -/
  | reservedCommand (v : Byte)
  /-- Raised by an access to a register number that does not exist in its direction (R110). Safe. -/
  | unmappedRegister (r : Nat)
  deriving DecidableEq, Repr

/-- Why a step is refused. But for the first, each is the spec's `hold`, "the absence of an enabled step" (R9), or one of its treatments
`refuse`, "it cannot be expressed" (93_implementation_defined.md). Every one is SAFE: the model takes no step. -/
inductive Refusal where
  /-- Raised by an arm of `exec` whose instruction has no meaning yet. Safe. -/
  | notModelled (mnemonic : String)
  /-- Raised by `step` when the schedule is empty: no agent moves (log 3). Safe. -/
  | noTurn
  /-- Raised by the host's turn when it has no call in progress and no program left (log 4). Safe. -/
  | hostHasNoStep
  /-- Raised by the sequencer's turn unless `PEND = 1` and `IE = 1` (R130). Safe. -/
  | sequencerNotEnabled
  /-- Raised by the engine's step unless `PEND = 0` and `EN = 1` (R168). Safe. -/
  | engineNotEnabled
  /-- Raised by the engine's step when `Cfg.ENGINE = conformant` and the contract does not allow the event (R169). Safe. -/
  | engineOutsideContract
  /-- Raised by a bare control write of a byte that is none of the six images (R82, log 13). Safe. -/
  | noSuchImage (b : Byte)
  /-- Raised by the host's turn on a program word that is no access word (R79). Safe. -/
  | noSuchAccess (w : Nat)
  /-- Raised by `start_transfer` when it is given fewer bytes than R113 says its operand has (log 16). Safe. -/
  | tooFewBytes
  deriving DecidableEq, Repr

/-- The six calls of R84, the host's pseudo-instructions. -/
inductive Call where
  | init
  | busy
  | startTransfer (bytes : List Byte) (size : Byte)
  | startTransferRepeat
  | getResult (size : Byte)
  | getState
  deriving DecidableEq, Repr

/-- One item of the host's program: an access word (R79) or a call (R84). -/
inductive HostItem where
  | access (w : Nat)
  | call (c : Call)
  deriving DecidableEq, Repr

/-- Where the host is in a call (R111 to R118; log 17). -/
inductive CallState where
  /-- No call in progress. -/
  | idle
  /-- Held at the poll loop of `c` (R118). -/
  | held (c : Call)
  /-- Past the poll of a start call, with the accesses it has still to make (R113, R114). -/
  | writing (todo : List Access)
  /-- Past the poll of `get_result` with `OK = 1`: the reads still to make and the bytes read (R115). -/
  | reading (todo : List Access) (out : List Byte)
  deriving DecidableEq, Repr

/-- What a host read or a call returned. -/
inductive Returned where
  /-- A register read, or `get_state()` (R101, R103 to R105, R116). -/
  | byte (v : Byte)
  /-- `busy()` (R112). -/
  | flag (b : Bool)
  /-- `get_result(size)`: no bytes at all when `ok` is false (R115). -/
  | result (bytes : Option (List Byte)) (ok : Bool)
  deriving DecidableEq, Repr

/-- One entry of `TRACE`: a request or an event (10_state.md R32). -/
inductive Request where
  | init
  | idle
  | start
  | send (b : Byte)
  | recvAck
  | recvNack
  | stop
  | ev (code d : Byte)
  deriving DecidableEq, Repr

/-- One entry of the schedule: the agent that moves next (R8, R60; log 3). -/
inductive Turn where
  /-- `HOST` takes its next step. -/
  | host
  /-- `SEQ` takes its step for the pending event. -/
  | seq
  /-- `ENG` raises an event; the word holds its code and its data byte (R168). -/
  | eng (w : BitVec 16)
  /-- A control write on its own, outside any agent's step (log 13). None of the three agents takes it. -/
  | ctrl (b : Byte)
  deriving DecidableEq, Repr

/-- The transfer buffer's contents: (index, byte) cells, indices strictly rising. An index not listed holds no value (R35; log 22). -/
abbrev Memory := List Host.Cell

/-- The canonical form: strictly rising indices. What an unlisted index reads as is no byte, so no entry can equal it. -/
abbrev Memory.wf (m : Memory) : Prop := m.Pairwise fun x y => x.1 < y.1

/-- The state. -/
structure State where
  /-- The configuration (R5); no step writes it. -/
  cfg     : Cfg
  /-- `BUF` (R20). -/
  buf     : Memory
  /-- `SIZE` (R21). -/
  size    : Option Byte
  /-- `CUR` (R22). -/
  cur     : Byte
  /-- `OK` (R23). -/
  ok      : Bool
  /-- `HWSTATE` (R24). -/
  hwstate : Option Byte
  /-- `CTRL.EN` (R26). -/
  en      : Bool
  /-- `CTRL.IE`, which is `BUSY` (R25, R26). -/
  ie      : Bool
  /-- `CTRL.EA` (R26). -/
  ea      : Bool
  /-- `CTRL.STA` (R26). -/
  sta     : Bool
  /-- `CTRL.STO` (R26). -/
  sto     : Bool
  /-- `PEND` (R27). -/
  pend    : Bool
  /-- `WCOL` (R28). -/
  wcol    : Bool
  /-- `DATA` (R29). -/
  data    : Option Byte
  /-- `STATUS` (R30); no value while it is unspecified (log 9). -/
  status  : Option Byte
  /-- `CLKDIV` (R31). -/
  clkdiv  : Option Nat
  /-- `FAULT` (R32). -/
  fault   : Option Fault
  /-- `TRACE`, oldest first (R32). -/
  trace   : List Request
  /-- How many free values have been drawn (the model's own, log 26). -/
  draws   : Nat
  /-- The schedule: which agent moves next, and with what (the model's own, log 3). -/
  sched   : List Turn
  /-- The host's program (the model's own, log 4). -/
  prog    : List HostItem
  /-- The call in progress (the model's own, log 17). -/
  call    : CallState
  /-- What the last host read or call returned (the model's own, log 17). -/
  ret     : Option Returned
  deriving DecidableEq, Repr

/-- `CLKDIV_SET` (R31): the clock divisor has been written. -/
def State.clkdivSet (s : State) : Bool := s.clkdiv.isSome

/-- The reset of 10_state.md R35 and 70_reset_and_hazards.md R210, for a given configuration; the last five fields, the model's own, start empty
(logs 18, 26). -/
def State.resetWith (c : Cfg) : State where
  cfg := c
  buf := []
  size := none
  cur := 0
  ok := false
  hwstate := none
  en := false
  ie := false
  ea := false
  sta := false
  sto := false
  pend := false
  wcol := false
  data := none
  status := none
  clkdiv := none
  fault := none
  trace := []
  draws := 0
  sched := []
  prog := []
  call := .idle
  ret := none

/-- The machine right after reset, with the default configuration (R5, R35). -/
def State.reset : State := State.resetWith Cfg.default

end Sys2Proof.Machine
end

