-- ==== Sys2Proof/Machine/Operands.lean ====
section
/-! DEFINITION. The forms of the operands: the address byte, the packet size, the cursor's comparisons, and what `start_transfer` and
`get_result` make of theirs. -/

namespace Sys2Proof.Machine

/-- Assembling an address byte: `(addr7 << 1) | dir` (30_encoding.md R71). -/
def addrByte (addr7 : BitVec 7) (dir : Bool) : Byte :=
  (addr7.setWidth 8 <<< 1) ||| (BitVec.ofBool dir).setWidth 8

/-- `addr7`, bits 7:1 (R71). -/
def addr7Of (b : Byte) : BitVec 7 := b.extractLsb' 1 7

/-- `dir`, bit 0 (R71). -/
def dirOf (b : Byte) : Bool := b.getLsbD 0

/-- Does an address byte mean a read: `dir = Cfg.DIR_READ` (R71). -/
def isRead (c : Cfg) (b : Byte) : Bool := dirOf b == c.dirRead

/-- `1 <= size <= CAP` (40_host_interface.md R107, R113). -/
def sizeLegal (c : Cfg) (n : Byte) : Bool := decide (1 ≤ n.toNat) && decide (n.toNat ≤ c.cap)

/-- `CUR < SIZE`, unsigned (41_sequencer_events.md R132). -/
def moreToSend (cur size : Byte) : Bool := decide (cur.toNat < size.toNat)

/-- `CUR < SIZE - 1` over the natural numbers (R133, 92_eei_decisions.md D12). -/
def moreToReceive (cur size : Byte) : Bool := decide (cur.toNat < size.toNat - 1)

/-- The writes of the payload from cell `i` on, in index order (40_host_interface.md R113). -/
def payloadWrites : Nat → List Byte → List Access
  | _, [] => []
  | i, b :: bs => .wr (.hbuf i) b :: payloadWrites (i + 1) bs

/-- The accesses of `start_transfer` after its poll: `HSIZE`, `HBUF[0]`, in the write direction the payload, and the START command
(R113). None where the operand has fewer bytes than R113 says. -/
def startWrites (c : Cfg) (bytes : List Byte) (size : Byte) : Option (List Access) :=
  match bytes with
  | [] => none
  | b0 :: rest =>
    if isRead c b0 then some [.wr .hsize size, .wr (.hbuf 0) b0, .wr .hcmd 0x02]
    else if bytes.length < size.toNat then none
    else some (.wr .hsize size :: .wr (.hbuf 0) b0 :: (payloadWrites 1 (rest.take (size.toNat - 1)) ++ [.wr .hcmd 0x02]))

/-- The reads of `get_result(size)` after its poll: `HBUF[0]` to `HBUF[size-1]` (R115). -/
def resultReads (size : Byte) : List Access :=
  (List.range size.toNat).map fun i => .rd (.hbuf i)

/-- The instruction of a call. -/
def callInstr : Call → Instr
  | .init => .init
  | .busy => .busy
  | .startTransfer bytes size => .startTransfer bytes size
  | .startTransferRepeat => .startTransferRepeat
  | .getResult size => .getResult size
  | .getState => .getState

end Sys2Proof.Machine
end

