-- ==== Sys2Proof/Machine/Flags.lean ====
section
/-! DEFINITION. The views of the status bits: `BUSY`, the transfer status, the byte of `HSTAT`. -/

namespace Sys2Proof.Machine

/-- `BUSY` is the control field `IE` (10_state.md R25). -/
def State.busy (s : State) : Bool := s.ie

/-- The transfer status of R25. -/
inductive TransferStatus where
  | inProgress
  | succeeded
  /-- Failed, or no transfer started since reset. -/
  | failedOrNone
  /-- `BUSY = 1` and `OK = 1`: unreachable (R33, I3). -/
  | unreachable
  deriving DecidableEq, Repr

/-- The table of R25. -/
def State.transferStatus (s : State) : TransferStatus :=
  match s.busy, s.ok with
  | true, false => .inProgress
  | false, true => .succeeded
  | false, false => .failedOrNone
  | true, true => .unreachable

/-- The byte of `HSTAT`: `000000 ++ OK ++ IE` (30_encoding.md R81, 40_host_interface.md R104). -/
def State.hstatByte (s : State) : Byte := 0#6 ++ BitVec.ofBool s.ok ++ BitVec.ofBool s.ie

/-- What one poll of `HSTAT` shows in bit 0 (R113 to R115). -/
def State.pollBusy (s : State) : Bool := s.hstatByte.getLsbD 0

/-- What the same poll shows in bit 1 (R115). -/
def State.pollOk (s : State) : Bool := s.hstatByte.getLsbD 1

end Sys2Proof.Machine
end

