-- ==== Sys2Proof/Machine/Ops.lean ====
section
/-! DEFINITION. The operations that the meanings share: the buffer's reads and writes, the free values, `raise`, the control write, and the
sequencer's three helpers. -/

namespace Sys2Proof.Machine

/-- What a step answers. -/
abbrev Result := Host.Outcome State Fault Refusal

/-! ## The transfer buffer -/

/-- The byte of a cell, `none` where it holds no value (R35). -/
def Memory.read : Memory → Nat → Option Byte
  | [], _ => none
  | (b, w) :: m, a => if a = b then some w else Memory.read m a

/-- Writing one cell keeps the canonical form. -/
def Memory.write : Memory → Nat → Byte → Memory
  | [], a, v => [(a, v)]
  | (b, w) :: m, a, v =>
    if a < b then (a, v) :: (b, w) :: m
    else if a = b then (a, v) :: m
    else (b, w) :: Memory.write m a v

/-! ## Free values -/

/-- The value a register holds, or where it holds none a value that no rule constrains (`draw u8`, R6, R35). -/
def orDraw (o : Option Byte) (s : State) : Byte × State :=
  match o with
  | some b => (b, s)
  | none => (Config.freeByte s.draws, { s with draws := s.draws + 1 })

/-! ## Faults -/

/-- `raise`: "sets the model's sticky fault record and ends the step with no other effect" (00_scope.md R6, R9; 10_state.md R32). -/
def State.raise (s : State) (r : Fault) : State := { s with fault := some r }

/-- A step that raises: a next state that holds the record (log 2). -/
def raised (s : State) (r : Fault) : Result := .next (s.raise r)

/-- A step made of a body that may raise part way: "A model fault inside a step replaces the whole step" (60_exceptions.md R184). -/
def commit (s : State) (body : Except Fault State) : Result :=
  match body with
  | .ok t => .next t
  | .error r => raised s r

/-! ## The control write -/

/-- `ctrl_write(img) as req` (42_engine_requests.md R160). A write with `IF = 1` leaves no event pending, and `STATUS` is then unspecified: it
holds no value (10_state.md R30, D34; log 9). -/
def State.ctrlWrite (s : State) (m : CtrlImage) (req : Request) : State :=
  { s with
    en := m.en
    ie := m.ie
    ea := m.ea
    sta := m.sta
    sto := m.sto
    pend := s.pend && !m.ifl
    wcol := s.wcol && !m.wc
    status := if m.ifl then none else s.status
    trace := s.trace ++ [req] }

/-! ## The sequencer's helpers -/

/-- `advance_tx()` (41_sequencer_events.md R132). A size without a value raises, as R35 says of its reads (log 23). -/
def advanceTx (s : State) : Except Fault State :=
  match s.size with
  | none => .error .uninitialisedRead
  | some n =>
    if moreToSend s.cur n then
      match s.buf.read s.cur.toNat with
      | none => .error .uninitialisedRead
      | some b => .ok ({ s with data := some b, cur := s.cur + 1 }.ctrlWrite imageGo (.send b))
    else .ok ({ s with ok := true }.ctrlWrite imageStop .stop)

/-- `rx_request()` (R133; log 23 for a size without a value). -/
def rxRequest (s : State) : Except Fault State :=
  match s.size with
  | none => .error .uninitialisedRead
  | some n =>
    if moreToReceive s.cur n then .ok (s.ctrlWrite imageGoAck .recvAck)
    else .ok (s.ctrlWrite imageGo .recvNack)

/-- `if CUR >= CAP: raise BufferIndexFault(CUR)`, then `BUF[CUR] <- DATA` (R51, R139, R141). -/
def storeReceived (s : State) : Except Fault State :=
  if s.cur.toNat < s.cfg.cap then
    let (d, t) := orDraw s.data s
    .ok { t with buf := t.buf.write s.cur.toNat d }
  else .error (.bufferIndexFault s.cur.toNat)

/-- `fail(c)`: record the code and write the idle image (R134). -/
def State.fail (s : State) (c : Byte) : State :=
  { s with hwstate := some c }.ctrlWrite imageIdle .idle

/-- The failure step of a named event: the code recorded is that event's (60_exceptions.md R181), which is the sampled status code whenever
the event was decoded from it (log 21). -/
def State.failEvent (s : State) (e : Event) : State := s.fail (s.cfg.codes.code e)

/-! ## What the host is given back -/

/-- A value returned to the host by a read or a call. -/
def State.returned (s : State) (r : Returned) : State := { s with ret := some r }

/-- A byte of the buffer returned to the host: to the program, or to the `get_result` in progress, which ends with its last read
(40_host_interface.md R115; log 17). -/
def State.returnCell (s : State) (v : Byte) : State :=
  match s.call with
  | .reading [] out => { s with call := .idle, ret := some (.result (some (out ++ [v])) true) }
  | .reading (a :: todo) out => { s with call := .reading (a :: todo) (out ++ [v]) }
  | _ => s.returned (.byte v)

end Sys2Proof.Machine
end

