-- ==== Sys2Proof/Machine/HostAccess.lean ====
section
/-! DEFINITION. The host register accesses (40_host_interface.md R100 to R110, R117). -/

namespace Sys2Proof.Machine

/-- No host access to shared state while busy (R117): the model raises, with no other effect. -/
def whenNotBusy (s : State) (r : Result) : Result :=
  if s.ie then raised s .hostAccessWhileBusy else r

/-- A cell that exists: `i < CAP`; any other is an unmapped number, busy or not (R100, R101, R110; log 24). -/
def whenCellExists (s : State) (i : Nat) (r : Result) : Result :=
  if i < s.cfg.cap then r else raised s (.unmappedRegister (regNumber s.cfg.hostMap (.hbuf i)))

/-- `HWR HBUF[i], v` (R100). -/
def execHwrHbuf (i : Nat) (v : Byte) (s : State) : Result :=
  whenCellExists s i (whenNotBusy s (.next { s with buf := s.buf.write i v }))

/-- `HRD HBUF[i]` (R101). -/
def execHrdHbuf (i : Nat) (s : State) : Result :=
  whenCellExists s i (whenNotBusy s
    (match s.buf.read i with
    | none => raised s .uninitialisedRead
    | some v => .next (s.returnCell v)))

/-- `HWR HSIZE, v` (R102): any byte is stored. -/
def execHwrHsize (v : Byte) (s : State) : Result :=
  whenNotBusy s (.next { s with size := some v })

/-- `HRD HSIZE` (R103). -/
def execHrdHsize (s : State) : Result :=
  whenNotBusy s
    (match s.size with
    | none => raised s .uninitialisedRead
    | some v => .next (s.returned (.byte v)))

/-- `HRD HSTAT` (R104): allowed at any time. -/
def execHrdHstat (s : State) : Result := .next (s.returned (.byte s.hstatByte))

/-- `HRD HSTATE` (R105): allowed at any time; any byte before the first failure since reset. -/
def execHrdHstate (s : State) : Result :=
  let (v, t) := orDraw s.hwstate s
  .next (t.returned (.byte v))

/-- What the INIT command does while not busy (R106): the clock divisor, then `IMG_INIT`. -/
def State.initCommand (s : State) : State :=
  { s with clkdiv := some s.cfg.clkdivInit }.ctrlWrite imageInit .init

/-- `HWSTATE` after a START command (R107): kept, or set to the configured value (`Cfg.HWSTATE_ON_START`). -/
def hwstateAfterStart (s : State) : Option Byte :=
  match s.cfg.hwstateOnStart with
  | .keep => s.hwstate
  | .set v => some v

/-- What the START command does once its checks have passed (R107). -/
def State.startCommand (s : State) : State :=
  { s with ok := false, cur := 0, hwstate := hwstateAfterStart s }.ctrlWrite imageStart .start

/-- `HWR HCMD, INIT` (R106). -/
def execHwrHcmdInit (s : State) : Result := whenNotBusy s (.next s.initCommand)

/-- `HWR HCMD, START` (R107): a rejected command changes no state. -/
def execHwrHcmdStart (s : State) : Result :=
  whenNotBusy s
    (match s.size with
    | none => raised s .uninitialisedRead
    | some n => if sizeLegal s.cfg n then .next s.startCommand else raised s (.sizeOutOfRange n))

/-- `HWR HCMD, v`, any other `v` (R109). While busy R117's fault comes first (log 15). -/
def execHwrHcmdReserved (v : Byte) (s : State) : Result :=
  whenNotBusy s (raised s (.reservedCommand v))

/-- An access to a number that does not exist in its direction (R110). The direction and the data do not matter, and nor does `IE`: a read of
`HCMD` while busy is R108's "access to a number that does not exist for reads", where R117 could also be read to ask
`HostAccessWhileBusy`. DESIGN CHOICE (log 28). -/
def execHostUnmapped (_w : Bool) (reg : Nat) (_val : Byte) (s : State) : Result :=
  raised s (.unmappedRegister reg)

end Sys2Proof.Machine
end

