-- ==== Sys2Proof/Machine/Calls.lean ====
section
/-! DEFINITION. The six calls (40_host_interface.md R111 to R116, R118). A call is not atomic (20_memory.md R56): its first step checks its operand
and makes its first access, and the accesses after that are host steps of their own, which Machine/Fetch.lean takes from `call` (log 17). -/

namespace Sys2Proof.Machine

/-- `init()` (R111): one access, the INIT command. -/
def execInit (s : State) : Result := whenNotBusy s (.next s.initCommand)

/-- `busy()` (R112): one poll of `HSTAT`. -/
def execBusy (s : State) : Result := .next (s.returned (.flag s.pollBusy))

/-- The poll of a call that waits: held while `BUSY` reads 1, "which changes no state" (R118), and otherwise past the loop. -/
def pollThen (s : State) (c : Call) (past : State) : Result :=
  if s.pollBusy then .next { s with call := .held c } else .next past

/-- `start_transfer(bytes, size)` (R113): the size check "before any access", then the poll; past it the writes remain. -/
def execStartTransfer (bytes : List Byte) (size : Byte) (s : State) : Result :=
  if sizeLegal s.cfg size then
    match startWrites s.cfg bytes size with
    | none => .refused .tooFewBytes
    | some todo => pollThen s (.startTransfer bytes size) { s with call := .writing todo }
  else raised s (.sizeOutOfRange size)

/-- `start_transfer_repeat()` (R114): the poll; past it the START command remains. -/
def execStartTransferRepeat (s : State) : Result :=
  pollThen s .startTransferRepeat { s with call := .writing [.wr .hcmd 0x02] }

/-- `get_result(size)` past its poll (R115): the reads remain if `OK` is 1 in that same `HSTAT` read; with none to make, and with `OK` 0, it
returns. -/
def resultAfterPoll (size : Byte) (s : State) : State :=
  if s.pollOk then
    if size = 0 then { s with call := .idle, ret := some (.result (some []) true) }
    else { s with call := .reading (resultReads size) [] }
  else { s with call := .idle, ret := some (.result none false) }

/-- `get_result(size)` (R115): `size > CAP` is refused by a fault "before any access", then the poll. -/
def execGetResult (size : Byte) (s : State) : Result :=
  if size.toNat ≤ s.cfg.cap then pollThen s (.getResult size) (resultAfterPoll size s)
  else raised s (.sizeOutOfRange size)

/-- `get_state()` (R116): one read of `HSTATE`, without a wait. -/
def execGetState (s : State) : Result :=
  let (v, t) := orDraw s.hwstate s
  .next (t.returned (.byte v))

end Sys2Proof.Machine
end

