-- ==== Sys2Proof/Machine/Control.lean ====
section
/-! DEFINITION. The six control images as writes of their own (42_engine_requests.md R161 to R166). Inside the steps of the other rules the same
write, `State.ctrlWrite`, is made by the helper that needs it. -/

namespace Sys2Proof.Machine

/-- `IMG_INIT` (R161). -/
def execImgInit (s : State) : Result := .next (s.ctrlWrite imageInit .init)

/-- `IMG_IDLE` (R162). -/
def execImgIdle (s : State) : Result := .next (s.ctrlWrite imageIdle .idle)

/-- `IMG_START` (R163). -/
def execImgStart (s : State) : Result := .next (s.ctrlWrite imageStart .start)

/-- What `IMG_GO` asks for when it is written on its own: a send of `DATA`, or a receive answered with NACK. "The image is the same; the
engine sends when it is in the transmit phase ... and receives when it is in the receive phase" (R164): the phase is that of the pending
event, and where no event tells it a free bit does (log 14): `STATUS` is never read while `PEND = 0` (10_state.md R30). -/
def goRequest (s : State) : Request × State :=
  let send := let (d, t) := orDraw s.data s; (Request.send d, t)
  match if s.pend then s.status.map (decodeStatus s.cfg) else none with
  | some .evStart | some .evRepStart | some .evSlawAck | some .evDatawAck => send
  | some .evSlarAck | some .evDatarAck => (.recvNack, s)
  | _ => if Config.freeBit s.draws then (.recvNack, { s with draws := s.draws + 1 })
         else let (d, t) := orDraw s.data { s with draws := s.draws + 1 }; (.send d, t)

/-- `IMG_GO` (R164). -/
def execImgGo (s : State) : Result :=
  .next ((goRequest s).2.ctrlWrite imageGo (goRequest s).1)

/-- `IMG_GO_ACK` (R165). -/
def execImgGoAck (s : State) : Result := .next (s.ctrlWrite imageGoAck .recvAck)

/-- `IMG_STOP` (R166). -/
def execImgStop (s : State) : Result := .next (s.ctrlWrite imageStop .stop)

end Sys2Proof.Machine
end

