-- ==== Sys2Proof/Machine/Engine.lean ====
section
/-! DEFINITION. The bus engine's step (42_engine_requests.md R168) and the conformant-engine contract, a predicate on `TRACE` (R169). -/

namespace Sys2Proof.Machine

/-- Does the master hold the bus (R169, `own`). -/
inductive BusOwner where
  | notHeld
  | held
  | unknown
  deriving DecidableEq, Repr

/-- How one entry of `TRACE` changes `own`: true at a START or repeated START, false at a STOP request and at an arbitration loss, unknown
after a bus error (R169). -/
def ownAfter (t : StatusCodes) (o : BusOwner) : Request → BusOwner
  | .stop => .notHeld
  | .ev code _ =>
    match decodeEvent t code with
    | some .start | some .repStart => .held
    | some .arbLost => .notHeld
    | some .busError => .unknown
    | _ => o
  | _ => o

/-- `own` at the end of a trace; at its beginning the master does not hold the bus (log 25). -/
def busOwner (t : StatusCodes) (trace : List Request) : BusOwner := trace.foldl (ownAfter t) .notHeld

/-- The answers to a START request (R169). -/
def startAnswers : BusOwner → List Event
  | .notHeld => [.start, .busError]
  | .held => [.repStart, .busError]
  | .unknown => [.start, .repStart, .busError]

/-- The answers to a send request issued from an event (R169): the address byte after a START or repeated START, by its direction; a payload
byte after an acknowledged byte. -/
def sendAnswers (c : Cfg) (b : Byte) : Option Event → List Event
  | some .start | some .repStart =>
    if isRead c b then [.slarAck, .slarNack, .arbLost, .busError] else [.slawAck, .slawNack, .arbLost, .busError]
  | some .slawAck | some .datawAck => [.datawAck, .datawNack, .arbLost, .busError]
  | _ => []

/-- The events a conformant engine may raise after a trace, newest entry first (R169): each request is answered by at most one event, so none
where the newest entry is an event (log 25). After init, idle and stop, and with no request at all, the table's row says "none", and the model follows it
for `EV_BUS_ERROR` too, which R181 (60_exceptions.md) says is raised after "any request, or none". DESIGN CHOICE (log 29). -/
def answersTo (c : Cfg) (own : BusOwner) : List Request → List Event
  | .start :: _ => startAnswers own
  | .send b :: .ev code _ :: _ => sendAnswers c b (decodeEvent c.codes code)
  | .recvAck :: _ => [.datarAck, .busError]
  | .recvNack :: _ => [.datarNack, .arbLost, .busError]
  | _ => []

/-- The table of R169, on `TRACE` as the model keeps it, oldest entry first. -/
def allowedEvents (c : Cfg) (trace : List Request) : List Event :=
  answersTo c (busOwner c.codes trace) trace.reverse

/-- May the engine raise a code now: any code with `any`; with `conformant`, the code of an event the table allows, and no unrecognized code
(R168, R169). -/
def engineMay (c : Cfg) (trace : List Request) (code : Byte) : Bool :=
  match c.engine with
  | .any => true
  | .conformant =>
    match decodeEvent c.codes code with
    | some e => (allowedEvents c trace).contains e
    | none => false

/-- `ENG_RAISE(code, d)` (R168). `WCOL` takes a free bit, which covers "draw Bool or unchanged" (log 7). -/
def execEngRaise (code d : Byte) (s : State) : Result :=
  if s.pend || !s.en then .refused .engineNotEnabled
  else if engineMay s.cfg s.trace code then
    .next { s with
      status := some code
      data := some d
      pend := true
      wcol := Config.freeBit s.draws
      draws := s.draws + 1
      trace := s.trace ++ [.ev code d] }
  else .refused .engineOutsideContract

end Sys2Proof.Machine
end

