-- ==== Sys2Proof/Machine/Sequencer.lean ====
section
/-! DEFINITION. The thirteen transitions of the sequencer (41_sequencer_events.md R135 to R147). When one is taken is Machine/Fetch.lean's (R130). -/

namespace Sys2Proof.Machine

/-- `EV_START` (R135): `CUR <- 0; advance_tx()`. -/
def execEvStart (s : State) : Result := commit s (advanceTx { s with cur := 0 })

/-- `EV_REP_START` (R136): "Identical to rule R135 in every respect". -/
def execEvRepStart (s : State) : Result := commit s (advanceTx { s with cur := 0 })

/-- `EV_SLAW_ACK` (R137): `advance_tx()`. -/
def execEvSlawAck (s : State) : Result := commit s (advanceTx s)

/-- `EV_DATAW_ACK` (R138): `advance_tx()`. -/
def execEvDatawAck (s : State) : Result := commit s (advanceTx s)

/-- `EV_SLAR_ACK` (R140): `rx_request()`. -/
def execEvSlarAck (s : State) : Result := commit s (rxRequest s)

/-- `EV_DATAR_ACK` (R139): store, advance, `rx_request()` with the cursor after the increment. -/
def execEvDatarAck (s : State) : Result :=
  commit s (match storeReceived s with
    | .error r => .error r
    | .ok t => rxRequest { t with cur := t.cur + 1 })

/-- `EV_DATAR_NACK` (R141): store, `OK <- 1`, request STOP; the cursor does not move. -/
def execEvDatarNack (s : State) : Result :=
  commit s (match storeReceived s with
    | .error r => .error r
    | .ok t => .ok ({ t with ok := true }.ctrlWrite imageStop .stop))

/-- `EV_ARB_LOST` (R142): request START again, nothing else. -/
def execEvArbLost (s : State) : Result := .next (s.ctrlWrite imageStart .start)

/-- `EV_SLAW_NACK` (R143): `fail(c)`. -/
def execEvSlawNack (s : State) : Result := .next (s.failEvent .slawNack)

/-- `EV_SLAR_NACK` (R144): `fail(c)`. -/
def execEvSlarNack (s : State) : Result := .next (s.failEvent .slarNack)

/-- `EV_DATAW_NACK` (R145): `fail(c)`. -/
def execEvDatawNack (s : State) : Result := .next (s.failEvent .datawNack)

/-- `EV_BUS_ERROR` (R146): `fail(c)`. -/
def execEvBusError (s : State) : Result := .next (s.failEvent .busError)

/-- `EV_OTHER(c)` (R147): `fail(c)` with the unrecognized code itself. -/
def execEvOther (c : Byte) (s : State) : Result := .next (s.fail c)

end Sys2Proof.Machine
end

