-- ==== Sys2Proof/Machine/Dispatch.lean ====
section
/-! DEFINITION. One arm per constructor of Instr, each one call of its meaning. -/

namespace Sys2Proof.Machine

def exec (i : Instr) (s : State) : Host.Outcome State Fault Refusal :=
  match i with
  | .evStart => Sys2Proof.Machine.execEvStart s
  | .evRepStart => Sys2Proof.Machine.execEvRepStart s
  | .evSlawAck => Sys2Proof.Machine.execEvSlawAck s
  | .evSlawNack => Sys2Proof.Machine.execEvSlawNack s
  | .evDatawAck => Sys2Proof.Machine.execEvDatawAck s
  | .evDatawNack => Sys2Proof.Machine.execEvDatawNack s
  | .evArbLost => Sys2Proof.Machine.execEvArbLost s
  | .evSlarAck => Sys2Proof.Machine.execEvSlarAck s
  | .evSlarNack => Sys2Proof.Machine.execEvSlarNack s
  | .evDatarAck => Sys2Proof.Machine.execEvDatarAck s
  | .evDatarNack => Sys2Proof.Machine.execEvDatarNack s
  | .evBusError => Sys2Proof.Machine.execEvBusError s
  | .evOther c => Sys2Proof.Machine.execEvOther c s
  | .imgInit => Sys2Proof.Machine.execImgInit s
  | .imgIdle => Sys2Proof.Machine.execImgIdle s
  | .imgStart => Sys2Proof.Machine.execImgStart s
  | .imgGo => Sys2Proof.Machine.execImgGo s
  | .imgGoAck => Sys2Proof.Machine.execImgGoAck s
  | .imgStop => Sys2Proof.Machine.execImgStop s
  | .hwrHbuf k v => Sys2Proof.Machine.execHwrHbuf k v s
  | .hrdHbuf k => Sys2Proof.Machine.execHrdHbuf k s
  | .hwrHsize v => Sys2Proof.Machine.execHwrHsize v s
  | .hrdHsize => Sys2Proof.Machine.execHrdHsize s
  | .hrdHstat => Sys2Proof.Machine.execHrdHstat s
  | .hrdHstate => Sys2Proof.Machine.execHrdHstate s
  | .hwrHcmdInit => Sys2Proof.Machine.execHwrHcmdInit s
  | .hwrHcmdStart => Sys2Proof.Machine.execHwrHcmdStart s
  | .hwrHcmdReserved v => Sys2Proof.Machine.execHwrHcmdReserved v s
  | .hostUnmapped w reg val => Sys2Proof.Machine.execHostUnmapped w reg val s
  | .init => Sys2Proof.Machine.execInit s
  | .busy => Sys2Proof.Machine.execBusy s
  | .startTransfer bytes size => Sys2Proof.Machine.execStartTransfer bytes size s
  | .startTransferRepeat => Sys2Proof.Machine.execStartTransferRepeat s
  | .getResult size => Sys2Proof.Machine.execGetResult size s
  | .getState => Sys2Proof.Machine.execGetState s
  | .engRaise code d => Sys2Proof.Machine.execEngRaise code d s

end Sys2Proof.Machine
end

