-- ==== Sys2Proof/Machine/Fetch.lean ====
section
/-! DEFINITION. Where each agent's turn finds the instruction it runs. -/

namespace Sys2Proof.Machine

/-- An instruction found, with the state it is to run in; or the reason the turn's agent has no step (R9, `hold`). -/
abbrev Fetched := Except Refusal (Instr × State)

/-- The next item of the host's program (log 4). -/
def fetchProgram (s : State) : Fetched :=
  match s.prog with
  | [] => .error .hostHasNoStep
  | .access w :: rest =>
    match decodeHostAcc s.cfg w with
    | .ok i => .ok (i, { s with prog := rest, call := .idle })
    | .error _ => .error (.noSuchAccess w)
  | .call c :: rest => .ok (callInstr c, { s with prog := rest, call := .idle })

/-- The state of a start call once an access has been taken from those it has still to make; with none left it has returned. -/
def writesLeft (todo : List Access) : CallState :=
  match todo with
  | [] => .idle
  | a :: as => .writing (a :: as)

/-- The host's next step (40_host_interface.md R111 to R118): a call held at its poll polls again; a call past its poll makes its next access; else
the program goes on. -/
def fetchHost (s : State) : Fetched :=
  match s.call with
  | .held c => .ok (callInstr c, { s with call := .idle })
  | .writing (a :: todo) => .ok (accessInstr s.cfg a, { s with call := writesLeft todo })
  | .reading (a :: todo) out => .ok (accessInstr s.cfg a, { s with call := .reading todo out })
  | .writing [] => fetchProgram s
  | .reading [] _ => fetchProgram s
  | .idle => fetchProgram s

/-- The sequencer's step (41_sequencer_events.md R130): enabled exactly when `PEND = 1` and `IE = 1`; it samples `STATUS` once and decodes it. -/
def fetchSeq (s : State) : Fetched :=
  if s.pend && s.ie then
    let (c, t) := orDraw s.status s
    .ok (decodeStatus s.cfg c, t)
  else .error .sequencerNotEnabled

/-- The engine's step (42_engine_requests.md R168). -/
def fetchEng (w : BitVec 16) (s : State) : Fetched :=
  .ok (.engRaise (w.extractLsb' 8 8) (w.extractLsb' 0 8), s)

/-- A control write on its own (log 13). -/
def fetchCtrl (b : Byte) (s : State) : Fetched :=
  match decodeCtrl s.cfg b with
  | .ok i => .ok (i, s)
  | .error _ => .error (.noSuchImage b)

/-- The instruction of a turn. -/
def fetch (t : Turn) (s : State) : Fetched :=
  match t with
  | .host => fetchHost s
  | .seq => fetchSeq s
  | .eng w => fetchEng w s
  | .ctrl b => fetchCtrl b s

end Sys2Proof.Machine
end

