-- ==== Sys2Proof/Machine/Step.lean ====
section
/-! DEFINITION. The machine's step, and how an instruction is placed where the next step fetches it. -/

namespace Sys2Proof.Machine

/-- One turn of one agent: the instruction it finds, run (00_scope.md R8, 20_memory.md R60). -/
def runTurn (t : Turn) (s : State) : Host.Outcome State Fault Refusal :=
  match fetch t s with
  | .error r => .refused r
  | .ok (i, u) => exec i u

/-- One step: the first turn of the schedule (log 3). A state whose `FAULT` holds a reason has no step: it answers the reason, and nothing
clears it (R9, R32; log 2). What the model's own bookkeeping has moved when a step raises is log 19's. -/
def step (s : State) : Host.Outcome State Fault Refusal :=
  match s.fault with
  | some r => .fault r
  | none =>
    match s.sched with
    | [] => .refused .noTurn
    | t :: ts => runTurn t { s with sched := ts }

/-- The state whose next step fetches and runs the table's word: an event is the sampled status code with its interrupt pending and enabled, a
control image is a control write, 16 bits are the engine's step with its guard met, and any other width is the host's next access (log 20). -/
def State.withFetchWord (s : State) (nbits w : Nat) : State :=
  if nbits = 8 then
    match tableByteCarrier s.cfg (BitVec.ofNat 8 w) with
    | .ctrl => { s with fault := none, sched := .ctrl (BitVec.ofNat 8 w) :: s.sched }
    | _ => { s with
        fault := none, status := some (BitVec.ofNat 8 w), pend := true, ie := true, sched := .seq :: s.sched }
  else if nbits = 16 then
    { s with fault := none, pend := false, en := true, sched := .eng (BitVec.ofNat 16 w) :: s.sched }
  else { s with fault := none, call := .idle, prog := .access w :: s.prog, sched := .host :: s.sched }

end Sys2Proof.Machine
end

