-- ==== Sys2Proof/Safety.lean ====
section
/-! DEFINITION. What a safe run is, in the terms the claims use: the agents' moves, the launch premises, the end of a run, the invariants, and
fairness as a premise. -/

namespace Sys2Proof.Machine

/-! ## The interleaving -/

/-- The turns of the three agents of 00_scope.md R8. A bare control write is none of them (log 13). -/
def Turn.isAgent : Turn → Bool
  | .host => true
  | .seq => true
  | .eng _ => true
  | .ctrl _ => false

/-- Every turn of the schedule is one of an agent. -/
abbrev State.agentsOnly (s : State) : Prop := ∀ t ∈ s.sched, t.isAgent = true

/-- One move of the interleaving of R60: some agent's turn, taken from a state without a fault. The schedule plays no part. -/
def Moves (t : Turn) (s u : State) : Prop :=
  t.isAgent = true ∧ s.fault = none ∧ runTurn t s = .next u

/-- The states that runs from reset reach, for a configuration and a host program (70_reset_and_hazards.md R210, R212 `ResetDone`). -/
inductive Reachable (c : Cfg) (prog : List HostItem) : State → Prop where
  | reset : Reachable c prog { State.resetWith c with prog := prog }
  | move {s u : State} (t : Turn) : Reachable c prog s → Moves t s u → Reachable c prog u

/-- `k` steps, stopping at the first fault or refusal. -/
def runSteps : Nat → State → Host.Outcome State Fault Refusal
  | 0, s => .next s
  | k + 1, s =>
    match step s with
    | .next u => runSteps k u
    | .fault r => .fault r
    | .refused r => .refused r

/-- The engine's turn that raises a named event with a data byte. -/
def engTurn (c : Cfg) (e : Event) (d : Byte) : Turn := .eng (c.codes.code e ++ d)

/-! ## Launch premises and the end of a run -/

/-- `Initialised` (R212): the clock divisor has been written and the controller is enabled. -/
abbrev State.initialised (s : State) : Prop := s.clkdivSet = true ∧ s.en = true

/-- `NoFault` (R212). -/
abbrev State.noFault (s : State) : Prop := s.fault = none

/-- The end of a run (R213): the host's last call has returned, `BUSY = 0`, and no fault. It says nothing of the wire. -/
abbrev State.finished (s : State) : Prop :=
  s.prog = [] ∧ s.call = .idle ∧ s.busy = false ∧ s.noFault

/-- A sequencer step is enabled (41_sequencer_events.md R130). -/
abbrev State.seqEnabled (s : State) : Prop := s.pend = true ∧ s.ie = true

/-! ## Invariants -/

/-- What every move of the agents keeps, with any engine: the configuration's constraints (R5), the buffer's form and bounds (R51), `CUR <= CAP` (R22),
I3 and I4 (R33), the size checked at START while a transfer is in flight (R107), and an event's code and data while it is pending (R27). -/
structure State.Inv (s : State) : Prop where
  cfgWf     : s.cfg.wf
  bufWf     : s.buf.wf
  bufBound  : ∀ x ∈ s.buf, x.1 < s.cfg.cap
  curBound  : s.cur.toNat ≤ s.cfg.cap
  busyOk    : s.ie = true → s.ok = false
  busyEn    : s.ie = true → s.en = true
  busySize  : s.ie = true → ∃ n, s.size = some n ∧ sizeLegal s.cfg n = true
  pendEvent : s.pend = true → s.status.isSome = true ∧ s.data.isSome = true

/-- What the newest request of a trace (newest entry first) says of the cursor, for a packet of `size` bytes and a buffer of `cap` cells: one
address byte has been sent when the send came from a START, a byte asked for with ACK is not the last, and a byte asked for with NACK has a cell. -/
def requestFits (c : Cfg) (cur size : Nat) : List Request → Prop
  | .send _ :: .ev code _ :: _ =>
    (decodeEvent c.codes code = some .start ∨ decodeEvent c.codes code = some .repStart) → cur = 1
  | .recvAck :: _ => cur + 1 < size
  | .recvNack :: _ => cur < c.cap
  | _ => True

/-- What every move keeps with a conformant engine: I2, `CUR <= SIZE` while a transfer is in flight (R33), and where the protocol stands: with no
event pending the newest request fits the cursor; with one pending, the newest entry of `TRACE` is that event, the contract allowed it for the
trace before it (42_engine_requests.md R169), and the request it answers fits the cursor. -/
structure State.ConformantInv (s : State) : Prop where
  inv      : s.Inv
  engine   : s.cfg.engine = .conformant
  within   : ∀ n, s.ie = true → s.size = some n → s.cur.toNat ≤ n.toNat
  waiting  : ∀ n, s.ie = true → s.pend = false → s.size = some n →
    requestFits s.cfg s.cur.toNat n.toNat s.trace.reverse
  answered : ∀ n, s.ie = true → s.pend = true → s.size = some n →
    ∃ code d before e, s.trace = before ++ [.ev code d] ∧ s.status = some code ∧
      decodeEvent s.cfg.codes code = some e ∧ e ∈ allowedEvents s.cfg before ∧
      requestFits s.cfg s.cur.toNat n.toNat before.reverse

/-! ## What no rule reads -/

/-- What a state looks like without the state that no rule reads: `WCOL` (10_state.md R28), `CLKDIV` (R31), `TRACE` (R32), and `STATUS` while no event is pending (R30). -/
def State.readable (s : State) : State :=
  { s with wcol := false, clkdiv := none, trace := [], status := if s.pend then s.status else none }

/-! ## Fairness -/

/-- A request that the engine is to answer: any but init, idle and stop (R230). -/
def awaitsAnswer : List Request → Bool
  | .start :: _ => true
  | .send _ :: _ => true
  | .recvAck :: _ => true
  | .recvNack :: _ => true
  | _ => false

/-- A run: at each position an agent moves (20_memory.md R60), or none does and the state rests. So a run that ends (R213), one that hangs (R219), one whose
engine falls silent (42_engine_requests.md R170) and one that a fault stops are all runs (log 27). -/
structure Run (σ : Nat → State) (τ : Nat → Option Turn) : Prop where
  moves : ∀ k t, τ k = some t → Moves t (σ k) (σ (k + 1))
  rests : ∀ k, τ k = none → σ (k + 1) = σ k

/-- Weak fairness of a run (R230): "a sequencer step that stays enabled is eventually taken, and an engine that has been given a request other than init,
idle or stop eventually raises an event for it". A run whose fault ends it owes neither (00_scope.md R9; log 27). A premise of claims of termination, never a
property of the machine (R170). -/
structure WeaklyFair (σ : Nat → State) (τ : Nat → Option Turn) : Prop where
  run     : Run σ τ
  takes   : ∀ k, (∀ j, k ≤ j → (σ j).seqEnabled ∧ (σ j).noFault) → ∃ j, k ≤ j ∧ τ j = some .seq
  answers : ∀ k, (∀ j, k ≤ j → (σ j).noFault) → awaitsAnswer (σ k).trace.reverse = true →
    ∃ j, k ≤ j ∧ ∃ w, τ j = some (.eng w)

end Sys2Proof.Machine
end

