-- ==== Sys2Proof/Certificates/Slice0/Obligations.lean ====
section
/-! DEFINITION. The statements for the provers. Each is a rule of spec/, or follows from rules, said of the machine. `STATUS` is unspecified while
`PEND = 0` (10_state.md R30), so a statement about a step that clears `PEND` leaves its value open. -/

open Sys2Proof Sys2Proof.Machine

/-! ## Encodings -/

/-- Every well-formed instruction that has an encoding is read back from its own bytes, with every operand, under every admissible configuration
(30_encoding.md R73 to R81). -/
def Obligations.EncodeThenDecodeIsIdentity : Prop :=
  ∀ (c : Cfg) (i : Instr) (k : Carrier) (bytes : List Byte),
    c.wf → i.wf c = true → encode c i = some (k, bytes) → decode c k bytes = .ok i

/-- What a decoder accepts is well formed, and encodes to the word it came from; only the data bits of a read, which its format leaves open, are
written 0 (30_encoding.md R75, R79, R82). -/
def Obligations.DecodedInstructionReencodes : Prop :=
  ∀ (c : Cfg) (k : Carrier) (w : Nat) (i : Instr),
    c.wf → decodeWord c k w = .ok i →
      i.wf c = true ∧
      (encodeWord c i = some (k, w) ∨
        (k = .hostAcc ∧ w < 2 ^ (8 + c.hostMap.regBits) ∧ encodeWord c i = some (k, w / 2 ^ 8 * 2 ^ 8)))

/-- 30_encoding.md R75: all 8 bits are compared; a code that equals a named one is that event, any other is `EV_OTHER(code)`; every byte decodes. -/
def Obligations.StatusByteDecodesByItsCode : Prop :=
  ∀ (c : Cfg) (b : Byte), c.wf →
    (∀ e, c.codes.code e = b → decodeStatus c b = eventInstr e) ∧
    ((∀ e, c.codes.code e ≠ b) → decodeStatus c b = .evOther b)

/-- Words written out from the default encodings of R74, R75, R78, R79, R80 decode to their instructions (a sanity statement). That a bare byte is read as an image
where it is one and no named code is, so that `0xA5` is `IMG_START` and not `EV_OTHER`, is the model's choice (log 12): on the STATUS carrier R75 makes it
`EV_OTHER`. -/
def Obligations.SampleWordsDecode : Prop :=
  decodeTableWord 8 0b00001000 = some .evStart ∧
  decodeTableWord 8 0b01011000 = some .evDatarNack ∧
  decodeTableWord 8 0b00001001 = some (.evOther 0x09) ∧
  decodeTableWord 8 0b10100101 = some .imgStart ∧
  decodeTableWord 24 0b10001001000110100 = some (.hwrHbuf 2 0x34) ∧
  decodeTableWord 24 0b00000000100000000 = some .hrdHstat ∧
  decodeTableWord 24 0b10000000000000010 = some .hwrHcmdStart ∧
  decodeTableWord 24 0b00001100000000000 = some (.hostUnmapped false 0x18 0x00) ∧
  decodeTableWord 16 0b0101000011011110 = some (.engRaise 0x50 0xde)

/-- The address byte of 30_encoding.md R71: `addr7` above, the direction in bit 0, nothing lost; the configured value of the direction bit means read. -/
def Obligations.AddressByteHoldsAddressAndDirection : Prop :=
  ∀ (a : BitVec 7) (dir : Bool),
    (addrByte a dir).toNat = 2 * a.toNat + dir.toNat ∧
    addr7Of (addrByte a dir) = a ∧ dirOf (addrByte a dir) = dir ∧
    ∀ c : Cfg, isRead c (addrByte a dir) = true ↔ dir = c.dirRead

/-! ## The step -/

/-- The sequencer's turn (41_sequencer_events.md R130): enabled exactly when `PEND = 1` and `IE = 1`; then the sampled status code is decoded and its
instruction runs. -/
def Obligations.SequencerStepRunsTheSampledEvent : Prop :=
  ∀ (s : State) (ts : List Turn), s.fault = none → s.sched = .seq :: ts →
    (∀ c, s.pend = true → s.ie = true → s.status = some c →
      step s = exec (decodeStatus s.cfg c) { s with sched := ts }) ∧
    (s.pend = false ∨ s.ie = false → step s = .refused .sequencerNotEnabled)

/-- The host's turn (00_scope.md R8; logs 4 and 17 for the model's own fields): the next program word, decoded, or the next call, or the next access
of the call in progress, runs. A word that decodes to a well-formed instruction runs exactly that instruction. -/
def Obligations.HostStepRunsTheNextAccess : Prop :=
  ∀ (s : State) (ts : List Turn), s.fault = none → s.sched = .host :: ts →
    (∀ w rest i, s.call = .idle → s.prog = .access w :: rest → decodeWord s.cfg .hostAcc w = .ok i →
      step s = exec i { s with sched := ts, prog := rest }) ∧
    (∀ c rest, s.call = .idle → s.prog = .call c :: rest →
      step s = exec (callInstr c) { s with sched := ts, prog := rest }) ∧
    (∀ c, s.call = .held c → step s = exec (callInstr c) { s with sched := ts, call := .idle }) ∧
    (∀ a, s.call = .writing [a] → step s = exec (accessInstr s.cfg a) { s with sched := ts, call := .idle }) ∧
    (∀ a b todo, s.call = .writing (a :: b :: todo) →
      step s = exec (accessInstr s.cfg a) { s with sched := ts, call := .writing (b :: todo) }) ∧
    (∀ a todo out, s.call = .reading (a :: todo) out →
      step s = exec (accessInstr s.cfg a) { s with sched := ts, call := .reading todo out }) ∧
    (s.call = .idle → s.prog = [] → step s = .refused .hostHasNoStep)

/-- The engine's turn raises the event of its word, and a control byte on its own runs the image it decodes to or is refused by name (42_engine_requests.md
R168; 30_encoding.md R82; log 13 for the bare control write). -/
def Obligations.EngineAndControlTurnsRunTheirWords : Prop :=
  ∀ (s : State) (ts : List Turn), s.fault = none →
    (∀ code d : Byte, s.sched = .eng (code ++ d) :: ts → step s = exec (.engRaise code d) { s with sched := ts }) ∧
    (∀ b i, s.sched = .ctrl b :: ts → decodeCtrl s.cfg b = .ok i → step s = exec i { s with sched := ts }) ∧
    (∀ b x, s.sched = .ctrl b :: ts → decodeCtrl s.cfg b = .error x → step s = .refused (.noSuchImage b))

/-- A placed table word is what the next step runs (the model's interface to its checker, log 20). -/
def Obligations.PlacedWordRunsNext : Prop :=
  ∀ (s : State) (w : Nat) (i : Instr), s.cfg = Cfg.default →
    (decodeTableWord 24 w = some i →
      step (s.withFetchWord 24 w) = exec i { s with fault := none, call := .idle }) ∧
    (decodeTableWord 16 w = some i →
      step (s.withFetchWord 16 w) = exec i { s with fault := none, pend := false, en := true }) ∧
    (decodeTableWord 8 w = some i →
      step (s.withFetchWord 8 w) =
          exec i { s with fault := none, status := some (BitVec.ofNat 8 w), pend := true, ie := true } ∨
      step (s.withFetchWord 8 w) = exec i { s with fault := none })

/-! ## Faults -/

/-- A fault is sticky and stops the run: no instruction clears `FAULT` (10_state.md R32), and a state that holds a reason has no step but the answer of
that reason (00_scope.md R9; that no step follows is the model's choice, log 2). -/
def Obligations.FaultIsStickyAndEndsTheRun : Prop :=
  (∀ (i : Instr) (s t : State), s.fault ≠ none → exec i s = .next t → t.fault ≠ none) ∧
  (∀ (s : State) (r : Fault), s.fault = some r → step s = .fault r)

/-- `raise` changes nothing else (00_scope.md R9, 60_exceptions.md R184, R186), and each reason comes only from the rules and the conditions that
R189 names for it, but for `UninitialisedRead` where `SIZE` has no value in a sequencer step, which is R35's row of `SIZE` (log 23). The model's choices in it:
no access to a number that does not exist raises `HostAccessWhileBusy`, a read of `HCMD` while busy among them (log 28, against R117); a reserved command while
busy raises it (log 15); an index at or above `CAP` comes before busy, and the cursor's bound before the size (log 24). -/
def Obligations.FaultsComeOnlyFromTheirRules : Prop :=
  ∀ (i : Instr) (s t : State) (r : Fault), s.fault = none → exec i s = .next t → t.fault = some r →
    t = { s with fault := some r } ∧
    match r with
    | .hostAccessWhileBusy =>
      s.ie = true ∧ ((∃ k v, i = .hwrHbuf k v) ∨ (∃ k, i = .hrdHbuf k) ∨ (∃ v, i = .hwrHsize v) ∨ i = .hrdHsize ∨
        i = .hwrHcmdInit ∨ i = .hwrHcmdStart ∨ (∃ v, i = .hwrHcmdReserved v) ∨ i = .init)
    | .sizeOutOfRange v =>
      (v.toNat < 1 ∨ s.cfg.cap < v.toNat) ∧
        ((i = .hwrHcmdStart ∧ s.size = some v) ∨ (∃ bytes, i = .startTransfer bytes v) ∨ i = .getResult v)
    | .uninitialisedRead =>
      (∃ k, i = .hrdHbuf k ∧ s.buf.read k = none) ∨
      (s.size = none ∧ (i = .hrdHsize ∨ i = .hwrHcmdStart ∨ i = .evSlarAck ∨ i = .evDatarAck)) ∨
      ((s.size = none ∨ s.buf.read 0 = none) ∧ (i = .evStart ∨ i = .evRepStart)) ∨
      ((s.size = none ∨ s.buf.read s.cur.toNat = none) ∧ (i = .evSlawAck ∨ i = .evDatawAck))
    | .bufferIndexFault k => k = s.cur.toNat ∧ s.cfg.cap ≤ k ∧ (i = .evDatarAck ∨ i = .evDatarNack)
    | .reservedCommand v => i = .hwrHcmdReserved v
    | .unmappedRegister n =>
      (∃ w v, i = .hostUnmapped w n v) ∨
      (∃ k, s.cfg.cap ≤ k ∧ n = regNumber s.cfg.hostMap (.hbuf k) ∧ ((∃ v, i = .hwrHbuf k v) ∨ i = .hrdHbuf k))

/-- A sequencer step that reads `SIZE` before anything has written it raises `UninitialisedRead` (10_state.md R35), and the whole step is replaced
(60_exceptions.md R184): nothing is stored, no control write is made. -/
def Obligations.UnwrittenSizeStopsTheSequencer : Prop :=
  ∀ (i : Instr) (s : State), s.size = none →
    (i = .evStart ∨ i = .evRepStart ∨ i = .evSlawAck ∨ i = .evDatawAck ∨ i = .evSlarAck ∨
      (i = .evDatarAck ∧ s.cur.toNat < s.cfg.cap)) →
    exec i s = .next { s with fault := some .uninitialisedRead }

/-! ## The control images -/

/-- The five images with one intent, written on their own (42_engine_requests.md R160, R161, R162, R163, R165, R166): every latched field takes the
image's value whatever it held, `PEND` and `WCOL` are cleared by a 1 in `IF` and `WC`, one record joins `TRACE`, and nothing else changes. -/
def Obligations.ControlImagesWriteEveryField : Prop :=
  ∀ s : State,
    exec .imgInit s = .next { s with en := true, ie := false, ea := false, sta := false, sto := false, wcol := false, trace := s.trace ++ [.init] } ∧
    exec .imgIdle s = .next { s with en := true, ie := false, ea := false, sta := false, sto := false, trace := s.trace ++ [.idle] } ∧
    (∃ c, exec .imgStart s = .next { s with en := true, ie := true, ea := false, sta := true, sto := false, pend := false, status := c, trace := s.trace ++ [.start] }) ∧
    (∃ c, exec .imgGoAck s = .next { s with en := true, ie := true, ea := true, sta := false, sto := false, pend := false, status := c, trace := s.trace ++ [.recvAck] }) ∧
    (∃ c, exec .imgStop s = .next { s with en := true, ie := false, ea := false, sta := false, sto := true, pend := false, status := c, trace := s.trace ++ [.stop] })

/-- `IMG_GO` written on its own (42_engine_requests.md R164): the image's fields, and the record of one of its two intents: a send of `DATA` after a START
or an acknowledged write byte, a receive with NACK after an acknowledged read byte, and either where no pending event tells (log 14, the model's choice). -/
def Obligations.GoImageAsksForOneOfTwoThings : Prop :=
  ∀ s : State, ∃ q n st,
    exec .imgGo s = .next { s with en := true, ie := true, ea := false, sta := false, sto := false, pend := false, status := st, draws := n, trace := s.trace ++ [q] } ∧
    (q = .recvNack ∨ ∃ b, q = .send b ∧ (∀ d, s.data = some d → b = d)) ∧
    (∀ c d e, s.pend = true → s.status = some c → s.data = some d → decodeEvent s.cfg.codes c = some e →
      (e = .start ∨ e = .repStart ∨ e = .slawAck ∨ e = .datawAck → q = .send d ∧ n = s.draws) ∧
      (e = .slarAck ∨ e = .datarAck → q = .recvNack ∧ n = s.draws))

/-! ## The sequencer's transitions -/

/-- 41_sequencer_events.md R135, R136: the cursor returns to 0, whatever it was, and `advance_tx` runs with it: the address byte is sent; a cell nothing has
written raises; with a size of 0, which no START command lets through (40_host_interface.md R107), its second branch ends the transfer. -/
def Obligations.StartEventsSendTheAddressByte : Prop :=
  ∀ (i : Instr) (s : State) (n : Byte), i = .evStart ∨ i = .evRepStart → s.size = some n →
    (∀ b, 1 ≤ n.toNat → s.buf.read 0 = some b →
      ∃ c, exec i s = .next { s with
        cur := 1, data := some b, en := true, ie := true, ea := false, sta := false, sto := false, pend := false, status := c,
        trace := s.trace ++ [.send b] }) ∧
    (1 ≤ n.toNat → s.buf.read 0 = none → exec i s = .next { s with fault := some .uninitialisedRead }) ∧
    (n.toNat = 0 →
      ∃ c, exec i s = .next { s with
        cur := 0, ok := true, en := true, ie := false, ea := false, sta := false, sto := true, pend := false, status := c,
        trace := s.trace ++ [.stop] })

/-- 41_sequencer_events.md R137, R138: the next byte of the packet is sent while there is one, and the transfer ends in success when there is none. -/
def Obligations.WriteAcknowledgeSendsOrStops : Prop :=
  ∀ (i : Instr) (s : State) (n : Byte), i = .evSlawAck ∨ i = .evDatawAck → s.size = some n →
    (∀ b, s.cur.toNat < n.toNat → s.buf.read s.cur.toNat = some b →
      (s.cur + 1).toNat = s.cur.toNat + 1 ∧
      ∃ c, exec i s = .next { s with
        cur := s.cur + 1, data := some b, en := true, ie := true, ea := false, sta := false, sto := false, pend := false, status := c,
        trace := s.trace ++ [.send b] }) ∧
    (s.cur.toNat < n.toNat → s.buf.read s.cur.toNat = none →
      exec i s = .next { s with fault := some .uninitialisedRead }) ∧
    (n.toNat ≤ s.cur.toNat →
      ∃ c, exec i s = .next { s with
        ok := true, en := true, ie := false, ea := false, sta := false, sto := true, pend := false, status := c,
        trace := s.trace ++ [.stop] })

/-- 41_sequencer_events.md R140: the next byte is asked for with ACK while more than one is to come, with NACK otherwise; nothing is stored. -/
def Obligations.ReadAddressAcknowledgeRequestsAByte : Prop :=
  ∀ (s : State) (n : Byte), s.size = some n →
    (s.cur.toNat + 1 < n.toNat →
      ∃ c, exec .evSlarAck s = .next { s with
        en := true, ie := true, ea := true, sta := false, sto := false, pend := false, status := c, trace := s.trace ++ [.recvAck] }) ∧
    (n.toNat ≤ s.cur.toNat + 1 →
      ∃ c, exec .evSlarAck s = .next { s with
        en := true, ie := true, ea := false, sta := false, sto := false, pend := false, status := c,
        trace := s.trace ++ [.recvNack] })

/-- 41_sequencer_events.md R139: the byte is stored at the cursor and nowhere else, the cursor advances without wrapping, and the next byte is asked for by
the test on the advanced cursor; a cursor outside the buffer raises, whatever the size. Where `DATA` holds no value the byte is a free one (10_state.md R35). -/
def Obligations.ReceivedByteIsStoredAndTheNextRequested : Prop :=
  ∀ s : State,
    (∀ n : Byte, s.size = some n → s.cfg.cap ≤ 255 → s.cur.toNat < s.cfg.cap →
      ∃ t d, exec .evDatarAck s = .next t ∧
        (∀ b, s.data = some b → d = b ∧ t.draws = s.draws) ∧
        (∀ k, t.buf.read k = if k = s.cur.toNat then some d else s.buf.read k) ∧
        t.cur.toNat = s.cur.toNat + 1 ∧
        t = { s with
          buf := t.buf, cur := t.cur, draws := t.draws, en := true, ie := true,
          ea := decide (s.cur.toNat + 2 < n.toNat), sta := false, sto := false, pend := false, status := t.status,
          trace := s.trace ++ [if s.cur.toNat + 2 < n.toNat then .recvAck else .recvNack] }) ∧
    (s.cfg.cap ≤ s.cur.toNat →
      exec .evDatarAck s = .next { s with fault := some (.bufferIndexFault s.cur.toNat) })

/-- 41_sequencer_events.md R141: the last byte is stored at the cursor, which does not move; success, STOP, not busy. -/
def Obligations.LastReceivedByteEndsTheRead : Prop :=
  ∀ s : State,
    (s.cur.toNat < s.cfg.cap →
      ∃ t d, exec .evDatarNack s = .next t ∧
        (∀ b, s.data = some b → d = b ∧ t.draws = s.draws) ∧
        (∀ k, t.buf.read k = if k = s.cur.toNat then some d else s.buf.read k) ∧
        t = { s with
          buf := t.buf, draws := t.draws, ok := true, en := true, ie := false, ea := false, sta := false, sto := true, pend := false,
          status := t.status,
          trace := s.trace ++ [.stop] }) ∧
    (s.cfg.cap ≤ s.cur.toNat →
      exec .evDatarNack s = .next { s with fault := some (.bufferIndexFault s.cur.toNat) })

/-- 41_sequencer_events.md R142: START is requested again and nothing else changes. -/
def Obligations.ArbitrationLossRequestsStartAgain : Prop :=
  ∀ s : State,
    ∃ c, exec .evArbLost s = .next { s with
      en := true, ie := true, ea := false, sta := true, sto := false, pend := false, status := c, trace := s.trace ++ [.start] }

/-- 41_sequencer_events.md R143 to R147, 60_exceptions.md R181: every failure event records its code and writes the idle image; `PEND` stays, `OK` is not written.
That a named event records its configured code whatever `STATUS` holds is the model's reading of R130, R134 and R181 (log 21); in every step the two agree. -/
def Obligations.FailureEventsRecordTheirCode : Prop :=
  ∀ (i : Instr) (c : Byte) (s : State),
    (i = .evSlawNack ∧ c = s.cfg.codes.slawNack) ∨ (i = .evSlarNack ∧ c = s.cfg.codes.slarNack) ∨
    (i = .evDatawNack ∧ c = s.cfg.codes.datawNack) ∨ (i = .evBusError ∧ c = s.cfg.codes.busError) ∨ i = .evOther c →
    exec i s = .next { s with
      hwstate := some c, en := true, ie := false, ea := false, sta := false, sto := false, trace := s.trace ++ [.idle] }

/-! ## The host's accesses -/

/-- 40_host_interface.md R100: one cell is written and every other cell reads as before; busy, and an index at or above `CAP`, raise (both
together: `ReservedAndUnmappedAccessesRaise`). -/
def Obligations.HostWritesOneCell : Prop :=
  ∀ (s : State) (i : Nat) (v : Byte),
    (i < s.cfg.cap → s.ie = false →
      ∃ t, exec (.hwrHbuf i v) s = .next t ∧
        (∀ k, t.buf.read k = if k = i then some v else s.buf.read k) ∧ t = { s with buf := t.buf }) ∧
    (i < s.cfg.cap → s.ie = true → exec (.hwrHbuf i v) s = .next { s with fault := some .hostAccessWhileBusy }) ∧
    (s.cfg.cap ≤ i → s.ie = false →
      exec (.hwrHbuf i v) s = .next { s with fault := some (.unmappedRegister (regNumber s.cfg.hostMap (.hbuf i))) })

/-- 40_host_interface.md R101: the cell's byte goes back to the program, or to the `get_result` in progress (R115), and no state of the hardware changes;
busy, a cell without a value, and an index at or above `CAP`, raise. -/
def Obligations.HostReadsOneCell : Prop :=
  ∀ (s : State) (i : Nat),
    (∀ v, i < s.cfg.cap → s.ie = false → s.buf.read i = some v →
      ((∀ todo out, s.call ≠ .reading todo out) →
        exec (.hrdHbuf i) s = .next { s with ret := some (.byte v) }) ∧
      (∀ out, s.call = .reading [] out →
        exec (.hrdHbuf i) s = .next { s with call := .idle, ret := some (.result (some (out ++ [v])) true) }) ∧
      (∀ a todo out, s.call = .reading (a :: todo) out →
        exec (.hrdHbuf i) s = .next { s with call := .reading (a :: todo) (out ++ [v]) })) ∧
    (i < s.cfg.cap → s.ie = true → exec (.hrdHbuf i) s = .next { s with fault := some .hostAccessWhileBusy }) ∧
    (i < s.cfg.cap → s.ie = false → s.buf.read i = none →
      exec (.hrdHbuf i) s = .next { s with fault := some .uninitialisedRead }) ∧
    (s.cfg.cap ≤ i →
      exec (.hrdHbuf i) s = .next { s with fault := some (.unmappedRegister (regNumber s.cfg.hostMap (.hbuf i))) })

/-- 40_host_interface.md R102, R103: any byte is stored as the packet size and reads back; busy, and a size nothing has written, raise. -/
def Obligations.HostWritesAndReadsTheSize : Prop :=
  ∀ (s : State) (v : Byte),
    (s.ie = false → exec (.hwrHsize v) s = .next { s with size := some v }) ∧
    (s.ie = false → s.size = some v → exec .hrdHsize s = .next { s with ret := some (.byte v) }) ∧
    (s.ie = false → s.size = none → exec .hrdHsize s = .next { s with fault := some .uninitialisedRead }) ∧
    (s.ie = true → exec (.hwrHsize v) s = .next { s with fault := some .hostAccessWhileBusy }) ∧
    (s.ie = true → exec .hrdHsize s = .next { s with fault := some .hostAccessWhileBusy })

/-- 40_host_interface.md R104: at any time, bit 1 of the byte read is `OK`, bit 0 is `BUSY`, the rest 0; nothing changes. -/
def Obligations.StatusReadShowsBusyAndOk : Prop :=
  ∀ s : State, ∃ v : Byte,
    v.toNat = 2 * s.ok.toNat + s.ie.toNat ∧ exec .hrdHstat s = .next { s with ret := some (.byte v) }

/-- 40_host_interface.md R105, R116: at any time the recorded code is read, by the access and by the call; before the first failure since reset it is any
byte, a free value (log 6). -/
def Obligations.RecordedStateIsReadAtAnyTime : Prop :=
  ∀ (i : Instr) (s : State), i = .hrdHstate ∨ i = .getState →
    (∀ v, s.hwstate = some v → exec i s = .next { s with ret := some (.byte v) }) ∧
    (s.hwstate = none → ∃ v, exec i s = .next { s with ret := some (.byte v), draws := s.draws + 1 })

/-- 40_host_interface.md R106, R111: the INIT command, as an access and as a call: the divisor is written, the controller enabled, `WCOL` cleared, `PEND` kept;
busy raises. A second one adds only its record to `TRACE`. -/
def Obligations.InitConfiguresTheController : Prop :=
  ∀ (i : Instr) (s : State), i = .hwrHcmdInit ∨ i = .init →
    (s.ie = false →
      ∃ t, exec i s = .next t ∧
        t = { s with
          clkdiv := some s.cfg.clkdivInit, en := true, ie := false, ea := false, sta := false, sto := false, wcol := false,
          trace := s.trace ++ [.init] } ∧
        t.initialised ∧
        exec i t = .next { t with trace := t.trace ++ [.init] }) ∧
    (s.ie = true → exec i s = .next { s with fault := some .hostAccessWhileBusy })

/-- 40_host_interface.md R107: the START command: its checks in order, a rejected command changing no state; then the cursor and the success flag are
cleared, `HWSTATE` is kept or set as configured, and the start image is written. -/
def Obligations.StartCommandChecksAndStarts : Prop :=
  ∀ s : State,
    (s.ie = true → exec .hwrHcmdStart s = .next { s with fault := some .hostAccessWhileBusy }) ∧
    (s.ie = false → s.size = none → exec .hwrHcmdStart s = .next { s with fault := some .uninitialisedRead }) ∧
    (∀ n : Byte, s.ie = false → s.size = some n →
      (n.toNat < 1 ∨ s.cfg.cap < n.toNat → exec .hwrHcmdStart s = .next { s with fault := some (.sizeOutOfRange n) }) ∧
      (1 ≤ n.toNat → n.toNat ≤ s.cfg.cap →
        ∃ h c, (s.cfg.hwstateOnStart = .keep → h = s.hwstate) ∧ (∀ v, s.cfg.hwstateOnStart = .set v → h = some v) ∧
          exec .hwrHcmdStart s = .next { s with
            ok := false, cur := 0, hwstate := h, en := true, ie := true, ea := false, sta := true, sto := false, pend := false,
            status := c, trace := s.trace ++ [.start] }))

/-- 40_host_interface.md R109, R110, R117: a reserved command and an access to a number that does not exist raise, with no other effect; a command
while busy raises R117's fault (log 15), and a number that does not exist, a cell at or above `CAP`
(log 24) or `HCMD` read (log 28), raises R110's fault, busy or not. -/
def Obligations.ReservedAndUnmappedAccessesRaise : Prop :=
  ∀ (s : State) (w : Bool) (reg i : Nat) (v : Byte),
    (s.ie = false → exec (.hwrHcmdReserved v) s = .next { s with fault := some (.reservedCommand v) }) ∧
    (s.ie = true → exec (.hwrHcmdReserved v) s = .next { s with fault := some .hostAccessWhileBusy }) ∧
    exec (.hostUnmapped w reg v) s = .next { s with fault := some (.unmappedRegister reg) } ∧
    (s.cfg.cap ≤ i →
      exec (.hwrHbuf i v) s = .next { s with fault := some (.unmappedRegister (regNumber s.cfg.hostMap (.hbuf i))) } ∧
      exec (.hrdHbuf i) s = .next { s with fault := some (.unmappedRegister (regNumber s.cfg.hostMap (.hbuf i))) })

/-! ## The calls -/

/-- 40_host_interface.md R112: `busy()` never holds and never faults, and returns `BUSY`; nothing changes. -/
def Obligations.BusyCallReturnsTheInterruptEnable : Prop :=
  ∀ s : State, exec .busy s = .next { s with ret := some (.flag s.ie) }

/-- The first step of `start_transfer` and `start_transfer_repeat` (40_host_interface.md R113, R114, R118): the size check before any access; while busy the
call is held at its poll; not busy, the accesses that its rule lists remain, in that order; fewer bytes than R113 says are refused (log 16). -/
def Obligations.StartCallsCheckPollAndList : Prop :=
  ∀ (s : State) (bytes : List Byte) (size : Byte),
    (size.toNat < 1 ∨ s.cfg.cap < size.toNat →
      exec (.startTransfer bytes size) s = .next { s with fault := some (.sizeOutOfRange size) }) ∧
    (1 ≤ size.toNat → size.toNat ≤ s.cfg.cap →
      (s.cfg.bytesSuffice bytes size = false → exec (.startTransfer bytes size) s = .refused .tooFewBytes) ∧
      (s.cfg.bytesSuffice bytes size = true →
        (s.ie = true → exec (.startTransfer bytes size) s = .next { s with call := .held (.startTransfer bytes size) }) ∧
        (s.ie = false →
          ∃ cells, exec (.startTransfer bytes size) s =
              .next { s with call := .writing (.wr .hsize size :: (cells ++ [.wr .hcmd 0x02])) } ∧
            cells = (List.range (if isRead s.cfg (bytes.getD 0 0) then 1 else size.toNat)).map
              fun k => .wr (.hbuf k) (bytes.getD k 0)))) ∧
    (s.ie = true → exec .startTransferRepeat s = .next { s with call := .held .startTransferRepeat }) ∧
    (s.ie = false → exec .startTransferRepeat s = .next { s with call := .writing [.wr .hcmd 0x02] })

/-- The first step of `get_result` (40_host_interface.md R115, R118): a size above `CAP` raises before any access; while busy the call is held; not busy, the
reads remain if `OK` is 1, and otherwise, and with nothing to read, the call returns. -/
def Obligations.ResultCallChecksPollsAndReads : Prop :=
  ∀ (s : State) (size : Byte),
    (s.cfg.cap < size.toNat → exec (.getResult size) s = .next { s with fault := some (.sizeOutOfRange size) }) ∧
    (size.toNat ≤ s.cfg.cap →
      (s.ie = true → exec (.getResult size) s = .next { s with call := .held (.getResult size) }) ∧
      (s.ie = false → s.ok = false →
        exec (.getResult size) s = .next { s with call := .idle, ret := some (.result none false) }) ∧
      (s.ie = false → s.ok = true → size = 0 →
        exec (.getResult size) s = .next { s with call := .idle, ret := some (.result (some []) true) }) ∧
      (s.ie = false → s.ok = true → size ≠ 0 →
        exec (.getResult size) s =
          .next { s with call := .reading ((List.range size.toNat).map fun k => .rd (.hbuf k)) [] }))

/-- 40_host_interface.md R118: a held call's poll while busy changes no state, as often as it is made. -/
def Obligations.HeldCallPollsWithoutEffect : Prop :=
  ∀ (s : State) (c : Call) (k : Nat) (ts : List Turn),
    s.fault = none → s.ie = true → s.call = .held c → s.sched = List.replicate k .host ++ ts →
    ((∃ bytes size, c = .startTransfer bytes size ∧ 1 ≤ size.toNat ∧ size.toNat ≤ s.cfg.cap ∧
        s.cfg.bytesSuffice bytes size = true) ∨
      c = .startTransferRepeat ∨ (∃ size, c = .getResult size ∧ size.toNat ≤ s.cfg.cap)) →
    runSteps k s = .next { s with sched := ts }

/-- 40_host_interface.md R113: what `start_transfer` has done when it returns, its host steps taken one after another: the size, the address byte, in the write
direction the payload and in the read direction no other cell, the flags and the request. -/
def Obligations.StartTransferNetEffect : Prop :=
  ∀ (s : State) (bytes : List Byte) (size : Byte) (rest : List HostItem) (ts : List Turn) (k : Nat),
    s.fault = none → s.ie = false → s.call = .idle → s.prog = .call (.startTransfer bytes size) :: rest →
    1 ≤ size.toNat → size.toNat ≤ s.cfg.cap → s.cfg.bytesSuffice bytes size = true →
    k = (if isRead s.cfg (bytes.getD 0 0) then 1 else size.toNat) →
    s.sched = List.replicate (k + 3) .host ++ ts →
    ∃ t, runSteps (k + 3) s = .next t ∧
      (∀ j, t.buf.read j = if j < k then bytes[j]? else s.buf.read j) ∧
      (s.cfg.hwstateOnStart = .keep → t.hwstate = s.hwstate) ∧
      (∀ v, s.cfg.hwstateOnStart = .set v → t.hwstate = some v) ∧
      t = { s with
        buf := t.buf, size := some size, cur := 0, ok := false, hwstate := t.hwstate, en := true, ie := true, ea := false,
        sta := true, sto := false, pend := false, status := t.status, trace := s.trace ++ [.start], sched := ts, prog := rest,
        call := .idle }

/-- 40_host_interface.md R114: what `start_transfer_repeat` has done when it returns: what the START command does (R107), with the buffer and the size as they stand. -/
def Obligations.StartTransferRepeatNetEffect : Prop :=
  ∀ (s : State) (n : Byte) (rest : List HostItem) (ts : List Turn),
    s.fault = none → s.ie = false → s.call = .idle → s.prog = .call .startTransferRepeat :: rest → s.sched = .host :: .host :: ts →
    (s.size = some n → 1 ≤ n.toNat → n.toNat ≤ s.cfg.cap →
      ∃ h c, (s.cfg.hwstateOnStart = .keep → h = s.hwstate) ∧ (∀ v, s.cfg.hwstateOnStart = .set v → h = some v) ∧
        runSteps 2 s = .next { s with
          cur := 0, ok := false, hwstate := h, en := true, ie := true, ea := false, sta := true, sto := false, pend := false,
          status := c, trace := s.trace ++ [.start], sched := ts, prog := rest }) ∧
    (s.size = none → ∃ t, runSteps 2 s = .next t ∧ t = { s with fault := some .uninitialisedRead, sched := ts, prog := rest })

/-- 40_host_interface.md R115: `get_result(size)` after a success returns the cells 0 to `size - 1` in index order, after a failure no bytes; no state of the
hardware changes. -/
def Obligations.GetResultReturnsTheCells : Prop :=
  ∀ (s : State) (size : Byte) (rest : List HostItem) (ts : List Turn),
    s.fault = none → s.ie = false → s.call = .idle → s.prog = .call (.getResult size) :: rest → size.toNat ≤ s.cfg.cap →
    (∀ bytes : List Byte, s.ok = true → s.sched = List.replicate (size.toNat + 1) .host ++ ts →
      bytes.length = size.toNat → (∀ k, k < size.toNat → s.buf.read k = bytes[k]?) →
      runSteps (size.toNat + 1) s =
        .next { s with sched := ts, prog := rest, ret := some (.result (some bytes) true) }) ∧
    (s.ok = false → s.sched = .host :: ts →
      step s = .next { s with sched := ts, prog := rest, ret := some (.result none false) })

/-! ## The engine -/

/-- 42_engine_requests.md R168: the engine's step, under its guard, with an engine that may raise anything, and with any engine whenever it is taken: `STATUS`, `DATA`,
`PEND`, a free `WCOL` (log 7), one record, and nothing else; without the guard it is not enabled. -/
def Obligations.EngineRaisesOneEvent : Prop :=
  ∀ (s : State) (code d : Byte),
    (s.pend = false → s.en = true → s.cfg.engine = .any →
      ∃ wc, exec (.engRaise code d) s = .next { s with
        status := some code, data := some d, pend := true, wcol := wc, draws := s.draws + 1,
        trace := s.trace ++ [.ev code d] }) ∧
    (∀ t, exec (.engRaise code d) s = .next t →
      ∃ wc, t = { s with
        status := some code, data := some d, pend := true, wcol := wc, draws := s.draws + 1,
        trace := s.trace ++ [.ev code d] }) ∧
    (s.pend = true ∨ s.en = false → exec (.engRaise code d) s = .refused .engineNotEnabled)

/-- 42_engine_requests.md R169: which events a conformant engine may raise, row by row of the table, `own` taken from `TRACE`; no other event, and no unrecognized
code. No bus error after init, idle, stop or no request is the model's choice between R169 and R181 (log 29). -/
def Obligations.ConformantEngineFollowsTheTable : Prop :=
  ∀ (s : State) (tr : List Request) (d : Byte) (e : Event),
    s.cfg.wf → s.cfg.engine = .conformant → s.pend = false → s.en = true →
    (s.trace = [] → exec (.engRaise (s.cfg.codes.code e) d) s = .refused .engineOutsideContract) ∧
    (∀ q, s.trace = tr ++ [q] → (q = .init ∨ q = .idle ∨ q = .stop ∨ ∃ c x, q = .ev c x) →
      exec (.engRaise (s.cfg.codes.code e) d) s = .refused .engineOutsideContract) ∧
    (s.trace = tr ++ [.start] →
      ((∃ t, exec (.engRaise (s.cfg.codes.code e) d) s = .next t) ↔
        e = .busError ∨ (e = .start ∧ busOwner s.cfg.codes tr ≠ .held) ∨
          (e = .repStart ∧ busOwner s.cfg.codes tr ≠ .notHeld))) ∧
    (∀ e' x b, s.trace = tr ++ [.ev (s.cfg.codes.code e') x, .send b] →
      (e' = .start ∨ e' = .repStart → isRead s.cfg b = false →
        ((∃ t, exec (.engRaise (s.cfg.codes.code e) d) s = .next t) ↔
          e = .slawAck ∨ e = .slawNack ∨ e = .arbLost ∨ e = .busError)) ∧
      (e' = .start ∨ e' = .repStart → isRead s.cfg b = true →
        ((∃ t, exec (.engRaise (s.cfg.codes.code e) d) s = .next t) ↔
          e = .slarAck ∨ e = .slarNack ∨ e = .arbLost ∨ e = .busError)) ∧
      (e' = .slawAck ∨ e' = .datawAck →
        ((∃ t, exec (.engRaise (s.cfg.codes.code e) d) s = .next t) ↔
          e = .datawAck ∨ e = .datawNack ∨ e = .arbLost ∨ e = .busError))) ∧
    (s.trace = tr ++ [.recvAck] →
      ((∃ t, exec (.engRaise (s.cfg.codes.code e) d) s = .next t) ↔ e = .datarAck ∨ e = .busError)) ∧
    (s.trace = tr ++ [.recvNack] →
      ((∃ t, exec (.engRaise (s.cfg.codes.code e) d) s = .next t) ↔
        e = .datarNack ∨ e = .arbLost ∨ e = .busError)) ∧
    (∀ code, (∀ e', s.cfg.codes.code e' ≠ code) →
      exec (.engRaise code d) s = .refused .engineOutsideContract)

/-- 42_engine_requests.md R169, `own`: true from a START or repeated START, false from a STOP request and from an arbitration loss, unknown from a bus error, and
kept by every other entry of `TRACE`; false in a trace that has none of these (log 25). -/
def Obligations.BusOwnershipFollowsTheTrace : Prop :=
  ∀ (t : StatusCodes) (tr : List Request), (Event.all.map t.code).Nodup →
    busOwner t [] = .notHeld ∧
    (∀ d, busOwner t (tr ++ [.ev t.start d]) = .held) ∧
    (∀ d, busOwner t (tr ++ [.ev t.repStart d]) = .held) ∧
    busOwner t (tr ++ [.stop]) = .notHeld ∧
    (∀ d, busOwner t (tr ++ [.ev t.arbLost d]) = .notHeld) ∧
    (∀ d, busOwner t (tr ++ [.ev t.busError d]) = .unknown) ∧
    (∀ q, q ≠ .stop →
      (∀ c d, q = .ev c d → c ≠ t.start ∧ c ≠ t.repStart ∧ c ≠ t.arbLost ∧ c ≠ t.busError) →
      busOwner t (tr ++ [q]) = busOwner t tr)

/-! ## Reset -/

/-- 10_state.md R35, 70_reset_and_hazards.md R210: what reset leaves, for every configuration, and that afterwards neither the sequencer nor the engine has a step. -/
def Obligations.ResetLeavesTheBlockIdle : Prop :=
  ∀ (c : Cfg) (s : State), s = State.resetWith c →
    s.cur = 0 ∧ s.ok = false ∧ s.en = false ∧ s.ie = false ∧ s.ea = false ∧ s.sta = false ∧ s.sto = false ∧
    s.pend = false ∧ s.wcol = false ∧ s.fault = none ∧ s.trace = [] ∧
    (∀ i, s.buf.read i = none) ∧ s.size = none ∧ s.hwstate = none ∧ s.data = none ∧ s.status = none ∧
    s.clkdivSet = false ∧
    runTurn .seq s = .refused .sequencerNotEnabled ∧
    (∀ w, runTurn (.eng w) s = .refused .engineNotEnabled)

/-! ## Invariants -/

/-- Every step of the agents keeps the invariant, with any engine: I3 and I4 of 10_state.md R33, the bounds of R20, R22 and R51, the size checked at R107, the canonical
form of the buffer, and the pending event's code and data (R27). -/
def Obligations.AgentStepsKeepTheInvariant : Prop :=
  ∀ s t : State, s.Inv → s.agentsOnly → step s = .next t → t.Inv ∧ t.agentsOnly

/-- The invariant holds at reset, for every admissible configuration. -/
def Obligations.ResetMeetsTheInvariant : Prop :=
  ∀ c : Cfg, c.wf → (State.resetWith c).Inv ∧ (State.resetWith c).agentsOnly ∧ State.reset.Inv

/-- Every step of the agents with a conformant engine keeps the stronger invariant: I2, the cursor never exceeds the packet size while a transfer is in flight
(10_state.md R33, 42_engine_requests.md R169), and the newest request fits the cursor. -/
def Obligations.ConformantStepsKeepTheCursorInPacket : Prop :=
  ∀ s t : State, s.ConformantInv → s.agentsOnly → step s = .next t → t.ConformantInv ∧ t.agentsOnly

/-- It holds at reset for every admissible configuration with a conformant engine. -/
def Obligations.ResetMeetsTheConformantInvariant : Prop :=
  ∀ c : Cfg, c.wf → c.engine = .conformant → (State.resetWith c).ConformantInv

/-- Whatever the host's program and the interleaving, with a conformant engine the cursor stays in the packet while a transfer is in flight, `BUSY` and `OK` are never both
1, and no buffer index fault occurs (10_state.md R33, 42_engine_requests.md R169). -/
def Obligations.ConformantRunsNeverLeaveTheBuffer : Prop :=
  ∀ (c : Cfg) (prog : List HostItem) (s : State), c.wf → c.engine = .conformant → Reachable c prog s →
    (∀ n, s.ie = true → s.size = some n → s.cur.toNat ≤ n.toNat) ∧
    (s.ie = true → s.ok = false) ∧
    (∀ i, s.fault ≠ some (.bufferIndexFault i))

/-! ## Whole-machine rules -/

/-- Only a START command makes the block busy (40_host_interface.md R117, 42_engine_requests.md R163): of the agents' turns, only the host's raises `IE`, and it leaves the state
that the command leaves. -/
def Obligations.OnlyTheStartCommandMakesBusy : Prop :=
  ∀ (t : Turn) (s u : State), t.isAgent = true → runTurn t s = .next u → s.ie = false → u.ie = true →
    t = .host ∧ u.ok = false ∧ u.cur = 0 ∧ u.sta = true ∧ u.sto = false ∧ u.pend = false ∧
    u.trace = s.trace ++ [.start] ∧ ∃ n, u.size = some n ∧ 1 ≤ n.toNat ∧ n.toNat ≤ u.cfg.cap

/-- 41_sequencer_events.md R149: only a sequencer step ends a transfer, by success with the STOP requested, or by failure with the sampled code recorded and the event left
pending. -/
def Obligations.OnlyTerminalSequencerStepsEndBusy : Prop :=
  ∀ (t : Turn) (s u : State), t.isAgent = true → s.Inv → runTurn t s = .next u → s.ie = true → u.ie = false →
    t = .seq ∧ u.sta = false ∧ u.ea = false ∧ u.buf.wf ∧
    ((u.ok = true ∧ u.sto = true ∧ u.pend = false ∧ u.hwstate = s.hwstate ∧ u.trace = s.trace ++ [.stop]) ∨
      (u.ok = false ∧ u.sto = false ∧ u.pend = true ∧ u.hwstate = s.status ∧ u.buf = s.buf ∧ u.cur = s.cur ∧
        u.trace = s.trace ++ [.idle]))

/-- The host's column of the access matrix (10_state.md R34) and its side of the lock (20_memory.md R61): what a host step leaves alone always, and that while busy it changes no
state of the hardware. -/
def Obligations.HostStepsRespectTheLock : Prop :=
  ∀ s u : State, runTurn .host s = .next u →
    u.data = s.data ∧ (u.status = s.status ∨ u.pend = false) ∧ u.cfg = s.cfg ∧ u.sched = s.sched ∧
    (u.cur = s.cur ∨ u.cur = 0) ∧ (u.ok = s.ok ∨ u.ok = false) ∧
    (s.cfg.hwstateOnStart = .keep → u.hwstate = s.hwstate) ∧
    (u.pend = true → s.pend = true) ∧ (u.wcol = true → s.wcol = true) ∧
    (s.ie = true →
      u = { s with fault := u.fault, draws := u.draws, prog := u.prog, call := u.call, ret := u.ret })

/-- The sequencer's column of the access matrix (10_state.md R34): it never touches the packet size, the status register (but that it is unspecified once no event is
pending, R30), the collision flag, the divisor or the host, it writes no
cell but the one at the cursor, and each of its steps makes exactly one control write (41_sequencer_events.md R130). -/
def Obligations.SequencerStepsTouchOnlyTheirState : Prop :=
  ∀ s u : State, runTurn .seq s = .next u → s.fault = none →
    (∃ b a n, u = { s with
      buf := b, cur := a, ok := u.ok, hwstate := u.hwstate, en := u.en, ie := u.ie, ea := u.ea, sta := u.sta,
      sto := u.sto, pend := u.pend, data := u.data, status := u.status, fault := u.fault, draws := n, trace := u.trace }) ∧
    (u.status = s.status ∨ u.pend = false) ∧
    (∀ k, k ≠ s.cur.toNat → u.buf.read k = s.buf.read k) ∧
    (u.fault = none → ∃ q, u.trace = s.trace ++ [q] ∧ ∀ code d, q ≠ .ev code d) ∧
    (u.fault ≠ none → u.trace = s.trace ∧ u.buf = s.buf)

/-- The engine's column of the access matrix (10_state.md R34, 42_engine_requests.md R168): "The engine writes nothing else in the block". -/
def Obligations.EngineStepsTouchOnlyThePort : Prop :=
  ∀ (w : BitVec 16) (s u : State), runTurn (.eng w) s = .next u →
    s.pend = false ∧ s.en = true ∧ u.pend = true ∧ u.status = some (w.extractLsb' 8 8) ∧ u.data = some (w.extractLsb' 0 8) ∧
    u.trace = s.trace ++ [.ev (w.extractLsb' 8 8) (w.extractLsb' 0 8)] ∧
    u = { s with
      status := u.status, data := u.data, pend := u.pend, wcol := u.wcol, draws := u.draws, trace := u.trace }

/-- No instruction changes the configuration (00_scope.md R5), and each adds at most one entry to `TRACE`, after those it holds (10_state.md R32). -/
def Obligations.InstructionsKeepConfigurationAndTrace : Prop :=
  ∀ (i : Instr) (s t : State), exec i s = .next t →
    t.cfg = s.cfg ∧ t.sched = s.sched ∧ t.prog = s.prog ∧ (t.trace = s.trace ∨ ∃ q, t.trace = s.trace ++ [q])

/-- No rule reads `WCOL`, `CLKDIV`, `TRACE`, or `STATUS` while `PEND = 0` (10_state.md R28, R30, R31, R32): with an unconstrained engine, two states that agree on everything else
answer every turn of an agent alike, and agree again after it. -/
def Obligations.UnreadStateChangesNoOutcome : Prop :=
  ∀ (t : Turn) (s₁ s₂ : State), t.isAgent = true → s₁.cfg.engine = .any → s₁.readable = s₂.readable →
    (∀ u₁, runTurn t s₁ = .next u₁ → ∃ u₂, runTurn t s₂ = .next u₂ ∧ u₁.readable = u₂.readable) ∧
    (∀ r, runTurn t s₁ = .refused r → runTurn t s₂ = .refused r) ∧
    (∀ r, runTurn t s₁ ≠ .fault r)

/-- 70_reset_and_hazards.md R230, what weak fairness gives a transfer in flight: in a fault-free fair run from reset, of any host program, with any engine and any
interleaving, a busy block is always served again by a sequencer step. (That the transfer ends does not follow: arbitration retries are unbounded, R225.) -/
def Obligations.FairRunsServeABusyBlock : Prop :=
  ∀ (c : Cfg) (prog : List HostItem) (σ : Nat → State) (τ : Nat → Option Turn),
    WeaklyFair σ τ → σ 0 = { State.resetWith c with prog := prog } → (∀ k, (σ k).noFault) →
    ∀ k, (σ k).busy = true → ∃ j, k ≤ j ∧ τ j = some .seq

/-- 60_exceptions.md R188, what a failure leaves behind for the next transfer: not busy, so a start call passes its poll at once; the event still pending; no request
in the control register; the buffer and the cursor as they were; and the next START command is accepted and clears the pending event and the cursor. -/
def Obligations.FailureLeavesTheNextStartClean : Prop :=
  ∀ (i : Instr) (c : Byte) (s t : State) (n : Byte),
    i = .evSlawNack ∨ i = .evSlarNack ∨ i = .evDatawNack ∨ i = .evBusError ∨ i = .evOther c →
    s.size = some n → 1 ≤ n.toNat → n.toNat ≤ s.cfg.cap → exec i s = .next t →
    t.ie = false ∧ t.pend = s.pend ∧ t.sta = false ∧ t.sto = false ∧ t.ea = false ∧ t.buf = s.buf ∧ t.cur = s.cur ∧
    exec .startTransferRepeat t = .next { t with call := .writing [.wr .hcmd 0x02] } ∧
    ∃ u, exec .hwrHcmdStart t = .next u ∧ u.ie = true ∧ u.ok = false ∧ u.cur = 0 ∧ u.pend = false ∧ u.buf = s.buf ∧
      u.fault = s.fault ∧ (s.cfg.hwstateOnStart = .keep → u.hwstate = t.hwstate)

/-! ## Whole transfers -/

/-- 41_sequencer_events.md R150: a whole write transfer whose every byte is acknowledged: the packet's bytes are sent in index order, the requests are those of the rule, and the
transfer ends in success with the buffer unchanged. -/
def Obligations.WriteTransferSendsThePacket : Prop :=
  ∀ (s : State) (n : Byte) (x d : Nat → Byte) (ts : List Turn) (tr : List Request),
    s.Inv → s.fault = none → s.ie = true → s.pend = false → s.size = some n →
    s.trace = tr ++ [.start] → (s.cfg.engine = .any ∨ busOwner s.cfg.codes tr ≠ .held) →
    (∀ k, k < n.toNat → s.buf.read k = some (x k)) → isRead s.cfg (x 0) = false →
    s.sched =
      engTurn s.cfg .start (d 0) :: .seq ::
        ((List.range n.toNat).flatMap fun k =>
          [engTurn s.cfg (if k = 0 then .slawAck else .datawAck) (d (k + 1)), .seq]) ++ ts →
    ∃ t, runSteps (2 * (n.toNat + 1)) s = .next t ∧
      t.trace = s.trace ++ [.ev (s.cfg.codes.code .start) (d 0)] ++
        ((List.range n.toNat).flatMap fun k =>
          [.send (x k), .ev (s.cfg.codes.code (if k = 0 then .slawAck else .datawAck)) (d (k + 1))]) ++ [.stop] ∧
      t = { s with
        cur := n, ok := true, ie := false, ea := false, sta := false, sto := true, pend := false, data := t.data,
        status := t.status, wcol := t.wcol, draws := t.draws, trace := t.trace, sched := ts }

/-- 41_sequencer_events.md R151: a whole read transfer from a target that answers: the received bytes land in cells 1 on, in the order they came, every one but the last is asked
for with ACK, and the transfer ends in success. A packet of one byte goes as a packet of two does, and its byte lands in cell 1, outside the packet (70_reset_and_hazards.md
R217). -/
def Obligations.ReadTransferFillsThePacket : Prop :=
  ∀ (s : State) (n : Byte) (b x : Byte) (d : Nat → Byte) (ts : List Turn) (tr : List Request) (m : Nat),
    s.Inv → s.fault = none → s.ie = true → s.pend = false → s.size = some n →
    s.trace = tr ++ [.start] → (s.cfg.engine = .any ∨ busOwner s.cfg.codes tr ≠ .held) →
    s.buf.read 0 = some b → isRead s.cfg b = true → m = max n.toNat 2 →
    s.sched =
      engTurn s.cfg .start x :: .seq :: engTurn s.cfg .slarAck x :: .seq ::
        ((List.range (m - 2)).flatMap fun k => [engTurn s.cfg .datarAck (d (k + 1)), .seq]) ++
        (engTurn s.cfg .datarNack (d (m - 1)) :: .seq :: ts) →
    ∃ t, runSteps (2 * (m + 1)) s = .next t ∧
      (∀ k, t.buf.read k = if 1 ≤ k ∧ k < m then some (d k) else s.buf.read k) ∧
      t.cur.toNat = m - 1 ∧
      t.trace = s.trace ++
        [.ev (s.cfg.codes.code .start) x, .send b, .ev (s.cfg.codes.code .slarAck) x] ++
        ((List.range (m - 2)).flatMap fun k => [.recvAck, .ev (s.cfg.codes.code .datarAck) (d (k + 1))]) ++
        [.recvNack, .ev (s.cfg.codes.code .datarNack) (d (m - 1)), .stop] ∧
      t = { s with
        buf := t.buf, cur := t.cur, ok := true, ie := false, ea := false, sta := false, sto := true, pend := false,
        data := t.data, status := t.status, wcol := t.wcol, draws := t.draws, trace := t.trace, sched := ts }

/-- 41_sequencer_events.md R151, the whole exchange as the host sees it: `start_transfer` for a read, a target that answers, and `get_result` of the same size: success, and
the address byte followed by the bytes that came off the wire; for a packet of one byte, the address byte only. -/
def Obligations.ReadExchangeReturnsTheBytes : Prop :=
  ∀ (s : State) (n b x : Byte) (bytes : List Byte) (d : Nat → Byte) (rest : List HostItem) (ts : List Turn) (m : Nat),
    s.Inv → s.fault = none → s.ie = false → s.call = .idle →
    s.prog = .call (.startTransfer (b :: bytes) n) :: .call (.getResult n) :: rest →
    1 ≤ n.toNat → n.toNat ≤ s.cfg.cap → isRead s.cfg b = true → m = max n.toNat 2 →
    (s.cfg.engine = .any ∨ busOwner s.cfg.codes s.trace ≠ .held) →
    s.sched =
      List.replicate 4 .host ++
        (engTurn s.cfg .start x :: .seq :: engTurn s.cfg .slarAck x :: .seq ::
          ((List.range (m - 2)).flatMap fun k => [engTurn s.cfg .datarAck (d (k + 1)), .seq]) ++
          (engTurn s.cfg .datarNack (d (m - 1)) :: .seq :: (List.replicate (n.toNat + 1) .host ++ ts))) →
    ∃ t, runSteps (4 + 2 * (m + 1) + (n.toNat + 1)) s = .next t ∧
      t.ret = some (.result (some (b :: (List.range (n.toNat - 1)).map fun k => d (k + 1))) true) ∧
      t.ok = true ∧ t.ie = false ∧ t.fault = none ∧ t.call = .idle ∧ t.prog = rest ∧ t.sched = ts

/-- 41_sequencer_events.md R142, 60_exceptions.md R182: an arbitration loss in mid-transfer is retried from the address byte with no gap in `BUSY` and nothing recorded: after the START
that follows it, the block's registers are those of a transfer just started. -/
def Obligations.ArbitrationRetryRestartsThePacket : Prop :=
  ∀ (s : State) (b x y : Byte) (ts : List Turn),
    s.Inv → s.fault = none → s.ie = true → s.pend = false → s.cfg.engine = .any → s.buf.read 0 = some b →
    s.sched = engTurn s.cfg .arbLost x :: .seq :: engTurn s.cfg .start y :: .seq :: ts →
    (∀ k u, k ≤ 4 → runSteps k s = .next u → u.ie = true ∧ u.ok = false ∧ u.hwstate = s.hwstate ∧ u.buf = s.buf) ∧
    ∃ t, runSteps 4 s = .next t ∧
      t = { s with
        cur := 1, data := some b, status := t.status, wcol := t.wcol, draws := t.draws, sched := ts,
        ea := false, sta := false, sto := false,
        trace := s.trace ++
          [.ev (s.cfg.codes.code .arbLost) x, .start, .ev (s.cfg.codes.code .start) y, .send b] }
end

