-- ==== Sys2Proof/Laws/State.lean ====
section
/-! SUPPORT. One lemma for each field under each named update of the state, all true by rfl, so that no later proof unfolds a record update. -/

namespace Sys2Proof.Machine

/-! ## raise -/

@[simp] theorem State.raise_cfg (s : State) (r : Fault) : (s.raise r).cfg = s.cfg := rfl
@[simp] theorem State.raise_buf (s : State) (r : Fault) : (s.raise r).buf = s.buf := rfl
@[simp] theorem State.raise_size (s : State) (r : Fault) : (s.raise r).size = s.size := rfl
@[simp] theorem State.raise_cur (s : State) (r : Fault) : (s.raise r).cur = s.cur := rfl
@[simp] theorem State.raise_ok (s : State) (r : Fault) : (s.raise r).ok = s.ok := rfl
@[simp] theorem State.raise_hwstate (s : State) (r : Fault) : (s.raise r).hwstate = s.hwstate := rfl
@[simp] theorem State.raise_en (s : State) (r : Fault) : (s.raise r).en = s.en := rfl
@[simp] theorem State.raise_ie (s : State) (r : Fault) : (s.raise r).ie = s.ie := rfl
@[simp] theorem State.raise_ea (s : State) (r : Fault) : (s.raise r).ea = s.ea := rfl
@[simp] theorem State.raise_sta (s : State) (r : Fault) : (s.raise r).sta = s.sta := rfl
@[simp] theorem State.raise_sto (s : State) (r : Fault) : (s.raise r).sto = s.sto := rfl
@[simp] theorem State.raise_pend (s : State) (r : Fault) : (s.raise r).pend = s.pend := rfl
@[simp] theorem State.raise_wcol (s : State) (r : Fault) : (s.raise r).wcol = s.wcol := rfl
@[simp] theorem State.raise_data (s : State) (r : Fault) : (s.raise r).data = s.data := rfl
@[simp] theorem State.raise_status (s : State) (r : Fault) : (s.raise r).status = s.status := rfl
@[simp] theorem State.raise_clkdiv (s : State) (r : Fault) : (s.raise r).clkdiv = s.clkdiv := rfl
@[simp] theorem State.raise_fault (s : State) (r : Fault) : (s.raise r).fault = some r := rfl
@[simp] theorem State.raise_trace (s : State) (r : Fault) : (s.raise r).trace = s.trace := rfl
@[simp] theorem State.raise_draws (s : State) (r : Fault) : (s.raise r).draws = s.draws := rfl
@[simp] theorem State.raise_sched (s : State) (r : Fault) : (s.raise r).sched = s.sched := rfl
@[simp] theorem State.raise_prog (s : State) (r : Fault) : (s.raise r).prog = s.prog := rfl
@[simp] theorem State.raise_call (s : State) (r : Fault) : (s.raise r).call = s.call := rfl
@[simp] theorem State.raise_ret (s : State) (r : Fault) : (s.raise r).ret = s.ret := rfl

/-! ## ctrl_write -/

@[simp] theorem State.ctrlWrite_cfg (s : State) (m : CtrlImage) (q : Request) : (s.ctrlWrite m q).cfg = s.cfg := rfl
@[simp] theorem State.ctrlWrite_buf (s : State) (m : CtrlImage) (q : Request) : (s.ctrlWrite m q).buf = s.buf := rfl
@[simp] theorem State.ctrlWrite_size (s : State) (m : CtrlImage) (q : Request) : (s.ctrlWrite m q).size = s.size := rfl
@[simp] theorem State.ctrlWrite_cur (s : State) (m : CtrlImage) (q : Request) : (s.ctrlWrite m q).cur = s.cur := rfl
@[simp] theorem State.ctrlWrite_ok (s : State) (m : CtrlImage) (q : Request) : (s.ctrlWrite m q).ok = s.ok := rfl
@[simp] theorem State.ctrlWrite_hwstate (s : State) (m : CtrlImage) (q : Request) : (s.ctrlWrite m q).hwstate = s.hwstate := rfl
@[simp] theorem State.ctrlWrite_en (s : State) (m : CtrlImage) (q : Request) : (s.ctrlWrite m q).en = m.en := rfl
@[simp] theorem State.ctrlWrite_ie (s : State) (m : CtrlImage) (q : Request) : (s.ctrlWrite m q).ie = m.ie := rfl
@[simp] theorem State.ctrlWrite_ea (s : State) (m : CtrlImage) (q : Request) : (s.ctrlWrite m q).ea = m.ea := rfl
@[simp] theorem State.ctrlWrite_sta (s : State) (m : CtrlImage) (q : Request) : (s.ctrlWrite m q).sta = m.sta := rfl
@[simp] theorem State.ctrlWrite_sto (s : State) (m : CtrlImage) (q : Request) : (s.ctrlWrite m q).sto = m.sto := rfl
@[simp] theorem State.ctrlWrite_pend (s : State) (m : CtrlImage) (q : Request) : (s.ctrlWrite m q).pend = (s.pend && !m.ifl) := rfl
@[simp] theorem State.ctrlWrite_wcol (s : State) (m : CtrlImage) (q : Request) : (s.ctrlWrite m q).wcol = (s.wcol && !m.wc) := rfl
@[simp] theorem State.ctrlWrite_data (s : State) (m : CtrlImage) (q : Request) : (s.ctrlWrite m q).data = s.data := rfl
@[simp] theorem State.ctrlWrite_status (s : State) (m : CtrlImage) (q : Request) : (s.ctrlWrite m q).status = if m.ifl then none else s.status := rfl
@[simp] theorem State.ctrlWrite_clkdiv (s : State) (m : CtrlImage) (q : Request) : (s.ctrlWrite m q).clkdiv = s.clkdiv := rfl
@[simp] theorem State.ctrlWrite_fault (s : State) (m : CtrlImage) (q : Request) : (s.ctrlWrite m q).fault = s.fault := rfl
@[simp] theorem State.ctrlWrite_trace (s : State) (m : CtrlImage) (q : Request) : (s.ctrlWrite m q).trace = s.trace ++ [q] := rfl
@[simp] theorem State.ctrlWrite_draws (s : State) (m : CtrlImage) (q : Request) : (s.ctrlWrite m q).draws = s.draws := rfl
@[simp] theorem State.ctrlWrite_sched (s : State) (m : CtrlImage) (q : Request) : (s.ctrlWrite m q).sched = s.sched := rfl
@[simp] theorem State.ctrlWrite_prog (s : State) (m : CtrlImage) (q : Request) : (s.ctrlWrite m q).prog = s.prog := rfl
@[simp] theorem State.ctrlWrite_call (s : State) (m : CtrlImage) (q : Request) : (s.ctrlWrite m q).call = s.call := rfl
@[simp] theorem State.ctrlWrite_ret (s : State) (m : CtrlImage) (q : Request) : (s.ctrlWrite m q).ret = s.ret := rfl

/-! ## what the host is given back -/

@[simp] theorem State.returned_cfg (s : State) (r : Returned) : (s.returned r).cfg = s.cfg := rfl
@[simp] theorem State.returned_buf (s : State) (r : Returned) : (s.returned r).buf = s.buf := rfl
@[simp] theorem State.returned_size (s : State) (r : Returned) : (s.returned r).size = s.size := rfl
@[simp] theorem State.returned_cur (s : State) (r : Returned) : (s.returned r).cur = s.cur := rfl
@[simp] theorem State.returned_ok (s : State) (r : Returned) : (s.returned r).ok = s.ok := rfl
@[simp] theorem State.returned_hwstate (s : State) (r : Returned) : (s.returned r).hwstate = s.hwstate := rfl
@[simp] theorem State.returned_en (s : State) (r : Returned) : (s.returned r).en = s.en := rfl
@[simp] theorem State.returned_ie (s : State) (r : Returned) : (s.returned r).ie = s.ie := rfl
@[simp] theorem State.returned_ea (s : State) (r : Returned) : (s.returned r).ea = s.ea := rfl
@[simp] theorem State.returned_sta (s : State) (r : Returned) : (s.returned r).sta = s.sta := rfl
@[simp] theorem State.returned_sto (s : State) (r : Returned) : (s.returned r).sto = s.sto := rfl
@[simp] theorem State.returned_pend (s : State) (r : Returned) : (s.returned r).pend = s.pend := rfl
@[simp] theorem State.returned_wcol (s : State) (r : Returned) : (s.returned r).wcol = s.wcol := rfl
@[simp] theorem State.returned_data (s : State) (r : Returned) : (s.returned r).data = s.data := rfl
@[simp] theorem State.returned_status (s : State) (r : Returned) : (s.returned r).status = s.status := rfl
@[simp] theorem State.returned_clkdiv (s : State) (r : Returned) : (s.returned r).clkdiv = s.clkdiv := rfl
@[simp] theorem State.returned_fault (s : State) (r : Returned) : (s.returned r).fault = s.fault := rfl
@[simp] theorem State.returned_trace (s : State) (r : Returned) : (s.returned r).trace = s.trace := rfl
@[simp] theorem State.returned_draws (s : State) (r : Returned) : (s.returned r).draws = s.draws := rfl
@[simp] theorem State.returned_sched (s : State) (r : Returned) : (s.returned r).sched = s.sched := rfl
@[simp] theorem State.returned_prog (s : State) (r : Returned) : (s.returned r).prog = s.prog := rfl
@[simp] theorem State.returned_call (s : State) (r : Returned) : (s.returned r).call = s.call := rfl
@[simp] theorem State.returned_ret (s : State) (r : Returned) : (s.returned r).ret = some r := rfl

/-! ## fail -/

@[simp] theorem State.fail_cfg (s : State) (c : Byte) : (s.fail c).cfg = s.cfg := rfl
@[simp] theorem State.fail_buf (s : State) (c : Byte) : (s.fail c).buf = s.buf := rfl
@[simp] theorem State.fail_size (s : State) (c : Byte) : (s.fail c).size = s.size := rfl
@[simp] theorem State.fail_cur (s : State) (c : Byte) : (s.fail c).cur = s.cur := rfl
@[simp] theorem State.fail_ok (s : State) (c : Byte) : (s.fail c).ok = s.ok := rfl
@[simp] theorem State.fail_hwstate (s : State) (c : Byte) : (s.fail c).hwstate = some c := rfl
@[simp] theorem State.fail_en (s : State) (c : Byte) : (s.fail c).en = true := rfl
@[simp] theorem State.fail_ie (s : State) (c : Byte) : (s.fail c).ie = false := rfl
@[simp] theorem State.fail_ea (s : State) (c : Byte) : (s.fail c).ea = false := rfl
@[simp] theorem State.fail_sta (s : State) (c : Byte) : (s.fail c).sta = false := rfl
@[simp] theorem State.fail_sto (s : State) (c : Byte) : (s.fail c).sto = false := rfl
@[simp] theorem State.fail_pend (s : State) (c : Byte) : (s.fail c).pend = (s.pend && true) := rfl
@[simp] theorem State.fail_wcol (s : State) (c : Byte) : (s.fail c).wcol = (s.wcol && true) := rfl
@[simp] theorem State.fail_data (s : State) (c : Byte) : (s.fail c).data = s.data := rfl
@[simp] theorem State.fail_status (s : State) (c : Byte) : (s.fail c).status = s.status := rfl
@[simp] theorem State.fail_clkdiv (s : State) (c : Byte) : (s.fail c).clkdiv = s.clkdiv := rfl
@[simp] theorem State.fail_fault (s : State) (c : Byte) : (s.fail c).fault = s.fault := rfl
@[simp] theorem State.fail_trace (s : State) (c : Byte) : (s.fail c).trace = s.trace ++ [.idle] := rfl
@[simp] theorem State.fail_draws (s : State) (c : Byte) : (s.fail c).draws = s.draws := rfl
@[simp] theorem State.fail_sched (s : State) (c : Byte) : (s.fail c).sched = s.sched := rfl
@[simp] theorem State.fail_prog (s : State) (c : Byte) : (s.fail c).prog = s.prog := rfl
@[simp] theorem State.fail_call (s : State) (c : Byte) : (s.fail c).call = s.call := rfl
@[simp] theorem State.fail_ret (s : State) (c : Byte) : (s.fail c).ret = s.ret := rfl

/-! ## the INIT command -/

@[simp] theorem State.initCommand_cfg (s : State) : (s.initCommand).cfg = s.cfg := rfl
@[simp] theorem State.initCommand_buf (s : State) : (s.initCommand).buf = s.buf := rfl
@[simp] theorem State.initCommand_size (s : State) : (s.initCommand).size = s.size := rfl
@[simp] theorem State.initCommand_cur (s : State) : (s.initCommand).cur = s.cur := rfl
@[simp] theorem State.initCommand_ok (s : State) : (s.initCommand).ok = s.ok := rfl
@[simp] theorem State.initCommand_hwstate (s : State) : (s.initCommand).hwstate = s.hwstate := rfl
@[simp] theorem State.initCommand_en (s : State) : (s.initCommand).en = true := rfl
@[simp] theorem State.initCommand_ie (s : State) : (s.initCommand).ie = false := rfl
@[simp] theorem State.initCommand_ea (s : State) : (s.initCommand).ea = false := rfl
@[simp] theorem State.initCommand_sta (s : State) : (s.initCommand).sta = false := rfl
@[simp] theorem State.initCommand_sto (s : State) : (s.initCommand).sto = false := rfl
@[simp] theorem State.initCommand_pend (s : State) : (s.initCommand).pend = (s.pend && true) := rfl
@[simp] theorem State.initCommand_wcol (s : State) : (s.initCommand).wcol = (s.wcol && false) := rfl
@[simp] theorem State.initCommand_data (s : State) : (s.initCommand).data = s.data := rfl
@[simp] theorem State.initCommand_status (s : State) : (s.initCommand).status = s.status := rfl
@[simp] theorem State.initCommand_clkdiv (s : State) : (s.initCommand).clkdiv = some s.cfg.clkdivInit := rfl
@[simp] theorem State.initCommand_fault (s : State) : (s.initCommand).fault = s.fault := rfl
@[simp] theorem State.initCommand_trace (s : State) : (s.initCommand).trace = s.trace ++ [.init] := rfl
@[simp] theorem State.initCommand_draws (s : State) : (s.initCommand).draws = s.draws := rfl
@[simp] theorem State.initCommand_sched (s : State) : (s.initCommand).sched = s.sched := rfl
@[simp] theorem State.initCommand_prog (s : State) : (s.initCommand).prog = s.prog := rfl
@[simp] theorem State.initCommand_call (s : State) : (s.initCommand).call = s.call := rfl
@[simp] theorem State.initCommand_ret (s : State) : (s.initCommand).ret = s.ret := rfl

/-! ## the START command -/

@[simp] theorem State.startCommand_cfg (s : State) : (s.startCommand).cfg = s.cfg := rfl
@[simp] theorem State.startCommand_buf (s : State) : (s.startCommand).buf = s.buf := rfl
@[simp] theorem State.startCommand_size (s : State) : (s.startCommand).size = s.size := rfl
@[simp] theorem State.startCommand_cur (s : State) : (s.startCommand).cur = 0 := rfl
@[simp] theorem State.startCommand_ok (s : State) : (s.startCommand).ok = false := rfl
@[simp] theorem State.startCommand_hwstate (s : State) : (s.startCommand).hwstate = hwstateAfterStart s := rfl
@[simp] theorem State.startCommand_en (s : State) : (s.startCommand).en = true := rfl
@[simp] theorem State.startCommand_ie (s : State) : (s.startCommand).ie = true := rfl
@[simp] theorem State.startCommand_ea (s : State) : (s.startCommand).ea = false := rfl
@[simp] theorem State.startCommand_sta (s : State) : (s.startCommand).sta = true := rfl
@[simp] theorem State.startCommand_sto (s : State) : (s.startCommand).sto = false := rfl
@[simp] theorem State.startCommand_pend (s : State) : (s.startCommand).pend = (s.pend && false) := rfl
@[simp] theorem State.startCommand_wcol (s : State) : (s.startCommand).wcol = (s.wcol && true) := rfl
@[simp] theorem State.startCommand_data (s : State) : (s.startCommand).data = s.data := rfl
@[simp] theorem State.startCommand_status (s : State) : (s.startCommand).status = none := rfl
@[simp] theorem State.startCommand_clkdiv (s : State) : (s.startCommand).clkdiv = s.clkdiv := rfl
@[simp] theorem State.startCommand_fault (s : State) : (s.startCommand).fault = s.fault := rfl
@[simp] theorem State.startCommand_trace (s : State) : (s.startCommand).trace = s.trace ++ [.start] := rfl
@[simp] theorem State.startCommand_draws (s : State) : (s.startCommand).draws = s.draws := rfl
@[simp] theorem State.startCommand_sched (s : State) : (s.startCommand).sched = s.sched := rfl
@[simp] theorem State.startCommand_prog (s : State) : (s.startCommand).prog = s.prog := rfl
@[simp] theorem State.startCommand_call (s : State) : (s.startCommand).call = s.call := rfl
@[simp] theorem State.startCommand_ret (s : State) : (s.startCommand).ret = s.ret := rfl

end Sys2Proof.Machine
end

