-- ==== Sys2Proof/Laws/Decode.lean ====
section
/-! SUPPORT. The decoders and encoders: small facts about codes, images, access words and byte lists. -/

namespace Sys2Proof

/-! ## Status codes -/

theorem Event.mem_all (e : Event) : e ∈ Event.all := by cases e <;> decide

theorem decodeEvent_some {t : StatusCodes} {b : Byte} {e : Event} (h : decodeEvent t b = some e) : t.code e = b := by
  simpa using List.find?_some h

theorem decodeEvent_none {t : StatusCodes} {b : Byte} (h : decodeEvent t b = none) (e : Event) : t.code e ≠ b := by
  have := List.find?_eq_none.mp h e (Event.mem_all e)
  simpa using this

theorem code_injective {t : StatusCodes} (h : (Event.all.map t.code).Nodup) {e f : Event} (hc : t.code e = t.code f) :
    e = f :=
  List.inj_on_of_nodup_map h (Event.mem_all e) (Event.mem_all f) hc

/-- With injective codes, an event's code decodes to that event (R75). -/
theorem decodeEvent_code {t : StatusCodes} (h : (Event.all.map t.code).Nodup) (e : Event) :
    decodeEvent t (t.code e) = some e := by
  cases hd : decodeEvent t (t.code e) with
  | none => exact absurd rfl (decodeEvent_none hd e)
  | some f => rw [code_injective h (decodeEvent_some hd)]

theorem decodeEvent_eq_none {t : StatusCodes} {b : Byte} (h : ∀ e, t.code e ≠ b) : decodeEvent t b = none := by
  cases hd : decodeEvent t b with
  | none => rfl
  | some e => exact absurd (decodeEvent_some hd) (h e)

theorem decodeStatus_code {c : Cfg} (h : c.wf) (e : Event) : decodeStatus c (c.codes.code e) = eventInstr e := by
  rw [decodeStatus, decodeEvent_code h.2.2.1]

theorem decodeStatus_other {c : Cfg} {b : Byte} (h : ∀ e, c.codes.code e ≠ b) : decodeStatus c b = .evOther b := by
  rw [decodeStatus, decodeEvent_eq_none h]

/-! ## Control images -/

theorem ctrlBit_getLsbD (p : Fin 8) (b : Bool) (i : Fin 8) : (ctrlBit p b).getLsbD i = (b && decide (i = p)) := by
  cases b <;> revert p i <;> decide

/-- Under distinct positions, the bit at a field's position is that field. -/
theorem ctrlByte_injective {l : CtrlLayout} (h : l.positions.Nodup) {m k : CtrlImage}
    (he : ctrlByte l m = ctrlByte l k) : m = k := by
  have hb : ∀ i : Fin 8, (ctrlByte l m).getLsbD i = (ctrlByte l k).getLsbD i := fun i => by rw [he]
  simp only [CtrlLayout.positions, List.nodup_cons, List.mem_cons, not_or, List.not_mem_nil, not_false_eq_true,
    and_true, List.nodup_nil] at h
  simp only [ctrlByte, BitVec.getLsbD_or, ctrlBit_getLsbD] at hb
  obtain ⟨⟨a1, a2, a3, a4, a5, a6⟩, ⟨b2, b3, b4, b5, b6⟩, ⟨c3, c4, c5, c6⟩, ⟨d4, d5, d6⟩, ⟨e5, e6⟩, f6⟩ := h
  have h1 := hb l.ifl
  have h2 := hb l.ea
  have h3 := hb l.sta
  have h4 := hb l.sto
  have h5 := hb l.wc
  have h6 := hb l.en
  have h7 := hb l.ie
  simp only [a1, a2, a3, a4, a5, a6, decide_true, decide_false, Bool.and_true, Bool.and_false, Bool.or_false] at h1
  simp only [b2, b3, b4, b5, b6, Ne.symm a1, decide_true, decide_false, Bool.and_true, Bool.and_false, Bool.or_false,
    Bool.false_or] at h2
  simp only [c3, c4, c5, c6, Ne.symm a2, Ne.symm b2, decide_true, decide_false, Bool.and_true, Bool.and_false,
    Bool.or_false, Bool.false_or] at h3
  simp only [d4, d5, d6, Ne.symm a3, Ne.symm b3, Ne.symm c3, decide_true, decide_false, Bool.and_true, Bool.and_false,
    Bool.or_false, Bool.false_or] at h4
  simp only [e5, e6, Ne.symm a4, Ne.symm b4, Ne.symm c4, Ne.symm d4, decide_true, decide_false, Bool.and_true,
    Bool.and_false, Bool.or_false, Bool.false_or] at h5
  simp only [f6, Ne.symm a5, Ne.symm b5, Ne.symm c5, Ne.symm d5, Ne.symm e5, decide_true, decide_false, Bool.and_true,
    Bool.and_false, Bool.or_false, Bool.false_or] at h6
  simp only [Ne.symm a6, Ne.symm b6, Ne.symm c6, Ne.symm d6, Ne.symm e6, Ne.symm f6, decide_true, decide_false,
    Bool.and_true, Bool.and_false, Bool.or_false, Bool.false_or] at h7
  cases m
  cases k
  simp only [CtrlImage.mk.injEq]
  exact ⟨h1, h2, h3, h4, h5, h6, h7⟩

/-! ## Byte lists -/

@[simp] theorem bytesOfWord_length (n w : Nat) : (bytesOfWord n w).length = n := by
  induction n generalizing w with
  | zero => rfl
  | succ n ih => simp [bytesOfWord, ih]

/-- The bytes of a word that fits them give the word back. -/
theorem wordOfBytes_bytesOfWord (n w : Nat) (h : w < 2 ^ (8 * n)) : wordOfBytes (bytesOfWord n w) = w := by
  induction n generalizing w with
  | zero => simp [bytesOfWord, wordOfBytes] at *; omega
  | succ n ih =>
    have : w / 2 ^ 8 < 2 ^ (8 * n) := by
      rw [Nat.div_lt_iff_lt_mul (by decide)]
      calc w < 2 ^ (8 * (n + 1)) := h
        _ = 2 ^ (8 * n) * 2 ^ 8 := by rw [← Nat.pow_add]; ring_nf
    rw [bytesOfWord, wordOfBytes, ih _ this]
    simp only [BitVec.toNat_ofNat]
    omega

/-! ## The engine's word -/

theorem extractLsb'_append_high (a b : Byte) : (a ++ b).extractLsb' 8 8 = a := by
  apply BitVec.eq_of_getLsbD_eq
  intro i hi
  have h := BitVec.getLsbD_append (x := a) (y := b) (i := 8 + i)
  rw [if_neg (by omega), Nat.add_sub_cancel_left] at h
  rw [BitVec.getLsbD_extractLsb', decide_eq_true hi, Bool.true_and]
  exact h

theorem extractLsb'_append_low (a b : Byte) : (a ++ b).extractLsb' 0 8 = b := by
  apply BitVec.eq_of_getLsbD_eq
  intro i hi
  have h := BitVec.getLsbD_append (x := a) (y := b) (i := i)
  rw [if_pos hi] at h
  rw [BitVec.getLsbD_extractLsb', decide_eq_true hi, Bool.true_and, Nat.zero_add]
  exact h

/-! ## Access words -/

/-- The parts of an access word whose number fits. -/
theorem accessWord_parts (m : HostMap) (w : Bool) (reg : Nat) (val : Byte) (h : reg < 2 ^ m.regBits) :
    accessWord m w reg val < 2 ^ (9 + m.regBits) ∧
    decide (2 ^ (8 + m.regBits) ≤ accessWord m w reg val) = w ∧
    accessWord m w reg val / 2 ^ 8 % 2 ^ m.regBits = reg ∧
    BitVec.ofNat 8 (accessWord m w reg val) = val := by
  have hv := val.isLt
  have h9 : 2 ^ (9 + m.regBits) = 2 * (2 ^ 8 * 2 ^ m.regBits) := by ring
  have h8 : 2 ^ (8 + m.regBits) = 2 ^ 8 * 2 ^ m.regBits := Nat.pow_add ..
  have hdiv : accessWord m w reg val / 2 ^ 8 = reg + 2 ^ m.regBits * w.toNat := by
    unfold accessWord
    rw [h8, show val.toNat + 2 ^ 8 * reg + 2 ^ 8 * 2 ^ m.regBits * w.toNat
      = val.toNat + 2 ^ 8 * (reg + 2 ^ m.regBits * w.toNat) by ring, Nat.add_mul_div_left _ _ (by decide)]
    omega
  refine ⟨?_, ?_, ?_, ?_⟩
  · unfold accessWord; rw [h9, h8]; cases w <;> (simp; omega)
  · unfold accessWord
    rw [h8]
    cases w
    · simp; omega
    · simp
  · rw [hdiv, Nat.add_mul_mod_self_left, Nat.mod_eq_of_lt h]
  · apply BitVec.eq_of_toNat_eq
    unfold accessWord
    rw [h8]
    simp only [BitVec.toNat_ofNat]
    rw [show val.toNat + 2 ^ 8 * reg + 2 ^ 8 * 2 ^ m.regBits * w.toNat
      = val.toNat + 2 ^ 8 * (reg + 2 ^ m.regBits * w.toNat) by ring, Nat.add_mul_mod_self_left, Nat.mod_eq_of_lt hv]

/-- A host access by its number decodes as the triple it was made from. -/
theorem decodeHostAcc_accessWord (c : Cfg) (w : Bool) (reg : Nat) (val : Byte) (h : reg < 2 ^ c.hostMap.regBits) :
    decodeHostAcc c (accessWord c.hostMap w reg val) = .ok (decodeAccess c w reg val) := by
  obtain ⟨h1, h2, h3, h4⟩ := accessWord_parts c.hostMap w reg val h
  rw [decodeHostAcc, if_pos h1, h2, h3, h4]

/-- The number of a cell that exists is the map's entry for it. -/
theorem regNumber_cell {c : Cfg} (h : c.wf) {i : Nat} (hi : i < c.cap) :
    ∃ hj : i < (c.hostMap.cells c.cap).length, (c.hostMap.cells c.cap)[i] = regNumber c.hostMap (.hbuf i) := by
  have hl : (c.hostMap.cells c.cap).length = c.cap := h.2.2.2.2.1
  refine ⟨Nat.lt_of_lt_of_eq hi hl.symm, ?_⟩
  have hb : i < c.hostMap.hbuf.length := by simp only [List.length_take] at hl; omega
  simp [regNumber, List.getD_eq_getElem?_getD, List.getElem?_eq_getElem hb]

/-- Under an admissible map every register is found at its number (R79). -/
theorem regNamed_regNumber {c : Cfg} (h : c.wf) (r : HostReg) (hr : ∀ i, r = .hbuf i → i < c.cap) :
    regNamed c (regNumber c.hostMap r) = some r ∧ regNumber c.hostMap r < 2 ^ c.hostMap.regBits := by
  have hcell := fun i => regNumber_cell h (i := i)
  obtain ⟨-, -, -, -, -, hn, hf⟩ := h
  simp only [List.forall_mem_cons] at hf
  simp only [List.nodup_cons, List.mem_cons, not_or] at hn
  obtain ⟨⟨a1, a2, a3, m1⟩, ⟨a4, a5, m2⟩, ⟨a6, m3⟩, m4, hnd⟩ := hn
  obtain ⟨b1, b2, b3, b4, b5⟩ := hf
  cases r with
  | hcmd => simp [regNamed, regNumber, b1]
  | hstat => simp [regNamed, regNumber, b2, Ne.symm a1]
  | hstate => simp [regNamed, regNumber, b3, Ne.symm a2, Ne.symm a4]
  | hsize => simp [regNamed, regNumber, b4, Ne.symm a3, Ne.symm a5, Ne.symm a6]
  | hbuf i =>
    obtain ⟨hj, he⟩ := hcell i (hr i rfl)
    have hm : regNumber c.hostMap (.hbuf i) ∈ c.hostMap.cells c.cap := he ▸ List.getElem_mem hj
    have hx : (c.hostMap.cells c.cap).idxOf? (regNumber c.hostMap (.hbuf i)) = some i :=
      List.idxOf?_eq_some_iff.mpr ⟨hj, he, fun j hji hjj =>
        absurd ((List.Nodup.getElem_inj_iff hnd).mp (hjj.trans he.symm)) (by omega)⟩
    refine ⟨?_, b5 _ hm⟩
    have hne : ∀ k, k ∉ c.hostMap.cells c.cap → regNumber c.hostMap (.hbuf i) ≠ k := fun k hk e => hk (e ▸ hm)
    rw [regNamed, if_neg (hne _ m1), if_neg (hne _ m2), if_neg (hne _ m3), if_neg (hne _ m4), hx]
    rfl

/-- A register found at a number has that number, and is a cell that exists if it is a cell (R79). -/
theorem regNumber_of_regNamed {c : Cfg} (h : c.wf) {n : Nat} {r : HostReg} (hn : regNamed c n = some r) :
    regNumber c.hostMap r = n ∧ ∀ i, r = .hbuf i → i < c.cap := by
  unfold regNamed at hn
  split_ifs at hn with h1 h2 h3 h4 <;> try (cases hn; exact ⟨by simp [regNumber, *], nofun⟩)
  obtain ⟨i, hi, rfl⟩ := Option.map_eq_some_iff.mp hn
  obtain ⟨hj, he, -⟩ := List.idxOf?_eq_some_iff.mp hi
  have hl : i < c.cap := h.2.2.2.2.1 ▸ hj
  have hk := (regNumber_cell h hl).2
  exact ⟨hk.symm.trans he, fun j hj => by cases hj; exact hl⟩

end Sys2Proof
end

