-- ==== Sys2Proof/Laws/Memory.lean ====
section
/-! SUPPORT. The transfer buffer: read after write, the canonical form, and the bound. -/

namespace Sys2Proof.Machine

@[simp] theorem Memory.read_nil (a : Nat) : Memory.read [] a = none := rfl

theorem Memory.read_cons (b : Nat) (w : Byte) (m : Memory) (a : Nat) :
    Memory.read ((b, w) :: m) a = if a = b then some w else Memory.read m a := rfl

/-- A cell below every listed index holds no value. -/
theorem Memory.read_eq_none_of_lt {m : Memory} {a : Nat} (h : ∀ x ∈ m, a < x.1) : m.read a = none := by
  induction m with
  | nil => rfl
  | cons x m ih =>
    have hx := h x (by simp)
    have hm := ih fun y hy => h y (by simp [hy])
    obtain ⟨b, w⟩ := x
    rw [Memory.read_cons, if_neg (by simp at hx; omega), hm]

/-- Reading any cell after a write: the value written at that cell, and every other cell as before. -/
theorem Memory.read_write (m : Memory) (a : Nat) (v : Byte) (b : Nat) :
    (m.write a v).read b = if b = a then some v else m.read b := by
  induction m with
  | nil => simp [Memory.write, Memory.read_cons]
  | cons x m ih =>
    obtain ⟨c, w⟩ := x
    unfold Memory.write
    split
    · simp [Memory.read_cons]
    · split
      · next h => subst h; by_cases hb : b = a <;> simp [Memory.read_cons, hb]
      · next h1 h2 =>
        rw [Memory.read_cons, Memory.read_cons, ih]
        by_cases hb : b = a
        · subst hb; simp [h2]
        · simp [hb]

theorem Memory.read_write_same (m : Memory) (a : Nat) (v : Byte) : (m.write a v).read a = some v := by
  simp [Memory.read_write]

theorem Memory.read_write_of_ne (m : Memory) {a b : Nat} (v : Byte) (h : b ≠ a) :
    (m.write a v).read b = m.read b := by
  simp [Memory.read_write, h]

/-- What a write leaves listed: the cell written, and the cells that were listed. -/
theorem Memory.mem_write {m : Memory} {a : Nat} {v : Byte} {x : Host.Cell} (h : x ∈ m.write a v) :
    x = (a, v) ∨ x ∈ m := by
  induction m with
  | nil => simpa [Memory.write] using h
  | cons y m ih =>
    obtain ⟨c, w⟩ := y
    unfold Memory.write at h
    split at h
    · simpa using h
    · split at h
      · simp only [List.mem_cons] at h ⊢
        exact h.imp id .inr
      · simp only [List.mem_cons] at h ⊢
        rcases h with h | h
        · exact .inr (.inl h)
        · exact (ih h).imp id .inr

/-- A write keeps the canonical form. -/
theorem Memory.write_wf {m : Memory} (h : m.wf) (a : Nat) (v : Byte) : (m.write a v).wf := by
  induction m with
  | nil => simp [Memory.write, Memory.wf]
  | cons x m ih =>
    obtain ⟨c, w⟩ := x
    have hx := List.pairwise_cons.mp h
    unfold Memory.write
    split
    · next hlt =>
      refine List.pairwise_cons.mpr ⟨fun y hy => ?_, h⟩
      rcases List.mem_cons.mp hy with rfl | hy
      · exact hlt
      · have := hx.1 y hy; simp at this ⊢; omega
    · split
      · next heq => subst heq; exact List.pairwise_cons.mpr ⟨hx.1, hx.2⟩
      · next h1 h2 =>
        refine List.pairwise_cons.mpr ⟨fun y hy => ?_, ih hx.2⟩
        rcases Memory.mem_write hy with rfl | hy
        · simp; omega
        · exact hx.1 y hy

/-- A write inside a bound keeps every listed cell inside it. -/
theorem Memory.write_bound {m : Memory} {n a : Nat} (h : ∀ x ∈ m, x.1 < n) (ha : a < n) (v : Byte) :
    ∀ x ∈ m.write a v, x.1 < n := by
  intro x hx
  rcases Memory.mem_write hx with rfl | hx
  · exact ha
  · exact h x hx

/-- Equal memories are equal data: two canonical lists that read alike are one. -/
theorem Memory.ext_of_wf {m k : Memory} (hm : m.wf) (hk : k.wf) (h : ∀ a, m.read a = k.read a) : m = k := by
  induction m generalizing k with
  | nil =>
    cases k with
    | nil => rfl
    | cons y k => have := h y.1; simp [Memory.read] at this
  | cons x m ih =>
    cases k with
    | nil => have := h x.1; simp [Memory.read] at this
    | cons y k =>
      have hx := List.pairwise_cons.mp hm
      have hy := List.pairwise_cons.mp hk
      obtain ⟨a, v⟩ := x
      obtain ⟨b, w⟩ := y
      have hab : a = b := by
        rcases Nat.lt_trichotomy a b with hlt | heq | hgt
        · have h1 := h a
          rw [Memory.read_cons, if_pos rfl, Memory.read_eq_none_of_lt] at h1
          · cases h1
          · intro z hz
            rcases List.mem_cons.mp hz with rfl | hz
            · exact hlt
            · exact Nat.lt_trans hlt (hy.1 z hz)
        · exact heq
        · have h1 := h b
          rw [Memory.read_cons b, if_pos rfl, Memory.read_eq_none_of_lt] at h1
          · cases h1
          · intro z hz
            rcases List.mem_cons.mp hz with rfl | hz
            · exact hgt
            · exact Nat.lt_trans hgt (hx.1 z hz)
      subst hab
      have hv : v = w := by simpa [Memory.read_cons] using h a
      subst hv
      congr 1
      refine ih hx.2 hy.2 fun c => ?_
      by_cases hc : c = a
      · subst hc
        rw [Memory.read_eq_none_of_lt hx.1, Memory.read_eq_none_of_lt hy.1]
      · simpa [Memory.read_cons, hc] using h c

end Sys2Proof.Machine
end

