-- ==== Sys2Proof/Laws/Ops.lean ====
section
/-! SUPPORT. One lemma for each shared operation, saying once everything it can do. -/

namespace Sys2Proof.Machine

@[simp] theorem State.pollBusy_eq (s : State) : s.pollBusy = s.ie := by
  cases hi : s.ie <;> cases ho : s.ok <;> simp [State.pollBusy, State.hstatByte, hi, ho]

@[simp] theorem State.pollOk_eq (s : State) : s.pollOk = s.ok := by
  cases hi : s.ie <;> cases ho : s.ok <;> simp [State.pollOk, State.hstatByte, hi, ho]

theorem State.hstatByte_toNat (s : State) : s.hstatByte.toNat = 2 * s.ok.toNat + s.ie.toNat := by
  cases hi : s.ie <;> cases ho : s.ok <;> simp [State.hstatByte, hi, ho]

/-- A register that holds a byte gives it; one that holds none gives a free byte and counts the draw. -/
theorem orDraw_cases (o : Option Byte) (s : State) :
    (∃ b, o = some b ∧ orDraw o s = (b, s)) ∨
    (o = none ∧ ∃ b, orDraw o s = (b, { s with draws := s.draws + 1 })) := by
  cases o with
  | none => exact .inr ⟨rfl, _, rfl⟩
  | some b => exact .inl ⟨b, rfl, rfl⟩

/-- In both cases only the count of draws can change. -/
theorem orDraw_frame (o : Option Byte) (s : State) :
    ∃ b n, orDraw o s = (b, { s with draws := n }) ∧ (∀ v, o = some v → b = v ∧ n = s.draws) := by
  rcases orDraw_cases o s with ⟨b, rfl, h⟩ | ⟨rfl, b, h⟩
  · exact ⟨b, s.draws, h, fun v hv => by simp_all⟩
  · exact ⟨b, _, h, by simp⟩

/-- A committed body ends in its own state, or in the state before it with the reason recorded. -/
theorem commit_cases {s t : State} {body : Except Fault State} (h : commit s body = .next t) :
    body = .ok t ∨ ∃ r, body = .error r ∧ t = s.raise r := by
  cases body with
  | ok u => exact .inl (by simpa [commit] using h)
  | error r => exact .inr ⟨r, rfl, by simpa [commit, raised] using h.symm⟩

theorem commit_next (s : State) (body : Except Fault State) : ∃ t, commit s body = .next t := by
  cases body with
  | ok u => exact ⟨u, rfl⟩
  | error r => exact ⟨s.raise r, rfl⟩

/-- `advance_tx` (R132): no size, no byte, a byte sent, or the end of the packet. -/
theorem advanceTx_cases (s : State) :
    (s.size = none ∧ advanceTx s = .error .uninitialisedRead) ∨
    (∃ n, s.size = some n ∧ s.cur.toNat < n.toNat ∧ s.buf.read s.cur.toNat = none ∧
      advanceTx s = .error .uninitialisedRead) ∨
    (∃ n b, s.size = some n ∧ s.cur.toNat < n.toNat ∧ s.buf.read s.cur.toNat = some b ∧
      advanceTx s = .ok { s with
        data := some b, cur := s.cur + 1, en := true, ie := true, ea := false, sta := false, sto := false, pend := false, status := none,
        trace := s.trace ++ [.send b] }) ∨
    (∃ n, s.size = some n ∧ n.toNat ≤ s.cur.toNat ∧
      advanceTx s = .ok { s with
        ok := true, en := true, ie := false, ea := false, sta := false, sto := true, pend := false, status := none,
        trace := s.trace ++ [.stop] }) := by
  cases hs : s.size with
  | none => exact .inl ⟨rfl, by simp [advanceTx, hs]⟩
  | some n =>
    by_cases hn : s.cur.toNat < n.toNat
    · cases hb : s.buf.read s.cur.toNat with
      | none => exact .inr (.inl ⟨n, rfl, hn, rfl, by simp [advanceTx, hs, moreToSend, hn, hb]⟩)
      | some b =>
        refine .inr (.inr (.inl ⟨n, b, rfl, hn, rfl, ?_⟩))
        simp [advanceTx, hs, moreToSend, hn, hb, State.ctrlWrite, imageGo]
    · refine .inr (.inr (.inr ⟨n, rfl, by omega, ?_⟩))
      simp [advanceTx, hs, moreToSend, hn, State.ctrlWrite, imageStop]

/-- `rx_request` (R133): no size, a byte asked for with ACK, or the last byte asked for with NACK. -/
theorem rxRequest_cases (s : State) :
    (s.size = none ∧ rxRequest s = .error .uninitialisedRead) ∨
    (∃ n, s.size = some n ∧ s.cur.toNat + 1 < n.toNat ∧
      rxRequest s = .ok { s with
        en := true, ie := true, ea := true, sta := false, sto := false, pend := false, status := none, trace := s.trace ++ [.recvAck] }) ∨
    (∃ n, s.size = some n ∧ n.toNat ≤ s.cur.toNat + 1 ∧
      rxRequest s = .ok { s with
        en := true, ie := true, ea := false, sta := false, sto := false, pend := false, status := none,
        trace := s.trace ++ [.recvNack] }) := by
  cases hs : s.size with
  | none => exact .inl ⟨rfl, by simp [rxRequest, hs]⟩
  | some n =>
    by_cases hn : s.cur.toNat + 1 < n.toNat
    · refine .inr (.inl ⟨n, rfl, hn, ?_⟩)
      have : s.cur.toNat < n.toNat - 1 := by omega
      simp [rxRequest, hs, moreToReceive, this, State.ctrlWrite, imageGoAck]
    · refine .inr (.inr ⟨n, rfl, by omega, ?_⟩)
      have : ¬ s.cur.toNat < n.toNat - 1 := by omega
      simp [rxRequest, hs, moreToReceive, this, State.ctrlWrite, imageGo]

/-- The store of a received byte (R51, R139, R141): in the buffer's bounds, or a fault. -/
theorem storeReceived_cases (s : State) :
    (s.cfg.cap ≤ s.cur.toNat ∧ storeReceived s = .error (.bufferIndexFault s.cur.toNat)) ∨
    (s.cur.toNat < s.cfg.cap ∧ ∃ d n, (∀ v, s.data = some v → d = v ∧ n = s.draws) ∧
      storeReceived s = .ok { s with buf := s.buf.write s.cur.toNat d, draws := n }) := by
  by_cases h : s.cur.toNat < s.cfg.cap
  · obtain ⟨d, n, hd, hv⟩ := orDraw_frame s.data s
    exact .inr ⟨h, d, n, hv, by simp [storeReceived, h, hd]⟩
  · exact .inl ⟨by omega, by simp [storeReceived, h]⟩

/-- `fail(c)` (R134). -/
theorem State.fail_eq (s : State) (c : Byte) :
    s.fail c = { s with
      hwstate := some c, en := true, ie := false, ea := false, sta := false, sto := false,
      trace := s.trace ++ [.idle] } := by
  simp [State.fail, State.ctrlWrite, imageIdle]

/-- The INIT command's effect (R106). -/
theorem State.initCommand_eq (s : State) :
    s.initCommand = { s with
      clkdiv := some s.cfg.clkdivInit, en := true, ie := false, ea := false, sta := false, sto := false, wcol := false,
      trace := s.trace ++ [.init] } := by
  simp [State.initCommand, State.ctrlWrite, imageInit]

/-- The START command's effect (R107). -/
theorem State.startCommand_eq (s : State) :
    s.startCommand = { s with
      ok := false, cur := 0, hwstate := hwstateAfterStart s, en := true, ie := true, ea := false, sta := true, sto := false,
      pend := false, status := none, trace := s.trace ++ [.start] } := by
  simp [State.startCommand, State.ctrlWrite, imageStart]

/-- A cell given back to the host changes only the call in progress and what was returned. -/
theorem State.returnCell_frame (s : State) (v : Byte) : ∃ c r, s.returnCell v = { s with call := c, ret := r } := by
  unfold State.returnCell State.returned
  split
  · exact ⟨_, _, rfl⟩
  · exact ⟨_, s.ret, rfl⟩
  · exact ⟨s.call, _, rfl⟩

/-- An access to shared state: the fault of R117 while busy, its own effect otherwise. -/
theorem whenNotBusy_cases (s : State) (r : Result) :
    (s.ie = true ∧ whenNotBusy s r = raised s .hostAccessWhileBusy) ∨ (s.ie = false ∧ whenNotBusy s r = r) := by
  cases h : s.ie <;> simp [whenNotBusy, h]

/-- An access to a cell: its own effect below `CAP`, the fault of R110 otherwise. -/
theorem whenCellExists_cases (s : State) (i : Nat) (r : Result) :
    (i < s.cfg.cap ∧ whenCellExists s i r = r) ∨
    (s.cfg.cap ≤ i ∧ whenCellExists s i r = raised s (.unmappedRegister (regNumber s.cfg.hostMap (.hbuf i)))) := by
  by_cases h : i < s.cfg.cap
  · exact .inl ⟨h, by simp [whenCellExists, h]⟩
  · exact .inr ⟨by omega, by simp [whenCellExists, h]⟩

theorem sizeLegal_iff (c : Cfg) (n : Byte) : sizeLegal c n = true ↔ 1 ≤ n.toNat ∧ n.toNat ≤ c.cap := by
  simp [sizeLegal]

/-- The writes that `start_transfer` makes after its poll (R113), cell by cell. -/
theorem payloadWrites_eq (bs : List Byte) (i : Nat) :
    payloadWrites i bs = (List.range bs.length).map fun k => .wr (.hbuf (i + k)) (bs.getD k 0) := by
  induction bs generalizing i with
  | nil => rfl
  | cons b bs ih =>
    rw [payloadWrites, ih, List.length_cons, List.range_succ_eq_map, List.map_cons, List.map_map]
    simp [Function.comp_def, Nat.add_assoc, Nat.add_comm 1]

/-- Too few bytes for `start_transfer`: no list of accesses (R113, log 16). -/
theorem startWrites_of_not_suffice {c : Cfg} {bytes : List Byte} {size : Byte} (h : c.bytesSuffice bytes size = false) :
    startWrites c bytes size = none := by
  cases bytes with
  | nil => rfl
  | cons b rest =>
    simp only [Cfg.bytesSuffice, Bool.or_eq_false_iff, decide_eq_false_iff_not, not_le] at h
    have hr : isRead c b = false := h.1
    simp only [startWrites]
    rw [if_neg (by simp [hr]), if_pos h.2]

/-- The accesses of `start_transfer` after its poll (R113): the size, the first cell, in the write direction the other cells of the packet, the START command. -/
theorem startWrites_of_suffice {c : Cfg} {bytes : List Byte} {size : Byte} (h1 : 1 ≤ size.toNat)
    (h : c.bytesSuffice bytes size = true) :
    startWrites c bytes size = some (.wr .hsize size ::
      ((List.range (if isRead c (bytes.getD 0 0) then 1 else size.toNat)).map
        (fun k => Access.wr (.hbuf k) (bytes.getD k 0)) ++ [.wr .hcmd 0x02])) := by
  cases bytes with
  | nil => simp [Cfg.bytesSuffice] at h
  | cons b rest =>
    simp only [Cfg.bytesSuffice, Bool.or_eq_true, decide_eq_true_eq] at h
    by_cases hr : isRead c b = true
    · simp [startWrites, hr]
    · have hl : size.toNat ≤ rest.length + 1 := h.resolve_left hr
      have hn : ¬ (rest.length + 1 < size.toNat) := by omega
      simp only [startWrites, hr, if_false, List.length_cons, hn, List.getD_cons_zero]
      obtain ⟨m, hm⟩ : ∃ m, size.toNat = m + 1 := ⟨size.toNat - 1, by omega⟩
      rw [hm, payloadWrites_eq, if_neg (by simp), if_neg (by simp), List.range_succ_eq_map]
      simp
      rw [Nat.min_eq_left (by omega)]
      apply List.map_congr_left
      intro a ha
      simp at ha
      simp [ha, Nat.add_comm]

end Sys2Proof.Machine
end

