-- ==== Sys2Proof/Laws/PerInstr.lean ====
section
/-! SUPPORT. The family `Form`: for each instruction, the carrier of its encoding, and that the encoder's word fits the carrier's bytes. -/

namespace Sys2Proof.Laws.Form

/-- The carrier of an instruction (30_encoding.md R70); none for the six calls, which have no encoding (R86). -/
def carrierOf : Instr → Option Carrier
  | .evStart | .evRepStart | .evSlawAck | .evSlawNack | .evDatawAck | .evDatawNack => some .status
  | .evArbLost | .evSlarAck | .evSlarNack | .evDatarAck | .evDatarNack | .evBusError => some .status
  | .evOther _ => some .status
  | .imgInit | .imgIdle | .imgStart | .imgGo | .imgGoAck | .imgStop => some .ctrl
  | .hwrHbuf _ _ | .hrdHbuf _ | .hwrHsize _ | .hrdHsize | .hrdHstat | .hrdHstate => some .hostAcc
  | .hwrHcmdInit | .hwrHcmdStart | .hwrHcmdReserved _ | .hostUnmapped _ _ _ => some .hostAcc
  | .init | .busy | .startTransfer _ _ | .startTransferRepeat | .getResult _ | .getState => none
  | .engRaise _ _ => some .engStep

/-- The encoder gives a well-formed instruction a word of its carrier, and the word fits the bytes that the carrier has. -/
def Statement (i : Instr) : Prop :=
  ∀ c : Cfg, c.wf → i.wf c = true →
    (encodeWord c i).map Prod.fst = carrierOf i ∧ ∀ k w, encodeWord c i = some (k, w) → w < 2 ^ (8 * carrierBytes c k)

/-- A byte fits one byte. -/
theorem ofByte {i : Instr} (k : Carrier) (b : Cfg → Byte) (hk : ∀ c, carrierBytes c k = 1) (hc : carrierOf i = some k)
    (he : ∀ c, encodeWord c i = some (k, (b c).toNat)) : Statement i := by
  intro c _ _
  refine ⟨by simp [he, hc], fun k' w h => ?_⟩
  rw [he] at h
  cases h
  rw [hk]
  exact (b c).isLt

/-- An access word whose number fits its bits fits the bytes of an access. -/
theorem ofAccess {i : Instr} (a : Cfg → Bool × Nat × Byte) (hc : carrierOf i = some .hostAcc)
    (he : ∀ c, encodeWord c i = some (.hostAcc, accessWord c.hostMap (a c).1 (a c).2.1 (a c).2.2))
    (hr : ∀ c, c.wf → i.wf c = true → (a c).2.1 < 2 ^ c.hostMap.regBits) : Statement i := by
  intro c hw hi
  refine ⟨by simp [he, hc], fun k' w h => ?_⟩
  rw [he] at h
  cases h
  refine Nat.lt_of_lt_of_le (accessWord_parts c.hostMap _ _ _ (hr c hw hi)).1 (Nat.pow_le_pow_right (by decide) ?_)
  simp only [carrierBytes]
  omega

/-- A call has no encoding. -/
theorem ofCall {i : Instr} (hc : carrierOf i = none) (he : ∀ c, encodeWord c i = none) : Statement i := by
  intro c _ _
  exact ⟨by simp [he, hc], fun k w h => by simp [he] at h⟩

/-- The numbers of the four single registers fit. -/
theorem regFits {c : Cfg} (h : c.wf) (r : HostReg) (hr : ∀ i, r = .hbuf i → i < c.cap) :
    regNumber c.hostMap r < 2 ^ c.hostMap.regBits := (regNamed_regNumber h r hr).2

theorem evStart : Statement .evStart :=
  ofByte .status (fun c => c.codes.start) (fun _ => rfl) rfl fun _ => rfl
theorem evRepStart : Statement .evRepStart :=
  ofByte .status (fun c => c.codes.repStart) (fun _ => rfl) rfl fun _ => rfl
theorem evSlawAck : Statement .evSlawAck :=
  ofByte .status (fun c => c.codes.slawAck) (fun _ => rfl) rfl fun _ => rfl
theorem evSlawNack : Statement .evSlawNack :=
  ofByte .status (fun c => c.codes.slawNack) (fun _ => rfl) rfl fun _ => rfl
theorem evDatawAck : Statement .evDatawAck :=
  ofByte .status (fun c => c.codes.datawAck) (fun _ => rfl) rfl fun _ => rfl
theorem evDatawNack : Statement .evDatawNack :=
  ofByte .status (fun c => c.codes.datawNack) (fun _ => rfl) rfl fun _ => rfl
theorem evArbLost : Statement .evArbLost :=
  ofByte .status (fun c => c.codes.arbLost) (fun _ => rfl) rfl fun _ => rfl
theorem evSlarAck : Statement .evSlarAck :=
  ofByte .status (fun c => c.codes.slarAck) (fun _ => rfl) rfl fun _ => rfl
theorem evSlarNack : Statement .evSlarNack :=
  ofByte .status (fun c => c.codes.slarNack) (fun _ => rfl) rfl fun _ => rfl
theorem evDatarAck : Statement .evDatarAck :=
  ofByte .status (fun c => c.codes.datarAck) (fun _ => rfl) rfl fun _ => rfl
theorem evDatarNack : Statement .evDatarNack :=
  ofByte .status (fun c => c.codes.datarNack) (fun _ => rfl) rfl fun _ => rfl
theorem evBusError : Statement .evBusError :=
  ofByte .status (fun c => c.codes.busError) (fun _ => rfl) rfl fun _ => rfl
theorem evOther (c : Byte) : Statement (.evOther c) :=
  ofByte .status (fun _ => c) (fun _ => rfl) rfl fun _ => rfl
theorem imgInit : Statement .imgInit :=
  ofByte .ctrl (fun c => ctrlByte c.layout imageInit) (fun _ => rfl) rfl fun _ => rfl
theorem imgIdle : Statement .imgIdle :=
  ofByte .ctrl (fun c => ctrlByte c.layout imageIdle) (fun _ => rfl) rfl fun _ => rfl
theorem imgStart : Statement .imgStart :=
  ofByte .ctrl (fun c => ctrlByte c.layout imageStart) (fun _ => rfl) rfl fun _ => rfl
theorem imgGo : Statement .imgGo :=
  ofByte .ctrl (fun c => ctrlByte c.layout imageGo) (fun _ => rfl) rfl fun _ => rfl
theorem imgGoAck : Statement .imgGoAck :=
  ofByte .ctrl (fun c => ctrlByte c.layout imageGoAck) (fun _ => rfl) rfl fun _ => rfl
theorem imgStop : Statement .imgStop :=
  ofByte .ctrl (fun c => ctrlByte c.layout imageStop) (fun _ => rfl) rfl fun _ => rfl
theorem hwrHbuf (i : Nat) (v : Byte) : Statement (.hwrHbuf i v) :=
  ofAccess (fun c => (true, regNumber c.hostMap (.hbuf i), v)) rfl (fun _ => rfl) fun _ h hi =>
    regFits h (.hbuf i) fun j hj => by cases hj; simpa [Instr.wf] using hi
theorem hrdHbuf (i : Nat) : Statement (.hrdHbuf i) :=
  ofAccess (fun c => (false, regNumber c.hostMap (.hbuf i), 0)) rfl (fun _ => rfl) fun _ h hi =>
    regFits h (.hbuf i) fun j hj => by cases hj; simpa [Instr.wf] using hi
theorem hwrHsize (v : Byte) : Statement (.hwrHsize v) :=
  ofAccess (fun c => (true, c.hostMap.hsize, v)) rfl (fun _ => rfl) fun _ h _ => regFits h .hsize nofun
theorem hrdHsize : Statement .hrdHsize :=
  ofAccess (fun c => (false, c.hostMap.hsize, 0)) rfl (fun _ => rfl) fun _ h _ => regFits h .hsize nofun
theorem hrdHstat : Statement .hrdHstat :=
  ofAccess (fun c => (false, c.hostMap.hstat, 0)) rfl (fun _ => rfl) fun _ h _ => regFits h .hstat nofun
theorem hrdHstate : Statement .hrdHstate :=
  ofAccess (fun c => (false, c.hostMap.hstate, 0)) rfl (fun _ => rfl) fun _ h _ => regFits h .hstate nofun
theorem hwrHcmdInit : Statement .hwrHcmdInit :=
  ofAccess (fun c => (true, c.hostMap.hcmd, 0x01)) rfl (fun _ => rfl) fun _ h _ => regFits h .hcmd nofun
theorem hwrHcmdStart : Statement .hwrHcmdStart :=
  ofAccess (fun c => (true, c.hostMap.hcmd, 0x02)) rfl (fun _ => rfl) fun _ h _ => regFits h .hcmd nofun
theorem hwrHcmdReserved (v : Byte) : Statement (.hwrHcmdReserved v) :=
  ofAccess (fun c => (true, c.hostMap.hcmd, v)) rfl (fun _ => rfl) fun _ h _ => regFits h .hcmd nofun
theorem hostUnmapped (w : Bool) (reg : Nat) (val : Byte) : Statement (.hostUnmapped w reg val) :=
  ofAccess (fun _ => (w, reg, val)) rfl (fun _ => rfl) fun _ _ hi => by
    simp only [Instr.wf, Bool.and_eq_true, decide_eq_true_eq] at hi
    exact hi.1
theorem init : Statement .init :=
  ofCall rfl fun _ => rfl
theorem busy : Statement .busy :=
  ofCall rfl fun _ => rfl
theorem startTransfer (bytes : List Byte) (size : Byte) : Statement (.startTransfer bytes size) :=
  ofCall rfl fun _ => rfl
theorem startTransferRepeat : Statement .startTransferRepeat :=
  ofCall rfl fun _ => rfl
theorem getResult (size : Byte) : Statement (.getResult size) :=
  ofCall rfl fun _ => rfl
theorem getState : Statement .getState :=
  ofCall rfl fun _ => rfl
theorem engRaise (code d : Byte) : Statement (.engRaise code d) := by
  intro c _ _
  refine ⟨rfl, fun k w h => ?_⟩
  cases h
  have h1 := code.isLt
  have h2 := d.isLt
  simp only [carrierBytes, engWord]
  omega

end Sys2Proof.Laws.Form
end

