-- ==== Sys2Proof/Laws/Step.lean ====
section
/-! SUPPORT. What a step can do, said once: where a turn finds its instruction, and what an instruction of each agent does when it answers a next
state. -/

namespace Sys2Proof.Machine

/-! ## The step -/

theorem step_of_fault {s : State} {r : Fault} (h : s.fault = some r) : step s = .fault r := by simp [step, h]

theorem step_of_no_turn {s : State} (h : s.fault = none) (hs : s.sched = []) : step s = .refused .noTurn := by
  simp [step, h, hs]

theorem step_of_turn {s : State} {t : Turn} {ts : List Turn} (h : s.fault = none) (hs : s.sched = t :: ts) :
    step s = runTurn t { s with sched := ts } := by
  simp [step, h, hs]

/-- A step that answers a next state is a turn of the schedule, taken without a fault. -/
theorem step_next {s u : State} (h : step s = .next u) :
    ∃ t ts, s.fault = none ∧ s.sched = t :: ts ∧ runTurn t { s with sched := ts } = .next u := by
  unfold step at h
  split at h
  · cases h
  · next hf =>
    split at h
    · cases h
    · next t ts hs => exact ⟨t, ts, hf, hs, h⟩

theorem runTurn_of_fetch {t : Turn} {s v : State} {i : Instr} (h : fetch t s = .ok (i, v)) : runTurn t s = exec i v := by
  simp [runTurn, h]

theorem runTurn_next {t : Turn} {s u : State} (h : runTurn t s = .next u) :
    ∃ i v, fetch t s = .ok (i, v) ∧ exec i v = .next u := by
  unfold runTurn at h
  split at h
  · cases h
  · next i v hf => exact ⟨i, v, hf, h⟩

theorem runSteps_succ (k : Nat) {s u : State} (h : step s = .next u) : runSteps (k + 1) s = runSteps k u := by
  simp [runSteps, h]

theorem runSteps_add (j k : Nat) {s u : State} (h : runSteps j s = .next u) : runSteps (j + k) s = runSteps k u := by
  induction j generalizing s with
  | zero => simp [runSteps] at h; simp [h]
  | succ j ih =>
    rw [runSteps] at h
    rw [Nat.add_right_comm, runSteps]
    split at h
    · exact ih h
    · cases h
    · cases h

/-! ## Where a turn finds its instruction -/

/-- The rows of the host: the accesses and the calls. -/
def hostRow : Instr → Bool
  | .hwrHbuf _ _ | .hrdHbuf _ | .hwrHsize _ | .hrdHsize | .hrdHstat | .hrdHstate => true
  | .hwrHcmdInit | .hwrHcmdStart | .hwrHcmdReserved _ | .hostUnmapped _ _ _ => true
  | .init | .busy | .startTransfer _ _ | .startTransferRepeat | .getResult _ | .getState => true
  | _ => false

theorem callInstr_hostRow (c : Call) : hostRow (callInstr c) = true := by cases c <;> rfl

theorem accessInstr_hostRow (c : Cfg) (a : Access) : hostRow (accessInstr c a) = true := by
  cases a with
  | wr r v =>
    cases r <;> try rfl
    simp only [accessInstr]
    split
    · rfl
    · split <;> rfl
  | rd r => cases r <;> rfl

theorem decodeAccess_hostRow (c : Cfg) (w : Bool) (reg : Nat) (v : Byte) : hostRow (decodeAccess c w reg v) = true := by
  unfold decodeAccess
  split
  · exact accessInstr_hostRow c _
  · rfl

theorem decodeHostAcc_hostRow {c : Cfg} {w : Nat} {i : Instr} (h : decodeHostAcc c w = .ok i) : hostRow i = true := by
  unfold decodeHostAcc at h
  split at h
  · cases h; exact decodeAccess_hostRow ..
  · cases h

theorem fetchProgram_ok {s v : State} {i : Instr} (h : fetchProgram s = .ok (i, v)) :
    hostRow i = true ∧ ∃ p, v = { s with prog := p, call := .idle } := by
  unfold fetchProgram at h
  split at h
  · cases h
  · next w rest _ =>
    split at h
    · next j hj => cases h; exact ⟨decodeHostAcc_hostRow hj, rest, rfl⟩
    · cases h
  · next c rest _ => cases h; exact ⟨callInstr_hostRow c, rest, rfl⟩

/-- The host's turn finds a row of the host, and takes it out of the program or of the call in progress. -/
theorem fetchHost_ok {s v : State} {i : Instr} (h : fetch .host s = .ok (i, v)) :
    hostRow i = true ∧ ∃ p c, v = { s with prog := p, call := c } := by
  simp only [fetch] at h
  unfold fetchHost at h
  split at h
  · next c hc => cases h; exact ⟨callInstr_hostRow c, s.prog, _, rfl⟩
  · next a todo hc => cases h; exact ⟨accessInstr_hostRow _ a, s.prog, _, rfl⟩
  · next a todo out hc => cases h; exact ⟨accessInstr_hostRow _ a, s.prog, _, rfl⟩
  · obtain ⟨hi, p, hv⟩ := fetchProgram_ok h; exact ⟨hi, p, _, hv⟩
  · obtain ⟨hi, p, hv⟩ := fetchProgram_ok h; exact ⟨hi, p, _, hv⟩
  · obtain ⟨hi, p, hv⟩ := fetchProgram_ok h; exact ⟨hi, p, _, hv⟩

/-- The sequencer's turn (R130): enabled, with the sampled code's instruction. -/
theorem fetchSeq_ok {s v : State} {i : Instr} (h : fetch .seq s = .ok (i, v)) :
    s.pend = true ∧ s.ie = true ∧ ∃ c n, i = decodeStatus s.cfg c ∧ v = { s with draws := n } ∧
      (∀ b, s.status = some b → c = b ∧ n = s.draws) := by
  simp only [fetch] at h
  unfold fetchSeq at h
  split at h
  · next hg =>
    obtain ⟨b, n, hd, hb⟩ := orDraw_frame s.status s
    rw [hd] at h
    cases h
    simp only [Bool.and_eq_true] at hg
    exact ⟨hg.1, hg.2, b, n, rfl, rfl, fun v hv => ⟨(hb v hv).1, (hb v hv).2⟩⟩
  · cases h

theorem fetchEng_ok {w : BitVec 16} {s v : State} {i : Instr} (h : fetch (.eng w) s = .ok (i, v)) :
    i = .engRaise (w.extractLsb' 8 8) (w.extractLsb' 0 8) ∧ v = s := by
  simp only [fetch, fetchEng] at h
  cases h
  exact ⟨rfl, rfl⟩

/-! ## What each agent's instructions do -/

/-- A raise of any reason but the buffer index. -/
def HostRaises (s t : State) : Prop := ∃ r, t = s.raise r ∧ ∀ i, r ≠ .bufferIndexFault i

/-- A row of the host answers one of: a change of the model's own fields only, a raise, and, only while not busy, a cell written, the size written, the INIT command, or the
START command with a legal size. -/
theorem exec_host_cases {i : Instr} {s t : State} (hi : hostRow i = true) (h : exec i s = .next t) :
    (∃ c r n, t = { s with call := c, ret := r, draws := n }) ∨
    HostRaises s t ∨
    (s.ie = false ∧ ∃ k v, k < s.cfg.cap ∧ t = { s with buf := s.buf.write k v }) ∨
    (s.ie = false ∧ ∃ v, t = { s with size := some v }) ∨
    (s.ie = false ∧ t = s.initCommand) ∨
    (s.ie = false ∧ ∃ n, s.size = some n ∧ sizeLegal s.cfg n = true ∧ t = s.startCommand) := by
  have hraise : ∀ r, raised s r = .next t → (∀ j, r ≠ .bufferIndexFault j) → HostRaises s t := by
    intro r hr hne
    cases hr
    exact ⟨r, rfl, hne⟩
  have hpoll : ∀ c u, pollThen s c u = .next t → (∃ c r n, u = { s with call := c, ret := r, draws := n }) →
      ∃ c r n, t = { s with call := c, ret := r, draws := n } := by
    intro c u hp hu
    unfold pollThen at hp
    split at hp
    · cases hp; exact ⟨_, s.ret, s.draws, rfl⟩
    · cases hp; exact hu
  cases i with
  | hwrHbuf k v =>
    simp only [exec, execHwrHbuf] at h
    rcases whenCellExists_cases s k (whenNotBusy s (.next { s with buf := s.buf.write k v })) with ⟨hk, he⟩ | ⟨hk, he⟩
    · rw [he] at h
      rcases whenNotBusy_cases s (.next { s with buf := s.buf.write k v }) with ⟨hb, he⟩ | ⟨hb, he⟩
      · rw [he] at h; exact .inr (.inl (hraise _ h (by simp)))
      · rw [he] at h; cases h; exact .inr (.inr (.inl ⟨hb, k, v, hk, rfl⟩))
    · rw [he] at h; exact .inr (.inl (hraise _ h (by simp)))
  | hrdHbuf k =>
    simp only [exec, execHrdHbuf] at h
    unfold whenCellExists at h
    split at h
    · unfold whenNotBusy at h
      split at h
      · exact .inr (.inl (hraise _ h (by simp)))
      · split at h
        · exact .inr (.inl (hraise _ h (by simp)))
        · next v _ =>
          obtain ⟨c, r, hr⟩ := State.returnCell_frame s v
          cases h
          exact .inl ⟨c, r, s.draws, hr⟩
    · exact .inr (.inl (hraise _ h (by simp)))
  | hwrHsize v =>
    simp only [exec, execHwrHsize, whenNotBusy] at h
    split at h
    · exact .inr (.inl (hraise _ h (by simp)))
    · next hb => cases h; exact .inr (.inr (.inr (.inl ⟨by simpa using hb, v, rfl⟩)))
  | hrdHsize =>
    simp only [exec, execHrdHsize, whenNotBusy] at h
    split at h
    · exact .inr (.inl (hraise _ h (by simp)))
    · split at h
      · exact .inr (.inl (hraise _ h (by simp)))
      · cases h; exact .inl ⟨s.call, _, s.draws, rfl⟩
  | hrdHstat => simp only [exec, execHrdHstat] at h; cases h; exact .inl ⟨s.call, _, s.draws, rfl⟩
  | hrdHstate =>
    obtain ⟨b, n, hd, -⟩ := orDraw_frame s.hwstate s
    simp only [exec, execHrdHstate, hd] at h
    cases h
    exact .inl ⟨s.call, _, n, rfl⟩
  | hwrHcmdInit =>
    simp only [exec, execHwrHcmdInit, whenNotBusy] at h
    split at h
    · exact .inr (.inl (hraise _ h (by simp)))
    · next hb => cases h; exact .inr (.inr (.inr (.inr (.inl ⟨by simpa using hb, rfl⟩))))
  | hwrHcmdStart =>
    simp only [exec, execHwrHcmdStart, whenNotBusy] at h
    split at h
    · exact .inr (.inl (hraise _ h (by simp)))
    · next hb =>
      split at h
      · exact .inr (.inl (hraise _ h (by simp)))
      · next n hn =>
        split at h
        · next hl => cases h; exact .inr (.inr (.inr (.inr (.inr ⟨by simpa using hb, n, hn, hl, rfl⟩))))
        · exact .inr (.inl (hraise _ h (by simp)))
  | hwrHcmdReserved v =>
    simp only [exec, execHwrHcmdReserved, whenNotBusy] at h
    split at h
    · exact .inr (.inl (hraise _ h (by simp)))
    · exact .inr (.inl (hraise _ h (by simp)))
  | hostUnmapped w reg v => exact .inr (.inl (hraise _ h (by simp)))
  | init =>
    simp only [exec, execInit, whenNotBusy] at h
    split at h
    · exact .inr (.inl (hraise _ h (by simp)))
    · next hb => cases h; exact .inr (.inr (.inr (.inr (.inl ⟨by simpa using hb, rfl⟩))))
  | busy => simp only [exec, execBusy] at h; cases h; exact .inl ⟨s.call, _, s.draws, rfl⟩
  | startTransfer bytes size =>
    simp only [exec, execStartTransfer] at h
    split at h
    · split at h
      · cases h
      · exact .inl (hpoll _ _ h ⟨_, s.ret, s.draws, rfl⟩)
    · exact .inr (.inl (hraise _ h (by simp)))
  | startTransferRepeat =>
    simp only [exec, execStartTransferRepeat] at h
    exact .inl (hpoll _ _ h ⟨_, s.ret, s.draws, rfl⟩)
  | getResult size =>
    simp only [exec, execGetResult] at h
    split at h
    · refine .inl (hpoll _ _ h ?_)
      unfold resultAfterPoll
      split
      · split
        · exact ⟨_, _, s.draws, rfl⟩
        · exact ⟨_, s.ret, s.draws, rfl⟩
      · exact ⟨_, _, s.draws, rfl⟩
    · exact .inr (.inl (hraise _ h (by simp)))
  | getState =>
    obtain ⟨b, n, hd, -⟩ := orDraw_frame s.hwstate s
    simp only [exec, execGetState, hd] at h
    cases h
    exact .inl ⟨s.call, _, n, rfl⟩
  | _ => simp [hostRow] at hi

/-- The engine's step answers only under its guard and its contract (R168, R169). -/
theorem exec_engRaise_next {code d : Byte} {s t : State} (h : exec (.engRaise code d) s = .next t) :
    s.pend = false ∧ s.en = true ∧ engineMay s.cfg s.trace code = true ∧ ∃ w,
      t = { s with
        status := some code, data := some d, pend := true, wcol := w, draws := s.draws + 1,
        trace := s.trace ++ [.ev code d] } := by
  simp only [exec, execEngRaise] at h
  split at h
  · cases h
  · next hg =>
    split at h
    · next hm =>
      simp only [Bool.or_eq_true, Bool.not_eq_true', not_or, Bool.not_eq_true, Bool.not_eq_false] at hg
      cases h
      exact ⟨hg.1, hg.2, hm, _, rfl⟩
    · cases h

/-- The end of a transfer in success, from a state `u` (R132, R141). -/
def stopped (u : State) : State :=
  { u with ok := true, en := true, ie := false, ea := false, sta := false, sto := true, pend := false, status := none, trace := u.trace ++ [.stop] }

/-- A byte asked for, from a state `u` (R133): with ACK iff more than one is to come. -/
def asked (u : State) (n : Byte) : State :=
  { u with
    en := true, ie := true, ea := decide (u.cur.toNat + 1 < n.toNat), sta := false, sto := false, pend := false, status := none,
    trace := u.trace ++ [if u.cur.toNat + 1 < n.toNat then .recvAck else .recvNack] }

/-- A byte sent, from a state `u` (R132). -/
def sent (u : State) (b : Byte) : State :=
  { u with
    data := some b, cur := u.cur + 1, en := true, ie := true, ea := false, sta := false, sto := false, pend := false, status := none,
    trace := u.trace ++ [.send b] }

theorem advanceTx_sent {s : State} {n b : Byte} (hs : s.size = some n) (hc : s.cur.toNat < n.toNat)
    (hb : s.buf.read s.cur.toNat = some b) : advanceTx s = .ok (sent s b) := by
  rcases advanceTx_cases s with ⟨h, -⟩ | ⟨m, h, -, hn, -⟩ | ⟨m, c, h, -, hr, he⟩ | ⟨m, h, hm, -⟩
  · simp [hs] at h
  · simp [hn] at hb
  · rw [he]; rw [hb] at hr; cases hr; rfl
  · rw [hs] at h; cases h; omega

theorem advanceTx_stopped {s : State} {n : Byte} (hs : s.size = some n) (hc : n.toNat ≤ s.cur.toNat) :
    advanceTx s = .ok (stopped s) := by
  rcases advanceTx_cases s with ⟨h, -⟩ | ⟨m, h, hm, -⟩ | ⟨m, c, h, hm, -⟩ | ⟨m, h, hm, he⟩
  · simp [hs] at h
  · rw [hs] at h; cases h; omega
  · rw [hs] at h; cases h; omega
  · rw [he]; rfl

theorem rxRequest_asked {s : State} {n : Byte} (hs : s.size = some n) : rxRequest s = .ok (asked s n) := by
  rcases rxRequest_cases s with ⟨h, -⟩ | ⟨m, h, hm, he⟩ | ⟨m, h, hm, he⟩
  · simp [hs] at h
  · rw [hs] at h; cases h; rw [he]; simp [asked, hm]
  · rw [hs] at h; cases h; rw [he]
    have : ¬ s.cur.toNat + 1 < n.toNat := by omega
    simp [asked, this]

/-- The rows of the sequencer: the thirteen events. -/
def seqRow : Instr → Bool
  | .evStart | .evRepStart | .evSlawAck | .evSlawNack | .evDatawAck | .evDatawNack => true
  | .evArbLost | .evSlarAck | .evSlarNack | .evDatarAck | .evDatarNack | .evBusError | .evOther _ => true
  | _ => false

theorem eventInstr_seqRow (e : Event) : seqRow (eventInstr e) = true := by cases e <;> rfl

theorem decodeStatus_seqRow (c : Cfg) (b : Byte) : seqRow (decodeStatus c b) = true := by
  unfold decodeStatus
  split
  · exact eventInstr_seqRow _
  · rfl

/-- The cursor a sending event starts from: 0 after a START or a repeated START (R135, R136), else as it stands (R137, R138). -/
def SendsFrom (i : Instr) (s : State) (a : Byte) : Prop :=
  (a = 0 ∧ (i = .evStart ∨ i = .evRepStart)) ∨ (a = s.cur ∧ (i = .evSlawAck ∨ i = .evDatawAck))

/-- A failure event and the code it records (R143 to R147). -/
def FailsWith (i : Instr) (s : State) (c : Byte) : Prop :=
  i = .evOther c ∨ (i = .evSlawNack ∧ c = s.cfg.codes.slawNack) ∨ (i = .evSlarNack ∧ c = s.cfg.codes.slarNack) ∨
    (i = .evDatawNack ∧ c = s.cfg.codes.datawNack) ∨ (i = .evBusError ∧ c = s.cfg.codes.busError)

/-- What `advance_tx` and the fault of a size or a cell with no value come to for a sending event. -/
theorem commit_advanceTx {s t : State} {a : Byte} (h : commit s (advanceTx { s with cur := a }) = .next t) :
    (t = s.raise .uninitialisedRead ∧ (s.size = none ∨ s.buf.read a.toNat = none)) ∨
    (∃ n b, s.size = some n ∧ a.toNat < n.toNat ∧ s.buf.read a.toNat = some b ∧ t = sent { s with cur := a } b) ∨
    (∃ n, s.size = some n ∧ n.toNat ≤ a.toNat ∧ t = stopped { s with cur := a }) := by
  rcases advanceTx_cases { s with cur := a } with ⟨hs, he⟩ | ⟨n, hs, -, hr, he⟩ | ⟨n, b, hs, hn, hr, he⟩ | ⟨n, hs, hn, he⟩
  · rw [he] at h; cases h; exact .inl ⟨rfl, .inl hs⟩
  · rw [he] at h; cases h; exact .inl ⟨rfl, .inr hr⟩
  · rw [he] at h; cases h; exact .inr (.inl ⟨n, b, hs, hn, hr, rfl⟩)
  · rw [he] at h; cases h; exact .inr (.inr ⟨n, hs, hn, rfl⟩)

/-- A row of the sequencer answers one of: a raise; a byte sent or the end of the packet, for the four sending events; a byte asked for; a byte stored and the
next asked for; the last byte stored and the end; START asked for again; the failure step. -/
theorem exec_seq_cases {i : Instr} {s t : State} (hi : seqRow i = true) (h : exec i s = .next t) :
    (t = s.raise .uninitialisedRead ∧
      ((∃ a, SendsFrom i s a ∧ (s.size = none ∨ s.buf.read a.toNat = none)) ∨
        (s.size = none ∧ (i = .evSlarAck ∨ i = .evDatarAck)))) ∨
    (t = s.raise (.bufferIndexFault s.cur.toNat) ∧ s.cfg.cap ≤ s.cur.toNat ∧ (i = .evDatarAck ∨ i = .evDatarNack)) ∨
    (∃ a n b, SendsFrom i s a ∧ s.size = some n ∧ a.toNat < n.toNat ∧ s.buf.read a.toNat = some b ∧
      t = sent { s with cur := a } b) ∨
    (∃ a n, SendsFrom i s a ∧ s.size = some n ∧ n.toNat ≤ a.toNat ∧ t = stopped { s with cur := a }) ∨
    (i = .evSlarAck ∧ ∃ n, s.size = some n ∧ t = asked s n) ∨
    (i = .evDatarAck ∧ s.cur.toNat < s.cfg.cap ∧ ∃ n d k, s.size = some n ∧
      (∀ v, s.data = some v → d = v ∧ k = s.draws) ∧
      t = asked { s with buf := s.buf.write s.cur.toNat d, cur := s.cur + 1, draws := k } n) ∨
    (i = .evDatarNack ∧ s.cur.toNat < s.cfg.cap ∧ ∃ d k, (∀ v, s.data = some v → d = v ∧ k = s.draws) ∧
      t = stopped { s with buf := s.buf.write s.cur.toNat d, draws := k }) ∨
    (i = .evArbLost ∧ t = s.ctrlWrite imageStart .start) ∨
    (∃ c, FailsWith i s c ∧ t = s.fail c) := by
  have hsend : ∀ a, SendsFrom i s a → commit s (advanceTx { s with cur := a }) = .next t →
      (t = s.raise .uninitialisedRead ∧ (∃ a, SendsFrom i s a ∧ (s.size = none ∨ s.buf.read a.toNat = none))) ∨
      (∃ a n b, SendsFrom i s a ∧ s.size = some n ∧ a.toNat < n.toNat ∧ s.buf.read a.toNat = some b ∧
        t = sent { s with cur := a } b) ∨
      (∃ a n, SendsFrom i s a ∧ s.size = some n ∧ n.toNat ≤ a.toNat ∧ t = stopped { s with cur := a }) := by
    intro a ha hc
    rcases commit_advanceTx hc with ⟨ht, hr⟩ | ⟨n, b, h1, h2, h3, h4⟩ | ⟨n, h1, h2, h3⟩
    · exact .inl ⟨ht, a, ha, hr⟩
    · exact .inr (.inl ⟨a, n, b, ha, h1, h2, h3, h4⟩)
    · exact .inr (.inr ⟨a, n, ha, h1, h2, h3⟩)
  cases i with
  | evStart =>
    rcases hsend 0 (.inl ⟨rfl, .inl rfl⟩) h with h | h | h
    · exact .inl ⟨h.1, .inl h.2⟩
    · exact .inr (.inr (.inl h))
    · exact .inr (.inr (.inr (.inl h)))
  | evRepStart =>
    rcases hsend 0 (.inl ⟨rfl, .inr rfl⟩) h with h | h | h
    · exact .inl ⟨h.1, .inl h.2⟩
    · exact .inr (.inr (.inl h))
    · exact .inr (.inr (.inr (.inl h)))
  | evSlawAck =>
    rcases hsend s.cur (.inr ⟨rfl, .inl rfl⟩) h with h | h | h
    · exact .inl ⟨h.1, .inl h.2⟩
    · exact .inr (.inr (.inl h))
    · exact .inr (.inr (.inr (.inl h)))
  | evDatawAck =>
    rcases hsend s.cur (.inr ⟨rfl, .inr rfl⟩) h with h | h | h
    · exact .inl ⟨h.1, .inl h.2⟩
    · exact .inr (.inr (.inl h))
    · exact .inr (.inr (.inr (.inl h)))
  | evSlarAck =>
    simp only [exec, execEvSlarAck] at h
    cases hs : s.size with
    | none =>
      have he : rxRequest s = .error .uninitialisedRead := by simp [rxRequest, hs]
      rw [he] at h; cases h
      exact .inl ⟨rfl, .inr ⟨rfl, .inl rfl⟩⟩
    | some n =>
      rw [rxRequest_asked hs] at h; cases h
      exact .inr (.inr (.inr (.inr (.inl ⟨rfl, n, rfl, rfl⟩))))
  | evDatarAck =>
    simp only [exec, execEvDatarAck] at h
    rcases storeReceived_cases s with ⟨hc, he⟩ | ⟨hc, d, k, hd, he⟩
    · rw [he] at h; cases h
      exact .inr (.inl ⟨rfl, hc, .inl rfl⟩)
    · rw [he] at h
      cases hs : s.size with
      | none =>
        have hr : rxRequest { s with buf := s.buf.write s.cur.toNat d, cur := s.cur + 1, draws := k }
          = .error .uninitialisedRead := by simp [rxRequest, hs]
        simp only [hr] at h; cases h
        exact .inl ⟨rfl, .inr ⟨rfl, .inr rfl⟩⟩
      | some n =>
        simp only at h
        rw [rxRequest_asked (n := n) (by exact hs)] at h; cases h
        exact .inr (.inr (.inr (.inr (.inr (.inl ⟨rfl, hc, n, d, k, rfl, hd, by rw [hs]⟩)))))
  | evDatarNack =>
    simp only [exec, execEvDatarNack] at h
    rcases storeReceived_cases s with ⟨hc, he⟩ | ⟨hc, d, k, hd, he⟩
    · rw [he] at h; cases h
      exact .inr (.inl ⟨rfl, hc, .inr rfl⟩)
    · rw [he] at h
      simp only [commit, State.ctrlWrite, imageStop, Bool.not_true, Bool.and_false, Bool.not_false, Bool.and_true] at h
      cases h
      exact .inr (.inr (.inr (.inr (.inr (.inr (.inl ⟨rfl, hc, d, k, hd, rfl⟩))))))
  | evArbLost => cases h; exact .inr (.inr (.inr (.inr (.inr (.inr (.inr (.inl ⟨rfl, rfl⟩)))))))
  | evSlawNack =>
    cases h
    exact .inr (.inr (.inr (.inr (.inr (.inr (.inr (.inr ⟨_, .inr (.inl ⟨rfl, rfl⟩), rfl⟩)))))))
  | evSlarNack =>
    cases h
    exact .inr (.inr (.inr (.inr (.inr (.inr (.inr (.inr ⟨_, .inr (.inr (.inl ⟨rfl, rfl⟩)), rfl⟩)))))))
  | evDatawNack =>
    cases h
    exact .inr (.inr (.inr (.inr (.inr (.inr (.inr (.inr ⟨_, .inr (.inr (.inr (.inl ⟨rfl, rfl⟩))), rfl⟩)))))))
  | evBusError =>
    cases h
    exact .inr (.inr (.inr (.inr (.inr (.inr (.inr (.inr ⟨_, .inr (.inr (.inr (.inr ⟨rfl, rfl⟩))), rfl⟩)))))))
  | evOther c =>
    cases h
    exact .inr (.inr (.inr (.inr (.inr (.inr (.inr (.inr ⟨c, .inl rfl, rfl⟩)))))))
  | _ => simp [seqRow] at hi

/-- The rows of the bare control write. -/
def imgRow : Instr → Bool
  | .imgInit | .imgIdle | .imgStart | .imgGo | .imgGoAck | .imgStop => true
  | _ => false

/-- A bare control write is the write of an image with its record; only `IMG_GO` may count draws. -/
theorem exec_img_cases {i : Instr} {s t : State} (hi : imgRow i = true) (h : exec i s = .next t) :
    ∃ m q n, m.en = true ∧ t = { s with draws := n }.ctrlWrite m q := by
  cases i with
  | imgInit => cases h; exact ⟨imageInit, .init, s.draws, rfl, rfl⟩
  | imgIdle => cases h; exact ⟨imageIdle, .idle, s.draws, rfl, rfl⟩
  | imgStart => cases h; exact ⟨imageStart, .start, s.draws, rfl, rfl⟩
  | imgGo =>
    cases h
    have : ∃ q n, goRequest s = (q, { s with draws := n }) := by
      unfold goRequest
      obtain ⟨b, n, hd, -⟩ := orDraw_frame s.data s
      obtain ⟨b', n', hd', -⟩ := orDraw_frame s.data { s with draws := s.draws + 1 }
      simp only [hd, hd']
      split
      any_goals exact ⟨_, _, rfl⟩
      split
      · exact ⟨_, _, rfl⟩
      · exact ⟨_, _, rfl⟩
    obtain ⟨q, n, hg⟩ := this
    rw [hg]
    exact ⟨imageGo, q, n, rfl, rfl⟩
  | imgGoAck => cases h; exact ⟨imageGoAck, .recvAck, s.draws, rfl, rfl⟩
  | imgStop => cases h; exact ⟨imageStop, .stop, s.draws, rfl, rfl⟩
  | _ => simp [imgRow] at hi

/-- Every instruction is a row of the host, of the sequencer, of the bare control write, or the engine's step. -/
theorem row_cases (i : Instr) :
    hostRow i = true ∨ seqRow i = true ∨ imgRow i = true ∨ ∃ code d, i = .engRaise code d := by
  cases i <;> simp [hostRow, seqRow, imgRow]

/-- The engine's turn for a named event raises that event's code. -/
theorem fetch_engTurn (c : Cfg) (e : Event) (d : Byte) (s : State) :
    fetch (engTurn c e d) s = .ok (.engRaise (c.codes.code e) d, s) := by
  simp only [engTurn, fetch, fetchEng, extractLsb'_append_high, extractLsb'_append_low]

/-- Every state of a run from reset is reachable. -/
theorem Run.reachable {c : Cfg} {prog : List HostItem} {σ : Nat → State} {τ : Nat → Option Turn} (h : Run σ τ)
    (h0 : σ 0 = { State.resetWith c with prog := prog }) (k : Nat) : Reachable c prog (σ k) := by
  induction k with
  | zero => exact h0 ▸ .reset
  | succ k ih =>
    cases hk : τ k with
    | none => exact h.rests k hk ▸ ih
    | some t => exact .move t ih (h.moves k t hk)

/-- What holds at a position of a run and is kept by every move holds from there on. -/
theorem Run.keeps {σ : Nat → State} {τ : Nat → Option Turn} (h : Run σ τ) {P : State → Prop} {k : Nat} (hk : P (σ k))
    (hP : ∀ j, k ≤ j → ∀ t, τ j = some t → P (σ j) → P (σ (j + 1))) (j : Nat) (hj : k ≤ j) : P (σ j) := by
  induction j, hj using Nat.le_induction with
  | base => exact hk
  | succ j hj ih =>
    cases ht : τ j with
    | none => exact h.rests j ht ▸ ih
    | some t => exact hP j hj t ht ih

end Sys2Proof.Machine
end

