-- ==== Sys2Proof/Tests/Slice0.lean ====
section
/-! SUPPORT. Tests: ill-formed terms refused, words written out from the spec's encodings, single steps with the results of 95_test_vectors.md
(V1 to V74), and for each obligation with hypotheses a state that meets them. -/

namespace Sys2Proof.Tests

open Sys2Proof Sys2Proof.Machine

/-! ## States -/

/-- The state a step answers, if it answers one. -/
def nextOf : Result → Option State
  | .next t => some t
  | _ => none

/-- The six control latches and `PEND`: `EN, IE, EA, STA, STO, PEND`. -/
def latches (t : State) : List Bool := [t.en, t.ie, t.ea, t.sta, t.sto, t.pend]

/-- `S0` of 95_test_vectors.md, but for the divisor's value, which is opaque. -/
def s0 : State := { State.reset with en := true, clkdiv := some 0, trace := [.init] }

/-- `S0` with the packet of V8. -/
def s0Packet : State := { s0 with size := some 3, buf := [(0, 0xA0), (1, 0x12), (2, 0x34)] }

/-- The state after V8: the write transfer of P1 has just been started. -/
def started : State := { s0Packet with ie := true, sta := true, trace := [.init, .start] }

/-- The common start of V30 to V58, with a status code and a cursor. -/
def event (code : Byte) (cur : Byte) : State :=
  { s0Packet with ie := true, pend := true, status := some code, data := some 0, cur := cur, sched := [.seq] }

/-- The same with the read packet of V46 to V52. -/
def readEvent (code : Byte) (size cur d : Byte) : State :=
  { event code cur with buf := [(0, 0xA1)], size := some size, data := some d }

/-- The state of V60 to V65, every field set. -/
def allSet : State :=
  { State.reset with en := true, ie := true, ea := true, sta := true, sto := true, pend := true, wcol := true }

/-- The end of program P1. -/
def afterP1 : State := { s0Packet with ok := true, sto := true, cur := 3 }

/-- `s0` about to make a call, with enough turns for it. -/
def calling (c : Call) : State := { s0 with prog := [.call c], sched := List.replicate 6 .host }

/-- A configuration whose engine is conformant. -/
def conformant : Cfg := { Cfg.default with engine := .conformant }

/-! ## Well-formed terms: each check refuses -/

theorem test_wf_other_is_not_named : (Instr.evOther 0x08).wf Cfg.default = false ∧ (Instr.evOther 0x09).wf Cfg.default = true := by decide
theorem test_wf_write_index : (Instr.hwrHbuf 8 0).wf Cfg.default = false ∧ (Instr.hwrHbuf 7 0).wf Cfg.default = true := by decide
theorem test_wf_read_index : (Instr.hrdHbuf 8).wf Cfg.default = false ∧ (Instr.hrdHbuf 7).wf Cfg.default = true := by decide
theorem test_wf_reserved_init : (Instr.hwrHcmdReserved 1).wf Cfg.default = false := by decide
theorem test_wf_reserved_start : (Instr.hwrHcmdReserved 2).wf Cfg.default = false := by decide
theorem test_wf_unmapped_write : (Instr.hostUnmapped true 0x17 0).wf Cfg.default = false := by decide
theorem test_wf_unmapped_read : (Instr.hostUnmapped false 0x01 0).wf Cfg.default = false := by decide
theorem test_wf_unmapped_number : (Instr.hostUnmapped false 0x100 0).wf Cfg.default = false := by decide
theorem test_wf_no_bytes : (Instr.startTransfer [] 1).wf Cfg.default = false := by decide
theorem test_wf_too_few_bytes : (Instr.startTransfer [0xA0] 2).wf Cfg.default = false := by decide
theorem test_wf_read_needs_one_byte : (Instr.startTransfer [0xA1] 8).wf Cfg.default = true := by decide

/-! ## Words written out bit by bit (R74, R77 and R78, R79, and the engine's row of the table) -/

theorem test_word_start : decodeTableWord 8 0b00001000 = some .evStart := by decide
theorem test_word_rep_start : decodeTableWord 8 0b00010000 = some .evRepStart := by decide
theorem test_word_slaw_ack : decodeTableWord 8 0b00011000 = some .evSlawAck := by decide
theorem test_word_slaw_nack : decodeTableWord 8 0b00100000 = some .evSlawNack := by decide
theorem test_word_dataw_ack : decodeTableWord 8 0b00101000 = some .evDatawAck := by decide
theorem test_word_dataw_nack : decodeTableWord 8 0b00110000 = some .evDatawNack := by decide
theorem test_word_arb_lost : decodeTableWord 8 0b00111000 = some .evArbLost := by decide
theorem test_word_slar_ack : decodeTableWord 8 0b01000000 = some .evSlarAck := by decide
theorem test_word_slar_nack : decodeTableWord 8 0b01001000 = some .evSlarNack := by decide
theorem test_word_datar_ack : decodeTableWord 8 0b01010000 = some .evDatarAck := by decide
theorem test_word_datar_nack : decodeTableWord 8 0b01011000 = some .evDatarNack := by decide
theorem test_word_bus_error : decodeTableWord 8 0b00000000 = some .evBusError := by decide
theorem test_word_other : decodeTableWord 8 0b11111000 = some (.evOther 0xF8) := by decide
theorem test_word_img_init : decodeTableWord 8 0b00001100 = some .imgInit := by decide
theorem test_word_img_idle : decodeTableWord 8 0b00000100 = some .imgIdle := by decide
theorem test_word_img_start : decodeTableWord 8 0b10100101 = some .imgStart := by decide
theorem test_word_img_go : decodeTableWord 8 0b10000101 = some .imgGo := by decide
theorem test_word_img_go_ack : decodeTableWord 8 0b11000101 = some .imgGoAck := by decide
theorem test_word_img_stop : decodeTableWord 8 0b10010100 = some .imgStop := by decide
theorem test_word_write_cell : decodeTableWord 24 0b1_00010001_00010010 = some (.hwrHbuf 1 0x12) := by decide
theorem test_word_read_cell : decodeTableWord 24 0b0_00010111_00000000 = some (.hrdHbuf 7) := by decide
theorem test_word_write_size : decodeTableWord 24 0b1_00000011_00000011 = some (.hwrHsize 3) := by decide
theorem test_word_read_size : decodeTableWord 24 0b0_00000011_00000000 = some .hrdHsize := by decide
theorem test_word_read_stat : decodeTableWord 24 0b0_00000001_00000000 = some .hrdHstat := by decide
theorem test_word_read_state : decodeTableWord 24 0b0_00000010_00000000 = some .hrdHstate := by decide
theorem test_word_cmd_init : decodeTableWord 24 0b1_00000000_00000001 = some .hwrHcmdInit := by decide
theorem test_word_cmd_start : decodeTableWord 24 0b1_00000000_00000010 = some .hwrHcmdStart := by decide
theorem test_word_cmd_reserved : decodeTableWord 24 0b1_00000000_11111111 = some (.hwrHcmdReserved 0xFF) := by decide
theorem test_word_unmapped : decodeTableWord 24 0b1_00000001_00000000 = some (.hostUnmapped true 0x01 0) := by decide
theorem test_word_engine : decodeTableWord 16 0b01010000_11011110 = some (.engRaise 0x50 0xDE) := by decide
theorem test_word_too_wide : decodeTableWord 24 (2 ^ 17) = none := by decide
theorem test_ctrl_no_image : decodeCtrl Cfg.default 0x84 = .error (.noSuchImage 0x84) := by decide
theorem test_decode_wrong_length : decode Cfg.default .status [] = .error (.wrongLength .status 0) := by decide

/-- A host map whose cells do not stand in one row, with four cells. -/
def scattered : Cfg := { Cfg.default with cap := 4, hostMap := ⟨0x40, 0x02, 0x03, 0x00, [0x11, 0x05, 0x80, 0xFF], 8⟩ }

theorem test_map_scattered :
    scattered.wf ∧ decodeAccess scattered true 0x80 0x12 = .hwrHbuf 2 0x12 ∧
      decodeAccess scattered true 0x12 0 = .hostUnmapped true 0x12 0 ∧
      encodeWord scattered (.hrdHbuf 3) = some (.hostAcc, 0x0FF00) := by decide
theorem test_wf_map_repeats : ¬ ({ scattered with hostMap.hsize := 0x80 } : Cfg).wf := by decide

/-- V66: the layout decides the byte. -/
theorem test_layout : ctrlByte ⟨0, 1, 2, 3, 4, 5, 6⟩ imageStart = 0x65 := by decide

/-- V17. -/
theorem test_address_bytes :
    [(0x50, false), (0x50, true), (0x00, false), (0x7F, true), (0x51, false), (0x08, true)].map
      (fun x : BitVec 7 × Bool => addrByte x.1 x.2) = [0xA0, 0xA1, 0x00, 0xFF, 0xA2, 0x11] := by decide

/-! ## The host's accesses and calls (V1 to V26) -/

theorem test_v1_init :
    (nextOf (exec .init State.reset)).map (fun t => (latches t, t.clkdivSet, t.trace)) =
      some ([true, false, false, false, false, false], true, [.init]) := by decide
theorem test_v1_command :
    (nextOf (exec .hwrHcmdInit State.reset)).map (fun t => (latches t, t.clkdivSet, t.trace)) =
      some ([true, false, false, false, false, false], true, [.init]) := by decide
theorem test_v2_busy :
    (nextOf (exec .busy s0)).bind (·.ret) = some (.flag false) ∧ (nextOf (exec .busy started)).bind (·.ret) = some (.flag true) := by
  decide
theorem test_v2_stat :
    (nextOf (exec .hrdHstat started)).bind (·.ret) = some (.byte 0x01) ∧
      (nextOf (exec .hrdHstat afterP1)).bind (·.ret) = some (.byte 0x02) := by decide
theorem test_v3_write : (nextOf (exec (.hwrHbuf 0 0xA0) s0)).map (·.buf) = some [(0, 0xA0)] := by decide
theorem test_v3_read : (nextOf (exec (.hrdHbuf 0) s0Packet)).bind (·.ret) = some (.byte 0xA0) := by decide
theorem test_v4 : (nextOf (exec (.hrdHbuf 3) s0)).bind (·.fault) = some .uninitialisedRead := by decide
theorem test_v5 : (nextOf (exec .hrdHsize s0Packet)).bind (·.ret) = some (.byte 3) := by decide
theorem test_v6 : (nextOf (exec (.hwrHsize 9) s0)).map (fun t => (t.size, t.fault)) = some (some 9, none) := by decide
theorem test_v8 :
    (nextOf (exec .hwrHcmdStart s0Packet)).map (fun t => (latches t, t.ok, t.cur, t.trace)) =
      some ([true, true, false, true, false, false], false, 0, [.init, .start]) := by decide
theorem test_v10_v12 :
    (nextOf (exec .hwrHcmdStart { s0 with size := some 9 })).bind (·.fault) = some (.sizeOutOfRange 9) ∧
      (nextOf (exec .hwrHcmdStart s0)).bind (·.fault) = some .uninitialisedRead := by decide
theorem test_v13 :
    (nextOf (exec (.hwrHbuf 1 0xFF) started)).map (fun t => (t.fault, t.buf.read 1)) = some (some .hostAccessWhileBusy, some 0x12) := by
  decide
theorem test_v15 : (nextOf (exec .hrdHstate { started with hwstate := some 0x20 })).bind (·.ret) = some (.byte 0x20) := by decide
theorem test_v16 : (nextOf (exec (.hwrHcmdReserved 3) s0)).bind (·.fault) = some (.reservedCommand 3) := by decide
theorem test_read_command_while_busy :
    (nextOf (exec (decodeAccess Cfg.default false 0x00 0) started)).bind (·.fault) = some (.unmappedRegister 0x00) := by decide
theorem test_v18 :
    (nextOf (exec (.hostUnmapped false 0x18 0) s0)).bind (·.fault) = some (.unmappedRegister 0x18) ∧
      decodeAccess Cfg.default false 0x18 0 = .hostUnmapped false 0x18 0 := by decide
theorem test_v19 :
    (nextOf (exec (.startTransfer [0xA0] 0) s0)).map (fun t => (t.fault, t.size)) = some (some (.sizeOutOfRange 0), none) := by decide
theorem test_v20 : (nextOf (exec (.getResult 0) afterP1)).bind (·.ret) = some (.result (some []) true) := by decide
theorem test_v22 :
    (nextOf (exec (.getResult 2) afterP1)).map (·.call) = some (.reading [.rd (.hbuf 0), .rd (.hbuf 1)] []) := by decide
theorem test_v25 :
    (nextOf (exec (.startTransfer [0xA1, 0xEE, 0xEE] 3) s0)).map (·.call) =
      some (.writing [.wr .hsize 3, .wr (.hbuf 0) 0xA1, .wr .hcmd 2]) := by decide
theorem test_p4_repeat : (nextOf (exec .startTransferRepeat s0Packet)).map (·.call) = some (.writing [.wr .hcmd 2]) := by decide
theorem test_p4_state : (nextOf (exec .getState { s0 with hwstate := some 0x20 })).bind (·.ret) = some (.byte 0x20) := by decide

/-! ## The sequencer's events (V30 to V58), each run by the sequencer's turn from the sampled code -/

theorem test_v30 :
    (nextOf (step (event 0x08 2))).map (fun t => (t.cur, t.data, latches t, t.trace)) =
      some (1, some 0xA0, [true, true, false, false, false, false], [.init, .send 0xA0]) := by decide
theorem test_v32 :
    (nextOf (step (event 0x10 3))).map (fun t => (t.cur, t.data, latches t)) =
      some (1, some 0xA0, [true, true, false, false, false, false]) := by decide
theorem test_v33 :
    (nextOf (step (event 0x18 1))).map (fun t => (t.cur, t.data, t.trace)) = some (2, some 0x12, [.init, .send 0x12]) := by decide
theorem test_v34 :
    (nextOf (step { event 0x18 1 with size := some 1 })).map (fun t => (t.ok, latches t, t.trace)) =
      some (true, [true, false, false, false, true, false], [.init, .stop]) := by decide
theorem test_v35 : (nextOf (step (event 0x28 2))).map (fun t => (t.cur, t.data)) = some (3, some 0x34) := by decide
theorem test_status_unspecified_once_not_pending :
    (nextOf (step (event 0x28 2))).map (fun t => (t.pend, t.status)) = some (false, none) ∧
      (nextOf (step (event 0x20 1))).map (fun t => (t.pend, t.status)) = some (true, some 0x20) := by decide
theorem test_v36 :
    (nextOf (step (event 0x28 3))).map (fun t => (t.ok, t.cur, latches t)) = some (true, 3, [true, false, false, false, true, false]) := by
  decide
theorem test_v37 :
    (nextOf (step { event 0x18 1 with buf := [(0, 0xA0)] })).map (fun t => (t.fault, t.cur, t.trace)) =
      some (some .uninitialisedRead, 1, [.init]) := by decide
theorem test_v38 :
    (nextOf (step (event 0x48 1))).map (fun t => (t.hwstate, t.ok, latches t)) =
      some (some 0x48, false, [true, false, false, false, false, true]) := by decide
theorem test_v39 : (nextOf (step (event 0x20 1))).map (fun t => (t.hwstate, t.ie, t.pend, t.cur)) = some (some 0x20, false, true, 1) := by
  decide
theorem test_v40 : (nextOf (step (event 0x30 2))).map (fun t => (t.hwstate, t.ie, t.pend, t.cur)) = some (some 0x30, false, true, 2) := by
  decide
theorem test_v41 : (nextOf (step (event 0x00 2))).map (fun t => (t.hwstate, t.ie, t.pend)) = some (some 0x00, false, true) := by decide
theorem test_v42 : (nextOf (step (event 0xF8 1))).map (fun t => (t.hwstate, t.ie, t.pend, t.ok)) = some (some 0xF8, false, true, false) := by
  decide
theorem test_v43 : (nextOf (step (event 0x09 1))).map (fun t => (t.hwstate, t.ie)) = some (some 0x09, false) := by decide
theorem test_v45 :
    (nextOf (step (event 0x38 2))).map (fun t => (t.cur, t.ok, t.hwstate, latches t)) =
      some (2, false, none, [true, true, false, true, false, false]) := by decide
theorem test_v46 : (nextOf (step (readEvent 0x40 3 1 0))).map (fun t => (t.ea, t.trace)) = some (true, [.init, .recvAck]) := by decide
theorem test_v48 : (nextOf (step (readEvent 0x40 1 1 0))).map (fun t => (t.ea, t.trace)) = some (false, [.init, .recvNack]) := by decide
theorem test_v49 :
    (nextOf (step (readEvent 0x50 4 1 0xDE))).map (fun t => (t.buf, t.cur, t.ea)) = some ([(0, 0xA1), (1, 0xDE)], 2, true) := by decide
theorem test_v53 :
    (nextOf (step (event 0x50 8))).map (fun t => (t.fault, t.buf)) = some (some (.bufferIndexFault 8), s0Packet.buf) := by decide
theorem test_v52 :
    (nextOf (step (readEvent 0x58 1 1 0x77))).map (fun t => (t.buf, t.ok, t.cur, latches t)) =
      some ([(0, 0xA1), (1, 0x77)], true, 1, [true, false, false, false, true, false]) := by decide
theorem test_v54 : (nextOf (step (event 0x58 8))).map (fun t => (t.fault, t.ok)) = some (some (.bufferIndexFault 8), false) := by decide
theorem test_v57_v58 :
    fetchSeq { event 0x08 0 with ie := false } = .error .sequencerNotEnabled ∧
      fetchSeq { event 0x08 0 with pend := false } = .error .sequencerNotEnabled := by constructor <;> rfl

/-! ## The control images (V60 to V65) -/

theorem test_v60 : (nextOf (exec .imgInit allSet)).map (fun t => (latches t, t.wcol)) = some ([true, false, false, false, false, true], false) := by
  decide
theorem test_v61 : (nextOf (exec .imgIdle allSet)).map (fun t => (latches t, t.wcol)) = some ([true, false, false, false, false, true], true) := by
  decide
theorem test_v62 : (nextOf (exec .imgStart allSet)).map (fun t => (latches t, t.wcol)) = some ([true, true, false, true, false, false], true) := by
  decide
theorem test_v63 :
    (nextOf (exec .imgGo { allSet with status := some 0x40 })).map (fun t => (latches t, t.wcol)) =
      some ([true, true, false, false, false, false], true) := by decide
theorem test_v64 : (nextOf (exec .imgGoAck allSet)).map (fun t => (latches t, t.wcol)) = some ([true, true, true, false, false, false], true) := by
  decide
theorem test_v65 : (nextOf (exec .imgStop allSet)).map (fun t => (latches t, t.wcol)) = some ([true, false, false, false, true, false], true) := by
  decide

/-! ## The engine (V70 to V74) -/

theorem test_v70 : nextOf (exec (.engRaise 0x08 0) State.reset) = none := by decide
theorem test_v72 :
    (nextOf (exec (.engRaise 0x08 0) s0)).map (fun t => (t.status, t.pend, t.ie)) = some (some 0x08, true, false) := by decide
theorem test_v73 : nextOf (exec (.engRaise 0x18 0) { started with cfg := conformant }) = none := by decide

/-! ## Witnesses: for each obligation with hypotheses, each clause's hypotheses met together -/

theorem witness_EncodeThenDecodeIsIdentity :
    Cfg.default.wf ∧ (Instr.hwrHbuf 7 0xFF).wf Cfg.default = true ∧
      encode Cfg.default (.hwrHbuf 7 0xFF) = some (.hostAcc, [0xFF, 0x17, 0x01]) := by decide

theorem witness_DecodedInstructionReencodes :
    Cfg.default.wf ∧ decodeWord Cfg.default .status 0xFF = .ok (.evOther 0xFF) ∧
      decodeWord Cfg.default .hostAcc 0x003FF = .ok .hrdHsize ∧ 0x003FF < 2 ^ (8 + Cfg.default.hostMap.regBits) := by decide

theorem other_0xF8 : ∀ e, Cfg.default.codes.code e ≠ 0xF8 := by intro e; cases e <;> decide

theorem witness_StatusByteDecodesByItsCode :
    Cfg.default.wf ∧ Cfg.default.codes.code .busError = 0x00 ∧ ∀ e, Cfg.default.codes.code e ≠ 0xF8 :=
  ⟨by decide, by decide, other_0xF8⟩

theorem witness_SequencerStepRunsTheSampledEvent :
    ((event 0x58 8).fault = none ∧ (event 0x58 8).sched = [.seq] ∧ (event 0x58 8).pend = true ∧ (event 0x58 8).ie = true ∧
      (event 0x58 8).status = some 0x58) ∧
    { event 0x58 8 with pend := false }.pend = false ∧ { event 0x58 8 with ie := false }.ie = false := by decide

/-- A host that is about to take its turn, from a call state and a program. -/
def hosting (c : CallState) (p : List HostItem) : State := { s0 with sched := [.host], call := c, prog := p }

theorem witness_HostStepRunsTheNextAccess :
    (∀ c p, (hosting c p).fault = none ∧ (hosting c p).sched = [.host] ∧ (hosting c p).call = c ∧ (hosting c p).prog = p) ∧
    decodeWord Cfg.default .hostAcc 0x117FF = .ok (.hwrHbuf 7 0xFF) := ⟨fun _ _ => ⟨rfl, rfl, rfl, rfl⟩, by decide⟩

theorem witness_EngineAndControlTurnsRunTheirWords :
    s0.fault = none ∧ { s0 with sched := [.eng (0xFF#8 ++ 0xFF#8)] }.sched = [.eng (0xFF#8 ++ 0xFF#8)] ∧
    decodeCtrl Cfg.default 0x94 = .ok .imgStop ∧ decodeCtrl Cfg.default 0xFF = .error (.noSuchImage 0xFF) := by decide

theorem witness_PlacedWordRunsNext :
    State.reset.cfg = Cfg.default ∧ decodeTableWord 24 0x1FFFF = some (.hostUnmapped true 0xFF 0xFF) ∧
    decodeTableWord 16 0xFFFF = some (.engRaise 0xFF 0xFF) ∧ decodeTableWord 8 0xFF = some (.evOther 0xFF) ∧
    decodeTableWord 8 0xC5 = some .imgGoAck := ⟨rfl, by decide, by decide, by decide, by decide⟩

theorem witness_FaultIsStickyAndEndsTheRun :
    ∃ s : State, s.fault = some .uninitialisedRead ∧ ∃ t, exec .imgStop s = .next t :=
  ⟨{ s0 with fault := some .uninitialisedRead }, rfl, _, rfl⟩

theorem witness_FaultsComeOnlyFromTheirRules :
    (started.fault = none ∧ (nextOf (exec (.hwrHsize 2) started)).bind (·.fault) = some .hostAccessWhileBusy) ∧
    (s0.fault = none ∧ (nextOf (exec (.getResult 9) s0)).bind (·.fault) = some (.sizeOutOfRange 9)) ∧
    (nextOf (exec .hrdHsize s0)).bind (·.fault) = some .uninitialisedRead ∧
    (nextOf (exec .evDatarNack (event 0x58 8))).bind (·.fault) = some (.bufferIndexFault 8) ∧
    (nextOf (exec (.hwrHcmdReserved 0) s0)).bind (·.fault) = some (.reservedCommand 0) ∧
    (nextOf (exec (.hwrHbuf 8 0) started)).bind (·.fault) = some (.unmappedRegister 0x18) := by decide

theorem witness_UnwrittenSizeStopsTheSequencer :
    { event 0x50 7 with size := none }.size = none ∧
      { event 0x50 7 with size := none }.cur.toNat < { event 0x50 7 with size := none }.cfg.cap := by decide

theorem witness_GoImageAsksForOneOfTwoThings :
    (event 0x28 2).pend = true ∧ (event 0x28 2).status = some 0x28 ∧ (event 0x28 2).data = some 0 ∧
      decodeEvent (event 0x28 2).cfg.codes 0x28 = some .datawAck ∧ decodeEvent (event 0x50 2).cfg.codes 0x50 = some .datarAck := by decide

theorem witness_StartEventsSendTheAddressByte :
    (∃ n : Byte, { event 0x08 8 with size := some 1 }.size = some n ∧ 1 ≤ n.toNat ∧ { event 0x08 8 with size := some 1 }.buf.read 0 = some 0xA0) ∧
    (∃ n : Byte, { event 0x10 0 with buf := [] }.size = some n ∧ 1 ≤ n.toNat ∧ { event 0x10 0 with buf := [] }.buf.read 0 = none) ∧
    ∃ n : Byte, { event 0x08 0 with size := some 0 }.size = some n ∧ n.toNat = 0 :=
  ⟨⟨1, by decide⟩, ⟨3, by decide⟩, ⟨0, by decide⟩⟩

theorem witness_WriteAcknowledgeSendsOrStops :
    ((event 0x28 2).size = some 3 ∧ (event 0x28 2).cur.toNat < (3 : Byte).toNat ∧ (event 0x28 2).buf.read 2 = some 0x34) ∧
    ({ event 0x18 2 with buf := [] }.size = some 3 ∧ { event 0x18 2 with buf := [] }.buf.read 2 = none) ∧
    (event 0x28 3).size = some 3 ∧ (3 : Byte).toNat ≤ (event 0x28 3).cur.toNat := by decide

theorem witness_ReadAddressAcknowledgeRequestsAByte :
    (readEvent 0x40 3 1 0).size = some 3 ∧ (readEvent 0x40 3 1 0).cur.toNat + 1 < (3 : Byte).toNat ∧
    (readEvent 0x40 2 1 0).size = some 2 ∧ (2 : Byte).toNat ≤ (readEvent 0x40 2 1 0).cur.toNat + 1 := by decide

theorem witness_ReceivedByteIsStoredAndTheNextRequested :
    ((readEvent 0x50 8 7 0xDE).size = some 8 ∧ (readEvent 0x50 8 7 0xDE).cfg.cap ≤ 255 ∧
      (readEvent 0x50 8 7 0xDE).cur.toNat < (readEvent 0x50 8 7 0xDE).cfg.cap) ∧
    (event 0x50 8).cfg.cap ≤ (event 0x50 8).cur.toNat := by decide

theorem witness_LastReceivedByteEndsTheRead :
    (readEvent 0x58 8 7 0xDE).cur.toNat < (readEvent 0x58 8 7 0xDE).cfg.cap ∧
    (event 0x58 8).cfg.cap ≤ (event 0x58 8).cur.toNat := by decide

theorem witness_FailureEventsRecordTheirCode :
    (0x20 : Byte) = (event 0x20 1).cfg.codes.slawNack ∧ (0x48 : Byte) = (event 0x48 1).cfg.codes.slarNack ∧
    (0x30 : Byte) = (event 0x30 1).cfg.codes.datawNack ∧ (0x00 : Byte) = (event 0x00 1).cfg.codes.busError := by decide

theorem witness_HostWritesOneCell :
    (7 < s0.cfg.cap ∧ s0.ie = false) ∧ (7 < started.cfg.cap ∧ started.ie = true) ∧ s0.cfg.cap ≤ 8 ∧ s0.ie = false := by decide

theorem witness_HostReadsOneCell :
    (2 < s0Packet.cfg.cap ∧ s0Packet.ie = false ∧ s0Packet.buf.read 2 = some 0x34 ∧ s0Packet.call = .idle) ∧
    ({ s0Packet with call := .reading [] [] }.call = .reading [] [] ∧
      { s0Packet with call := .reading [.rd (.hbuf 1)] [] }.call = .reading [.rd (.hbuf 1)] []) ∧
    (7 < started.cfg.cap ∧ started.ie = true) ∧ (7 < s0.cfg.cap ∧ s0.ie = false ∧ s0.buf.read 7 = none) ∧ s0.cfg.cap ≤ 8 := by decide

theorem witness_HostWritesAndReadsTheSize :
    (s0Packet.ie = false ∧ s0Packet.size = some 3) ∧ (s0.ie = false ∧ s0.size = none) ∧ started.ie = true := by decide

theorem witness_RecordedStateIsReadAtAnyTime :
    { started with hwstate := some 0x20 }.hwstate = some 0x20 ∧ started.hwstate = none := by decide

theorem witness_InitConfiguresTheController : State.reset.ie = false ∧ started.ie = true := by decide

theorem witness_StartCommandChecksAndStarts :
    started.ie = true ∧ (s0.ie = false ∧ s0.size = none) ∧
    (∃ n : Byte, { s0 with size := some 9 }.size = some n ∧ { s0 with size := some 9 }.cfg.cap < n.toNat) ∧
    (∃ n : Byte, { s0 with size := some 0 }.size = some n ∧ n.toNat < 1) ∧
    (∃ n : Byte, { s0 with size := some 8 }.size = some n ∧ 1 ≤ n.toNat ∧ n.toNat ≤ s0.cfg.cap ∧
      s0.cfg.hwstateOnStart = .keep) ∧
    ({ Cfg.default with hwstateOnStart := .set 7 } : Cfg).hwstateOnStart = .set 7 :=
  ⟨by decide, by decide, ⟨9, by decide⟩, ⟨0, by decide⟩, ⟨8, by decide⟩, rfl⟩

theorem witness_ReservedAndUnmappedAccessesRaise : s0.ie = false ∧ started.ie = true ∧ started.cfg.cap ≤ 8 := by decide

theorem witness_StartCallsCheckPollAndList :
    (0 : Byte).toNat < 1 ∧ s0.cfg.cap < (9 : Byte).toNat ∧
    (1 ≤ (2 : Byte).toNat ∧ (2 : Byte).toNat ≤ s0.cfg.cap ∧ s0.cfg.bytesSuffice [0xA0] 2 = false) ∧
    (1 ≤ (8 : Byte).toNat ∧ (8 : Byte).toNat ≤ s0.cfg.cap ∧ s0.cfg.bytesSuffice [0xA1] 8 = true ∧ s0.ie = false ∧ started.ie = true) := by
  decide

theorem witness_ResultCallChecksPollsAndReads :
    s0.cfg.cap < (9 : Byte).toNat ∧ ((8 : Byte).toNat ≤ started.cfg.cap ∧ started.ie = true) ∧ (s0.ie = false ∧ s0.ok = false) ∧
    (afterP1.ie = false ∧ afterP1.ok = true ∧ (8 : Byte) ≠ 0) := by decide

theorem witness_HeldCallPollsWithoutEffect :
    ∃ s : State, s.fault = none ∧ s.ie = true ∧ s.call = .held (.startTransfer [0xA2, 0x22] 2) ∧
      s.sched = List.replicate 3 .host ++ [.seq] ∧ (2 : Byte).toNat ≤ s.cfg.cap ∧ s.cfg.bytesSuffice [0xA2, 0x22] 2 = true :=
  ⟨{ started with call := .held (.startTransfer [0xA2, 0x22] 2), sched := [.host, .host, .host, .seq] }, by decide⟩

theorem witness_StartTransferNetEffect :
    ∃ s : State, s.fault = none ∧ s.ie = false ∧ s.call = .idle ∧ s.prog = .call (.startTransfer [0xA0, 0x12, 0x34] 3) :: [] ∧
      (3 : Byte).toNat ≤ s.cfg.cap ∧ s.cfg.bytesSuffice [0xA0, 0x12, 0x34] 3 = true ∧
      3 = (if isRead s.cfg (([0xA0, 0x12, 0x34] : List Byte).getD 0 0) then 1 else (3 : Byte).toNat) ∧
      s.sched = List.replicate (3 + 3) .host ++ [] :=
  ⟨calling (.startTransfer [0xA0, 0x12, 0x34] 3), by decide⟩

theorem witness_StartTransferRepeatNetEffect :
    ∃ s : State, s.fault = none ∧ s.ie = false ∧ s.call = .idle ∧ s.prog = .call .startTransferRepeat :: [] ∧
      s.sched = .host :: .host :: List.replicate 4 .host ∧ s.size = none ∧ { s with size := some 8 }.size = some 8 :=
  ⟨calling .startTransferRepeat, by decide⟩

theorem witness_GetResultReturnsTheCells :
    (∃ s : State, s.fault = none ∧ s.ie = false ∧ s.call = .idle ∧ s.prog = .call (.getResult 2) :: [] ∧ s.ok = true ∧
      s.sched = List.replicate ((2 : Byte).toNat + 1) .host ++ List.replicate 3 .host ∧
      ∀ k, k < (2 : Byte).toNat → s.buf.read k = ([0xA0, 0x12] : List Byte)[k]?) ∧
    ∃ s : State, s.fault = none ∧ s.ie = false ∧ s.call = .idle ∧ s.prog = .call (.getResult 2) :: [] ∧ s.ok = false ∧
      s.sched = .host :: List.replicate 5 .host :=
  ⟨⟨{ calling (.getResult 2) with ok := true, buf := s0Packet.buf }, by decide⟩, ⟨calling (.getResult 2), by decide⟩⟩

theorem witness_EngineRaisesOneEvent :
    (s0.pend = false ∧ s0.en = true ∧ s0.cfg.engine = .any) ∧ (event 0x08 0).pend = true ∧ State.reset.en = false := by decide

/-- A started transfer with a conformant engine and a given trace. -/
def traced (tr : List Request) : State := { started with cfg := conformant, trace := tr }

theorem witness_ConformantEngineFollowsTheTable :
    (∀ tr, (traced tr).cfg.wf ∧ (traced tr).cfg.engine = .conformant ∧ (traced tr).pend = false ∧ (traced tr).en = true ∧
      (traced tr).trace = tr) ∧
    isRead conformant 0xA0 = false ∧ isRead conformant 0xA1 = true ∧ ∀ e, conformant.codes.code e ≠ 0xF8 :=
  ⟨fun _ => ⟨(by decide : conformant.wf), rfl, rfl, rfl, rfl⟩, by decide, by decide, other_0xF8⟩

theorem witness_BusOwnershipFollowsTheTrace :
    (Event.all.map StatusCodes.default.code).Nodup ∧ Request.ev 0x18 0 ≠ .stop ∧
    (0x18 : Byte) ≠ StatusCodes.default.start ∧ (0x18 : Byte) ≠ StatusCodes.default.repStart ∧
    (0x18 : Byte) ≠ StatusCodes.default.arbLost ∧ (0x18 : Byte) ≠ StatusCodes.default.busError := by decide

theorem witness_ResetLeavesTheBlockIdle : State.reset = State.resetWith Cfg.default := rfl

theorem started_inv : started.Inv :=
  ⟨by decide, by decide, by decide, by decide, by decide, by decide, fun _ => ⟨3, by decide⟩, by decide⟩

theorem event_inv : (event 0x20 1).Inv :=
  ⟨by decide, by decide, by decide, by decide, by decide, by decide, fun _ => ⟨3, by decide⟩, by decide⟩

theorem witness_AgentStepsKeepTheInvariant :
    (event 0x20 1).Inv ∧ (event 0x20 1).agentsOnly ∧ ∃ t, step (event 0x20 1) = .next t := ⟨event_inv, by decide, _, rfl⟩

theorem witness_ResetMeetsTheInvariant : Cfg.default.wf := by decide

theorem witness_ConformantStepsKeepTheCursorInPacket :
    ∃ s : State, s.ConformantInv ∧ s.agentsOnly ∧ ∃ t, step s = .next t := by
  let s : State := { traced [.init, .start, .ev 0x08 0] with pend := true, status := some 0x08, data := some 0, sched := [.seq] }
  refine ⟨s, ⟨⟨by decide, by decide, by decide, by decide, by decide, by decide, fun _ => ⟨3, by decide⟩, by decide⟩,
    rfl, ?_, ?_, ?_⟩, by decide, _, rfl⟩
  · intro n _ h
    cases h
    decide
  · intro n _ h
    exact absurd h (by decide)
  · intro n _ _ h
    exact ⟨0x08, 0, [.init, .start], .start, rfl, rfl, by decide, by decide, trivial⟩

theorem witness_ResetMeetsTheConformantInvariant : conformant.wf ∧ conformant.engine = .conformant := by decide

/-- `init`, `SIZE = 1`, the address byte and START, as accesses: the transfer they start is reachable with a conformant engine. -/
theorem witness_ConformantRunsNeverLeaveTheBuffer :
    ∃ s : State, conformant.wf ∧ conformant.engine = .conformant ∧
      Reachable conformant [.access 0x10001, .access 0x10301, .access 0x110A0, .access 0x10002] s ∧ s.ie = true ∧ s.size = some 1 := by
  refine ⟨_, by decide, rfl, .move .host (.move .host (.move .host (.move .host .reset ⟨rfl, rfl, rfl⟩) ⟨rfl, rfl, rfl⟩) ⟨rfl, rfl, rfl⟩)
    ⟨rfl, rfl, rfl⟩, rfl, rfl⟩

theorem witness_OnlyTheStartCommandMakesBusy :
    ∃ s u : State, runTurn .host s = .next u ∧ s.ie = false ∧ u.ie = true :=
  ⟨{ s0Packet with prog := [.access 0x10002] }, _, rfl, rfl, rfl⟩

theorem witness_OnlyTerminalSequencerStepsEndBusy :
    (event 0x20 1).Inv ∧ ∃ u, runTurn .seq (event 0x20 1) = .next u ∧ (event 0x20 1).ie = true ∧ u.ie = false :=
  ⟨event_inv, _, rfl, rfl, rfl⟩

theorem witness_HostStepsRespectTheLock :
    ∃ s u : State, runTurn .host s = .next u ∧ s.ie = true ∧ s.cfg.hwstateOnStart = .keep ∧ u.pend = true ∧ u.wcol = true :=
  ⟨{ event 0x08 0 with prog := [.access 0x00100], wcol := true }, _, rfl, rfl, rfl, rfl, rfl⟩

theorem witness_SequencerStepsTouchOnlyTheirState :
    (∃ u, runTurn .seq (event 0x28 2) = .next u ∧ (event 0x28 2).fault = none ∧ u.fault = none) ∧
    ∃ u, runTurn .seq (event 0x50 8) = .next u ∧ (event 0x50 8).fault = none ∧ u.fault ≠ none :=
  ⟨⟨_, rfl, rfl, rfl⟩, ⟨_, rfl, rfl, by decide⟩⟩

theorem witness_EngineStepsTouchOnlyThePort : ∃ u, runTurn (.eng 0xFFFF) s0 = .next u := ⟨_, rfl⟩

theorem witness_InstructionsKeepConfigurationAndTrace : ∃ t, exec .evArbLost (event 0x38 2) = .next t := ⟨_, rfl⟩

theorem witness_UnreadStateChangesNoOutcome :
    ∃ s₁ s₂ : State, s₁ ≠ s₂ ∧ s₁.cfg.engine = .any ∧ s₁.readable = s₂.readable ∧ ∃ u, runTurn (.eng 0x0800) s₁ = .next u :=
  ⟨started, { started with wcol := true, clkdiv := some 9, status := some 0x55 },
    fun h => absurd (congrArg State.wcol h) (by decide), rfl, rfl, _, rfl⟩

theorem witness_FailureLeavesTheNextStartClean :
    (event 0x20 1).size = some 3 ∧ 1 ≤ (3 : Byte).toNat ∧ (3 : Byte).toNat ≤ (event 0x20 1).cfg.cap ∧
      ∃ t, exec .evSlawNack (event 0x20 1) = .next t := ⟨rfl, by decide, by decide, _, rfl⟩

/-- The turns of a fair run: `init`, `SIZE = 1`, the address byte and START, a bus error, its sequencer step; then nobody moves. -/
def fairTurns : List Turn := [.host, .host, .host, .host, .eng 0x0000, .seq]

/-- The states of that run. -/
def fairStates : Nat → State
  | 0 => { State.reset with prog := [.access 0x10001, .access 0x10301, .access 0x110A0, .access 0x10002] }
  | k + 1 =>
    match fairTurns[k]? with
    | none => fairStates k
    | some t => (nextOf (runTurn t (fairStates k))).getD (fairStates k)

theorem fairStates_rest (k : Nat) (h : fairTurns[k]? = none) : fairStates (k + 1) = fairStates k := by
  rw [fairStates, h]

theorem fairStates_end (k : Nat) (h : 6 ≤ k) : fairStates k = fairStates 6 := by
  induction k, h using Nat.le_induction with
  | base => rfl
  | succ k hk ih => rw [fairStates_rest k (List.getElem?_eq_none hk), ih]

theorem witness_FairRunsServeABusyBlock :
    WeaklyFair fairStates (fun k => fairTurns[k]?) ∧
      (∃ prog, fairStates 0 = { State.resetWith Cfg.default with prog := prog }) ∧ (∀ k, (fairStates k).noFault) ∧
      (fairStates 4).busy = true ∧ (fairStates 6).busy = false := by
  refine ⟨⟨⟨?_, fairStates_rest⟩, ?_, ?_⟩, ⟨_, rfl⟩, ?_, rfl, rfl⟩
  · intro k t h
    match k, h with
    | 0, h | 1, h | 2, h | 3, h | 4, h | 5, h => cases h; exact ⟨rfl, rfl, rfl⟩
    | k + 6, h => exact absurd ((List.getElem?_eq_none (by simp [fairTurns])).symm.trans h) nofun
  · intro k h
    have h6 := (h (max k 6) (le_max_left ..)).1.2
    rw [fairStates_end _ (le_max_right ..)] at h6
    cases h6
  · intro k _ h
    match k, h with
    | 0, _ | 1, _ | 2, _ | 3, _ | 4, _ => exact ⟨4, by omega, 0x0000, rfl⟩
    | 5, h => cases h
    | k + 6, h => rw [fairStates_end _ (by omega)] at h; cases h
  · intro k
    match k with
    | 0 | 1 | 2 | 3 | 4 | 5 => rfl
    | k + 6 => rw [State.noFault, fairStates_end _ (by omega)]; rfl

theorem witness_WriteTransferSendsThePacket :
    ∃ (s : State) (x d : Nat → Byte), s.Inv ∧ s.fault = none ∧ s.ie = true ∧ s.pend = false ∧ s.size = some 3 ∧
      s.trace = [.init] ++ [.start] ∧ s.cfg.engine = .any ∧ (∀ k, k < (3 : Byte).toNat → s.buf.read k = some (x k)) ∧
      isRead s.cfg (x 0) = false ∧
      s.sched = engTurn s.cfg .start (d 0) :: .seq ::
        ((List.range (3 : Byte).toNat).flatMap fun k =>
          [engTurn s.cfg (if k = 0 then .slawAck else .datawAck) (d (k + 1)), .seq]) ++ [] :=
  ⟨{ started with sched := [.eng 0x0800, .seq, .eng 0x1800, .seq, .eng 0x2800, .seq, .eng 0x2800, .seq] },
    fun k => ([0xA0, 0x12, 0x34] : List Byte).getD k 0, fun _ => 0,
    ⟨by decide, by decide, by decide, by decide, by decide, by decide, fun _ => ⟨3, by decide⟩, by decide⟩, by decide⟩

theorem witness_ReadTransferFillsThePacket :
    ∃ (s : State) (d : Nat → Byte), s.Inv ∧ s.fault = none ∧ s.ie = true ∧ s.pend = false ∧ s.size = some 3 ∧
      s.trace = [.init] ++ [.start] ∧ s.cfg.engine = .any ∧ s.buf.read 0 = some 0xA1 ∧ isRead s.cfg 0xA1 = true ∧
      3 = max (3 : Byte).toNat 2 ∧
      s.sched = engTurn s.cfg .start 0 :: .seq :: engTurn s.cfg .slarAck 0 :: .seq ::
        ((List.range (3 - 2)).flatMap fun k => [engTurn s.cfg .datarAck (d (k + 1)), .seq]) ++
        (engTurn s.cfg .datarNack (d (3 - 1)) :: .seq :: []) :=
  ⟨{ started with buf := [(0, 0xA1)], sched := [.eng 0x0800, .seq, .eng 0x4000, .seq, .eng 0x50DE, .seq, .eng 0x58AD, .seq] },
    fun k => ([0, 0xDE, 0xAD] : List Byte).getD k 0,
    ⟨by decide, by decide, by decide, by decide, by decide, by decide, fun _ => ⟨3, by decide⟩, by decide⟩, by decide⟩

theorem witness_ReadExchangeReturnsTheBytes :
    ∃ (s : State) (d : Nat → Byte), s.Inv ∧ s.fault = none ∧ s.ie = false ∧ s.call = .idle ∧
      s.prog = .call (.startTransfer [0xA1] 1) :: .call (.getResult 1) :: [] ∧ (1 : Byte).toNat ≤ s.cfg.cap ∧
      isRead s.cfg 0xA1 = true ∧ 2 = max (1 : Byte).toNat 2 ∧ s.cfg.engine = .any ∧
      s.sched = List.replicate 4 .host ++
        (engTurn s.cfg .start 0 :: .seq :: engTurn s.cfg .slarAck 0 :: .seq ::
          ((List.range (2 - 2)).flatMap fun k => [engTurn s.cfg .datarAck (d (k + 1)), .seq]) ++
          (engTurn s.cfg .datarNack (d (2 - 1)) :: .seq :: (List.replicate ((1 : Byte).toNat + 1) .host ++ []))) :=
  ⟨{ s0 with
      prog := [.call (.startTransfer [0xA1] 1), .call (.getResult 1)],
      sched := [.host, .host, .host, .host, .eng 0x0800, .seq, .eng 0x4000, .seq, .eng 0x5877, .seq, .host, .host] },
    fun _ => 0x77,
    ⟨by decide, by decide, by decide, by decide, by decide, by decide, by decide, by decide⟩, by decide⟩

theorem witness_ArbitrationRetryRestartsThePacket :
    ∃ s : State, s.Inv ∧ s.fault = none ∧ s.ie = true ∧ s.pend = false ∧ s.cfg.engine = .any ∧ s.buf.read 0 = some 0xA0 ∧
      s.sched = engTurn s.cfg .arbLost 0 :: .seq :: engTurn s.cfg .start 0 :: .seq :: [] ∧ ∃ u, runSteps 4 s = .next u :=
  ⟨{ started with sched := [.eng 0x3800, .seq, .eng 0x0800, .seq] },
    ⟨by decide, by decide, by decide, by decide, by decide, by decide, fun _ => ⟨3, by decide⟩, by decide⟩,
    rfl, rfl, rfl, rfl, by decide, by decide, _, rfl⟩

end Sys2Proof.Tests
end

section
/-! PROOFS. The family of 00_scope.md: what an instruction leaves unchanged, which reasons it can record, and what the host's turn runs. -/

namespace Sys2Proof.Machine

/-! ## The reasons an instruction can record -/

/-- The host's rows that R117 forbids while busy: the accesses to `HBUF`, `HSIZE` and `HCMD`, and the call that is one of them. -/
def usesSharedState : Instr → Bool
  | .hwrHbuf _ _ | .hrdHbuf _ | .hwrHsize _ | .hrdHsize => true
  | .hwrHcmdInit | .hwrHcmdStart | .hwrHcmdReserved _ | .init => true
  | _ => false

/-- The reasons an instruction may record from a state: the table of 60_exceptions.md R189 with the conditions of the rules it names, and R35's row
of `SIZE` for the sequencer's reads of it (log 23). -/
inductive MayRaise (s : State) : Instr → Fault → Prop
  | busy {i : Instr} (hi : usesSharedState i = true) (hb : s.ie = true) : MayRaise s i .hostAccessWhileBusy
  | startSize {v : Byte} (hs : s.size = some v) (hv : sizeLegal s.cfg v = false) :
      MayRaise s .hwrHcmdStart (.sizeOutOfRange v)
  | transferSize {bytes : List Byte} {v : Byte} (hv : sizeLegal s.cfg v = false) :
      MayRaise s (.startTransfer bytes v) (.sizeOutOfRange v)
  | resultSize {v : Byte} (hv : s.cfg.cap < v.toNat) : MayRaise s (.getResult v) (.sizeOutOfRange v)
  | unwrittenCell {k : Nat} (hk : s.buf.read k = none) : MayRaise s (.hrdHbuf k) .uninitialisedRead
  | unwrittenSize {i : Instr} (hs : s.size = none)
      (hi : i = .hrdHsize ∨ i = .hwrHcmdStart ∨ i = .evSlarAck ∨ i = .evDatarAck) : MayRaise s i .uninitialisedRead
  | nothingToSend {i : Instr} {a : Byte} (ha : SendsFrom i s a) (hn : s.size = none ∨ s.buf.read a.toNat = none) :
      MayRaise s i .uninitialisedRead
  | cursorOutside {i : Instr} (hc : s.cfg.cap ≤ s.cur.toNat) (hi : i = .evDatarAck ∨ i = .evDatarNack) :
      MayRaise s i (.bufferIndexFault s.cur.toNat)
  | reserved {v : Byte} : MayRaise s (.hwrHcmdReserved v) (.reservedCommand v)
  | unmapped {w : Bool} {n : Nat} {v : Byte} : MayRaise s (.hostUnmapped w n v) (.unmappedRegister n)
  | cellOutside {i : Instr} {k : Nat} (hk : s.cfg.cap ≤ k) (hi : (∃ v, i = .hwrHbuf k v) ∨ i = .hrdHbuf k) :
      MayRaise s i (.unmappedRegister (regNumber s.cfg.hostMap (.hbuf k)))

/-- A next state that the result answers holds `FAULT` as `s` does, or is `s` with a reason recorded that meets `P`. -/
def RaisesOnly (s : State) (P : Fault → Prop) (res : Result) : Prop :=
  ∀ t, res = .next t → t.fault = s.fault ∨ ∃ r, t = s.raise r ∧ P r

namespace RaisesOnly

variable {s : State} {P : Fault → Prop} {res : Result}

theorem ofNext {u : State} (hu : u.fault = s.fault) : RaisesOnly s P (.next u) := by
  intro t ht
  cases ht
  exact .inl hu

theorem ofRefused {r : Refusal} : RaisesOnly s P (.refused r) := by
  intro t ht
  cases ht

theorem ofRaised {r : Fault} (hr : P r) : RaisesOnly s P (raised s r) := by
  intro t ht
  cases ht
  exact .inr ⟨r, rfl, hr⟩

theorem ofWhenNotBusy (hb : s.ie = true → P .hostAccessWhileBusy) (hr : RaisesOnly s P res) :
    RaisesOnly s P (whenNotBusy s res) := by
  rcases whenNotBusy_cases s res with ⟨hi, he⟩ | ⟨-, he⟩
  · rw [he]; exact ofRaised (hb hi)
  · rwa [he]

theorem ofWhenCellExists {k : Nat}
    (hk : s.cfg.cap ≤ k → P (.unmappedRegister (regNumber s.cfg.hostMap (.hbuf k)))) (hr : RaisesOnly s P res) :
    RaisesOnly s P (whenCellExists s k res) := by
  rcases whenCellExists_cases s k res with ⟨-, he⟩ | ⟨hc, he⟩
  · rwa [he]
  · rw [he]; exact ofRaised (hk hc)

theorem ofPollThen {c : Call} {u : State} (hu : u.fault = s.fault) : RaisesOnly s P (pollThen s c u) := by
  unfold pollThen
  split
  · exact ofNext rfl
  · exact ofNext hu

/-- From a state without a fault, a next state that holds a reason is the old one with that reason recorded. -/
theorem raised_of_fault (hres : RaisesOnly s P res) {t : State} {r : Fault} (hs : s.fault = none) (h : res = .next t)
    (ht : t.fault = some r) : t = s.raise r ∧ P r := by
  rcases hres t h with hf | ⟨r', rfl, hP⟩
  · rw [hf, hs] at ht
    cases ht
  · cases ht
    exact ⟨rfl, hP⟩

end RaisesOnly

@[simp] theorem State.returnCell_fault (s : State) (v : Byte) : (s.returnCell v).fault = s.fault := by
  obtain ⟨c, r, h⟩ := State.returnCell_frame s v
  rw [h]

@[simp] theorem resultAfterPoll_fault (size : Byte) (s : State) : (resultAfterPoll size s).fault = s.fault := by
  unfold resultAfterPoll
  split
  · split <;> rfl
  · rfl

/-- A read of `HSTATE`, by an access or by `get_state()`, records no reason (R105, R116). -/
theorem execHrdHstate_raisesOnly {s : State} {P : Fault → Prop} : RaisesOnly s P (execHrdHstate s) := by
  obtain ⟨b, n, hd, -⟩ := orDraw_frame s.hwstate s
  simp only [execHrdHstate, hd]
  exact .ofNext rfl

/-- The host's rows, by the checks that each makes (40_host_interface.md R100 to R118). -/
theorem exec_host_raisesOnly {i : Instr} {s : State} (hi : hostRow i = true) :
    RaisesOnly s (MayRaise s i) (exec i s) := by
  cases i with
  | hwrHbuf k v =>
    exact .ofWhenCellExists (fun hk => .cellOutside hk (.inl ⟨v, rfl⟩)) (.ofWhenNotBusy (.busy rfl) (.ofNext rfl))
  | hrdHbuf k =>
    refine .ofWhenCellExists (fun hk => .cellOutside hk (.inr rfl)) (.ofWhenNotBusy (.busy rfl) ?_)
    split
    · next hk => exact .ofRaised (.unwrittenCell hk)
    · exact .ofNext (by simp)
  | hwrHsize v => exact .ofWhenNotBusy (.busy rfl) (.ofNext rfl)
  | hrdHsize =>
    refine .ofWhenNotBusy (.busy rfl) ?_
    split
    · next hs => exact .ofRaised (.unwrittenSize hs (.inl rfl))
    · exact .ofNext rfl
  | hrdHstat => exact .ofNext rfl
  | hrdHstate => exact execHrdHstate_raisesOnly
  | hwrHcmdInit => exact .ofWhenNotBusy (.busy rfl) (.ofNext rfl)
  | hwrHcmdStart =>
    refine .ofWhenNotBusy (.busy rfl) ?_
    split
    · next hs => exact .ofRaised (.unwrittenSize hs (.inr (.inl rfl)))
    · next hs =>
      split
      · exact .ofNext rfl
      · next hv => exact .ofRaised (.startSize hs (Bool.eq_false_iff.mpr hv))
  | hwrHcmdReserved v => exact .ofWhenNotBusy (.busy rfl) (.ofRaised .reserved)
  | hostUnmapped w n v => exact .ofRaised .unmapped
  | init => exact .ofWhenNotBusy (.busy rfl) (.ofNext rfl)
  | busy => exact .ofNext rfl
  | startTransfer bytes size =>
    simp only [exec, execStartTransfer]
    split
    · split
      · exact .ofRefused
      · exact .ofPollThen rfl
    · next hv => exact .ofRaised (.transferSize (Bool.eq_false_iff.mpr hv))
  | startTransferRepeat => exact .ofPollThen rfl
  | getResult size =>
    simp only [exec, execGetResult]
    split
    · exact .ofPollThen (by simp)
    · next hv => exact .ofRaised (.resultSize (Nat.lt_of_not_le hv))
  | getState => exact execHrdHstate_raisesOnly
  | _ => simp [hostRow] at hi

/-- The sequencer's rows raise for a missing byte or size, and for a cursor outside the buffer (R132, R133, R139, R141). -/
theorem exec_seq_raisesOnly {i : Instr} {s : State} (hi : seqRow i = true) :
    RaisesOnly s (MayRaise s i) (exec i s) := by
  intro t h
  rcases exec_seq_cases hi h with ⟨ht, ⟨a, ha, hn⟩ | ⟨hs, hi⟩⟩ | ⟨ht, hc, hi⟩ | ⟨_, _, _, _, _, _, _, rfl⟩ |
    ⟨_, _, _, _, _, rfl⟩ | ⟨_, _, _, rfl⟩ | ⟨_, _, _, _, _, _, _, rfl⟩ | ⟨_, _, _, _, _, rfl⟩ | ⟨_, rfl⟩ | ⟨_, _, rfl⟩
  · exact .inr ⟨_, ht, .nothingToSend ha hn⟩
  · exact .inr ⟨_, ht, .unwrittenSize hs (.inr (.inr hi))⟩
  · exact .inr ⟨_, ht, .cursorOutside hc hi⟩
  all_goals exact .inl rfl

/-- Every instruction keeps `FAULT`, or changes nothing but `FAULT` and records a reason of its own row of R189. -/
theorem exec_raisesOnly (i : Instr) (s : State) : RaisesOnly s (MayRaise s i) (exec i s) := by
  rcases row_cases i with hi | hi | hi | ⟨code, d, rfl⟩
  · exact exec_host_raisesOnly hi
  · exact exec_seq_raisesOnly hi
  · intro t h
    obtain ⟨m, q, n, -, rfl⟩ := exec_img_cases hi h
    exact .inl rfl
  · intro t h
    obtain ⟨-, -, -, w, rfl⟩ := exec_engRaise_next h
    exact .inl rfl

theorem size_outside_of_not_sizeLegal {c : Cfg} {v : Byte} (h : sizeLegal c v = false) : v.toNat < 1 ∨ c.cap < v.toNat := by
  have hn : ¬ (1 ≤ v.toNat ∧ v.toNat ≤ c.cap) := fun hv => by simp [(sizeLegal_iff c v).mpr hv] at h
  omega

theorem usesSharedState_cases {i : Instr} (hi : usesSharedState i = true) :
    (∃ k v, i = .hwrHbuf k v) ∨ (∃ k, i = .hrdHbuf k) ∨ (∃ v, i = .hwrHsize v) ∨ i = .hrdHsize ∨
      i = .hwrHcmdInit ∨ i = .hwrHcmdStart ∨ (∃ v, i = .hwrHcmdReserved v) ∨ i = .init := by
  cases i <;> simp [usesSharedState] at hi ⊢

/-- Settles O11: each reason an instruction can record (`exec_raisesOnly`) is one of the rows of R189. -/
theorem faultsComeOnlyFromTheirRules : Obligations.FaultsComeOnlyFromTheirRules := by
  intro i s t r hs h ht
  obtain ⟨rfl, hr⟩ := (exec_raisesOnly i s).raised_of_fault hs h ht
  refine ⟨rfl, ?_⟩
  cases hr with
  | busy hi hb => exact ⟨hb, usesSharedState_cases hi⟩
  | startSize hv hl => exact ⟨size_outside_of_not_sizeLegal hl, .inl ⟨rfl, hv⟩⟩
  | transferSize hl => exact ⟨size_outside_of_not_sizeLegal hl, .inr (.inl ⟨_, rfl⟩)⟩
  | resultSize hv => exact ⟨.inr hv, .inr (.inr rfl)⟩
  | unwrittenCell hk => exact .inl ⟨_, rfl, hk⟩
  | unwrittenSize hn hi => exact .inr (.inl ⟨hn, hi⟩)
  | nothingToSend ha hn =>
    rcases ha with ⟨rfl, hi⟩ | ⟨rfl, hi⟩
    · exact .inr (.inr (.inl ⟨hn, hi⟩))
    · exact .inr (.inr (.inr ⟨hn, hi⟩))
  | cursorOutside hc hi => exact ⟨rfl, hc, hi⟩
  | reserved => rfl
  | unmapped => exact .inl ⟨_, _, rfl⟩
  | cellOutside hk hi => exact .inr ⟨_, hk, rfl, hi⟩

/-- Settles O10: a next state holds `FAULT` as before or a reason just recorded, and `step` answers the reason it finds. -/
theorem faultIsStickyAndEndsTheRun : Obligations.FaultIsStickyAndEndsTheRun := by
  refine ⟨fun i s t hs h => ?_, fun s r => step_of_fault⟩
  rcases exec_raisesOnly i s t h with hf | ⟨r, rfl, -⟩
  · rwa [hf]
  · simp

/-! ## What every instruction leaves unchanged -/

/-- The configuration, the schedule and the program are as before, and `TRACE` has at most one record more, at its end. -/
structure KeepsRun (s t : State) : Prop where
  cfg   : t.cfg = s.cfg
  sched : t.sched = s.sched
  prog  : t.prog = s.prog
  trace : t.trace = s.trace ∨ ∃ q, t.trace = s.trace ++ [q]

theorem exec_host_keepsRun {i : Instr} {s t : State} (hi : hostRow i = true) (h : exec i s = .next t) : KeepsRun s t := by
  rcases exec_host_cases hi h with ⟨_, _, _, rfl⟩ | ⟨_, rfl, _⟩ | ⟨_, _, _, _, rfl⟩ | ⟨_, _, rfl⟩ | ⟨_, rfl⟩ |
    ⟨_, _, _, _, rfl⟩
  · exact ⟨rfl, rfl, rfl, .inl rfl⟩
  · exact ⟨rfl, rfl, rfl, .inl rfl⟩
  · exact ⟨rfl, rfl, rfl, .inl rfl⟩
  · exact ⟨rfl, rfl, rfl, .inl rfl⟩
  · exact ⟨rfl, rfl, rfl, .inr ⟨.init, rfl⟩⟩
  · exact ⟨rfl, rfl, rfl, .inr ⟨.start, rfl⟩⟩

theorem exec_seq_keepsRun {i : Instr} {s t : State} (hi : seqRow i = true) (h : exec i s = .next t) : KeepsRun s t := by
  rcases exec_seq_cases hi h with ⟨rfl, _⟩ | ⟨rfl, _⟩ | ⟨_, _, _, _, _, _, _, rfl⟩ | ⟨_, _, _, _, _, rfl⟩ |
    ⟨_, _, _, rfl⟩ | ⟨_, _, _, _, _, _, _, rfl⟩ | ⟨_, _, _, _, _, rfl⟩ | ⟨_, rfl⟩ | ⟨_, _, rfl⟩
  · exact ⟨rfl, rfl, rfl, .inl rfl⟩
  · exact ⟨rfl, rfl, rfl, .inl rfl⟩
  all_goals exact ⟨rfl, rfl, rfl, .inr ⟨_, rfl⟩⟩

theorem exec_keepsRun {i : Instr} {s t : State} (h : exec i s = .next t) : KeepsRun s t := by
  rcases row_cases i with hi | hi | hi | ⟨code, d, rfl⟩
  · exact exec_host_keepsRun hi h
  · exact exec_seq_keepsRun hi h
  · obtain ⟨m, q, n, -, rfl⟩ := exec_img_cases hi h
    exact ⟨rfl, rfl, rfl, .inr ⟨q, rfl⟩⟩
  · obtain ⟨-, -, -, w, rfl⟩ := exec_engRaise_next h
    exact ⟨rfl, rfl, rfl, .inr ⟨.ev code d, rfl⟩⟩

/-- Settles O51, row by row of the four kinds of instruction. -/
theorem instructionsKeepConfigurationAndTrace : Obligations.InstructionsKeepConfigurationAndTrace := by
  intro i s t h
  obtain ⟨hcfg, hsched, hprog, htrace⟩ := exec_keepsRun h
  exact ⟨hcfg, hsched, hprog, htrace⟩

/-! ## What the host's turn runs -/

theorem fetchHost_of_idle {s : State} (hc : s.call = .idle) : fetchHost s = fetchProgram s := by simp [fetchHost, hc]

theorem fetchHost_of_held {s : State} {c : Call} (hc : s.call = .held c) :
    fetchHost s = .ok (callInstr c, { s with call := .idle }) := by simp [fetchHost, hc]

theorem fetchHost_of_writing {s : State} {a : Access} {todo : List Access} (hc : s.call = .writing (a :: todo)) :
    fetchHost s = .ok (accessInstr s.cfg a, { s with call := writesLeft todo }) := by simp [fetchHost, hc]

theorem fetchHost_of_reading {s : State} {a : Access} {todo : List Access} {out : List Byte}
    (hc : s.call = .reading (a :: todo) out) :
    fetchHost s = .ok (accessInstr s.cfg a, { s with call := .reading todo out }) := by simp [fetchHost, hc]

theorem fetchProgram_of_access {s : State} {w : Nat} {rest : List HostItem} {i : Instr} (hp : s.prog = .access w :: rest)
    (hd : decodeWord s.cfg .hostAcc w = .ok i) : fetchProgram s = .ok (i, { s with prog := rest, call := .idle }) := by
  have hd' : decodeHostAcc s.cfg w = .ok i := hd
  simp [fetchProgram, hp, hd']

theorem fetchProgram_of_call {s : State} {c : Call} {rest : List HostItem} (hp : s.prog = .call c :: rest) :
    fetchProgram s = .ok (callInstr c, { s with prog := rest, call := .idle }) := by simp [fetchProgram, hp]

theorem fetchProgram_of_nil {s : State} (hp : s.prog = []) : fetchProgram s = .error .hostHasNoStep := by
  simp [fetchProgram, hp]

/-- The host's turn, first in the schedule, runs what `fetchHost` finds. -/
theorem step_of_fetchHost {s v : State} {ts : List Turn} {i : Instr} (hf : s.fault = none) (hs : s.sched = .host :: ts)
    (h : fetchHost { s with sched := ts } = .ok (i, v)) : step s = exec i v :=
  (step_of_turn hf hs).trans (runTurn_of_fetch h)

/-- With no call in progress the host's turn runs what `fetchProgram` finds. -/
theorem step_of_fetchProgram {s v : State} {ts : List Turn} {i : Instr} (hf : s.fault = none)
    (hs : s.sched = .host :: ts) (hc : s.call = .idle) (h : fetchProgram { s with sched := ts } = .ok (i, v)) :
    step s = exec i v :=
  step_of_fetchHost hf hs ((fetchHost_of_idle (s := { s with sched := ts }) hc).trans h)

theorem step_of_host_done {s : State} {ts : List Turn} (hf : s.fault = none) (hs : s.sched = .host :: ts)
    (hc : s.call = .idle) (hp : s.prog = []) : step s = .refused .hostHasNoStep := by
  have h : fetch .host { s with sched := ts } = .error .hostHasNoStep :=
    (fetchHost_of_idle (s := { s with sched := ts }) hc).trans (fetchProgram_of_nil hp)
  rw [step_of_turn hf hs, runTurn, h]

/-- Settles O7: one case for each stage the host can be in. -/
theorem hostStepRunsTheNextAccess : Obligations.HostStepRunsTheNextAccess := by
  intro s ts hf hs
  refine ⟨fun w rest i hc hp hd => ?_, fun c rest hc hp => ?_, fun c hc => ?_, fun a hc => ?_, fun a b todo hc => ?_,
    fun a todo out hc => ?_, step_of_host_done hf hs⟩
  · rw [step_of_fetchProgram hf hs hc (fetchProgram_of_access hp hd), hc]
  · rw [step_of_fetchProgram hf hs hc (fetchProgram_of_call hp), hc]
  · exact step_of_fetchHost hf hs (fetchHost_of_held hc)
  · exact step_of_fetchHost hf hs (fetchHost_of_writing (s := { s with sched := ts }) hc)
  · exact step_of_fetchHost hf hs (fetchHost_of_writing (s := { s with sched := ts }) hc)
  · exact step_of_fetchHost hf hs (fetchHost_of_reading hc)

end Sys2Proof.Machine
end

section
/-! PROOFS. The family of 10_state.md: the invariants of the agents' turns, which columns of the access matrix a turn keeps to, and what no rule reads. -/

namespace Sys2Proof.Machine

/-! ## What each agent's turn runs -/

/-- The host's turn runs a row of the host; before it, only the model's own program and call have moved (log 19). -/
theorem runTurn_host_next {s u : State} (h : runTurn .host s = .next u) :
    ∃ i p c, hostRow i = true ∧ exec i { s with prog := p, call := c } = .next u := by
  obtain ⟨i, v, hf, he⟩ := runTurn_next h
  obtain ⟨hi, p, c, rfl⟩ := fetchHost_ok hf
  exact ⟨i, p, c, hi, he⟩

/-- The sequencer's turn runs the row of the status code it samples; before it, only the count of free values can have moved (log 8). -/
theorem runTurn_seq_next {s u : State} (h : runTurn .seq s = .next u) :
    s.pend = true ∧ s.ie = true ∧ ∃ c n, exec (decodeStatus s.cfg c) { s with draws := n } = .next u ∧
      ∀ b, s.status = some b → c = b ∧ n = s.draws := by
  obtain ⟨i, v, hf, he⟩ := runTurn_next h
  obtain ⟨hp, hb, c, n, rfl, rfl, hc⟩ := fetchSeq_ok hf
  exact ⟨hp, hb, c, n, he, hc⟩

theorem runTurn_eng_next {w : BitVec 16} {s u : State} (h : runTurn (.eng w) s = .next u) :
    exec (.engRaise (w.extractLsb' 8 8) (w.extractLsb' 0 8)) s = .next u := by
  obtain ⟨i, v, hf, he⟩ := runTurn_next h
  obtain ⟨rfl, rfl⟩ := fetchEng_ok hf
  exact he

/-- A step keeps the schedule's property, since it only takes a turn off it. -/
theorem agentsOnly_of_step {s t : State} (hs : s.agentsOnly) (h : step s = .next t) : t.agentsOnly := by
  obtain ⟨a, ts, -, hsched, hrun⟩ := step_next h
  obtain ⟨i, v, hf, he⟩ := runTurn_next hrun
  have hv : v.sched = ts := by
    cases a with
    | host => obtain ⟨-, p, c, rfl⟩ := fetchHost_ok hf; rfl
    | seq => obtain ⟨-, -, c, n, -, rfl, -⟩ := fetchSeq_ok hf; rfl
    | eng w => obtain ⟨-, rfl⟩ := fetchEng_ok hf; rfl
    | ctrl b => exact absurd (hs (.ctrl b) (by simp [hsched])) (by simp [Turn.isAgent])
  intro x hx
  rw [(exec_keepsRun he).sched, hv] at hx
  exact hs x (by simp [hsched, hx])

/-! ## The invariant -/

namespace State.Inv

variable {s : State}

/-- The invariant speaks of no other field than these ten. -/
theorem frame (h : s.Inv) {hw : Option Byte} {ea sta sto wc : Bool} {k : Option Nat} {f : Option Fault} {tr : List Request}
    {n : Nat} {sc : List Turn} {p : List HostItem} {c : CallState} {r : Option Returned} :
    State.Inv { s with
      hwstate := hw, ea := ea, sta := sta, sto := sto, wcol := wc, clkdiv := k, fault := f, trace := tr, draws := n,
      sched := sc, prog := p, call := c, ret := r } :=
  ⟨h.cfgWf, h.bufWf, h.bufBound, h.curBound, h.busyOk, h.busyEn, h.busySize, h.pendEvent⟩

/-- `CAP` fits a byte, so the cursor's increment below it does not wrap (R5, R22). -/
theorem cur_succ_toNat (h : s.Inv) {a : Byte} (ha : a.toNat < s.cfg.cap) : (a + 1).toNat = a.toNat + 1 := by
  have hcap : s.cfg.cap ≤ 255 := h.cfgWf.2.1
  rw [BitVec.toNat_add, show (1 : Byte).toNat = 1 from rfl]
  omega

/-- While busy the packet fits the buffer (R107). -/
theorem size_le_cap (h : s.Inv) (hb : s.ie = true) {n : Byte} (hn : s.size = some n) : n.toNat ≤ s.cfg.cap := by
  obtain ⟨m, hm, hl⟩ := h.busySize hb
  cases hn.symm.trans hm
  exact ((sizeLegal_iff _ _).mp hl).2

theorem setCur (h : s.Inv) {a : Byte} (ha : a.toNat ≤ s.cfg.cap) : State.Inv { s with cur := a } :=
  ⟨h.cfgWf, h.bufWf, h.bufBound, ha, h.busyOk, h.busyEn, h.busySize, h.pendEvent⟩

theorem writeCell (h : s.Inv) {k : Nat} (hk : k < s.cfg.cap) (v : Byte) : State.Inv { s with buf := s.buf.write k v } :=
  ⟨h.cfgWf, Memory.write_wf h.bufWf k v, Memory.write_bound h.bufBound hk v, h.curBound, h.busyOk, h.busyEn, h.busySize,
    h.pendEvent⟩

theorem setSize (h : s.Inv) (hb : s.ie = false) (v : Byte) : State.Inv { s with size := some v } :=
  ⟨h.cfgWf, h.bufWf, h.bufBound, h.curBound, h.busyOk, h.busyEn, by simp [hb], h.pendEvent⟩

theorem initCommand (h : s.Inv) : s.initCommand.Inv :=
  ⟨h.cfgWf, h.bufWf, h.bufBound, h.curBound, by simp, by simp, by simp, by simpa using h.pendEvent⟩

theorem startCommand (h : s.Inv) {n : Byte} (hn : s.size = some n) (hl : sizeLegal s.cfg n = true) : s.startCommand.Inv :=
  ⟨h.cfgWf, h.bufWf, h.bufBound, Nat.zero_le _, by simp, by simp, fun _ => ⟨n, hn, hl⟩, by simp⟩

theorem stopped (h : s.Inv) : (Machine.stopped s).Inv :=
  ⟨h.cfgWf, h.bufWf, h.bufBound, h.curBound, nofun, nofun, nofun, nofun⟩

theorem asked (h : s.Inv) (hb : s.ie = true) (n : Byte) : (Machine.asked s n).Inv :=
  ⟨h.cfgWf, h.bufWf, h.bufBound, h.curBound, fun _ => h.busyOk hb, fun _ => rfl, fun _ => h.busySize hb, nofun⟩

theorem sent (h : s.Inv) (hb : s.ie = true) (hc : s.cur.toNat < s.cfg.cap) (b : Byte) : (Machine.sent s b).Inv :=
  ⟨h.cfgWf, h.bufWf, h.bufBound, (h.cur_succ_toNat hc).trans_le hc, fun _ => h.busyOk hb, fun _ => rfl,
    fun _ => h.busySize hb, nofun⟩

theorem startAgain (h : s.Inv) (hb : s.ie = true) : (s.ctrlWrite imageStart .start).Inv :=
  ⟨h.cfgWf, h.bufWf, h.bufBound, h.curBound, fun _ => h.busyOk hb, fun _ => rfl, fun _ => h.busySize hb,
    by simp [imageStart]⟩

theorem fail (h : s.Inv) (c : Byte) : (s.fail c).Inv :=
  ⟨h.cfgWf, h.bufWf, h.bufBound, h.curBound, nofun, nofun, nofun, by simpa using h.pendEvent⟩

/-- The cursor that a sending event starts from is 0 or the one the state has. -/
theorem setCur_sendsFrom (h : s.Inv) {i : Instr} {a : Byte} (ha : SendsFrom i s a) : State.Inv { s with cur := a } := by
  rcases ha with ⟨rfl, -⟩ | ⟨rfl, -⟩
  · exact h.setCur (Nat.zero_le _)
  · exact h

/-- A byte received into a cell, with the cursor moved past it. -/
theorem storeNext (h : s.Inv) (hc : s.cur.toNat < s.cfg.cap) (d : Byte) (k : Nat) :
    State.Inv { s with buf := s.buf.write s.cur.toNat d, cur := s.cur + 1, draws := k } :=
  ((h.writeCell hc d).setCur (a := s.cur + 1) ((h.cur_succ_toNat hc).trans_le hc)).frame

theorem exec_host (h : s.Inv) {i : Instr} {t : State} (hi : hostRow i = true) (he : exec i s = .next t) : t.Inv := by
  rcases exec_host_cases hi he with ⟨c, r, n, rfl⟩ | ⟨r, rfl, -⟩ | ⟨-, k, v, hk, rfl⟩ | ⟨hb, v, rfl⟩ | ⟨-, rfl⟩ |
    ⟨-, n, hn, hl, rfl⟩
  · exact h.frame
  · exact h.frame
  · exact h.writeCell hk v
  · exact h.setSize hb v
  · exact h.initCommand
  · exact h.startCommand hn hl

theorem exec_seq (h : s.Inv) (hb : s.ie = true) {i : Instr} {t : State} (hi : seqRow i = true) (he : exec i s = .next t) :
    t.Inv := by
  rcases exec_seq_cases hi he with ⟨rfl, -⟩ | ⟨rfl, -⟩ | ⟨a, n, b, ha, hn, hlt, -, rfl⟩ | ⟨a, n, ha, -, -, rfl⟩ |
    ⟨-, n, -, rfl⟩ | ⟨-, hc, n, d, k, -, -, rfl⟩ | ⟨-, hc, d, k, -, rfl⟩ | ⟨-, rfl⟩ | ⟨c, -, rfl⟩
  · exact h.frame
  · exact h.frame
  · exact (h.setCur_sendsFrom ha).sent hb (hlt.trans_le (h.size_le_cap hb hn)) b
  · exact (h.setCur_sendsFrom ha).stopped
  · exact h.asked hb n
  · exact (h.storeNext hc d k).asked hb n
  · exact (h.writeCell hc d).frame.stopped
  · exact h.startAgain hb
  · exact h.fail c

theorem exec_eng (h : s.Inv) {code d : Byte} {t : State} (he : exec (.engRaise code d) s = .next t) : t.Inv := by
  obtain ⟨-, -, -, w, rfl⟩ := exec_engRaise_next he
  exact ⟨h.cfgWf, h.bufWf, h.bufBound, h.curBound, h.busyOk, h.busyEn, h.busySize, fun _ => ⟨rfl, rfl⟩⟩

/-- Every turn of an agent keeps the invariant. -/
theorem runTurn (h : s.Inv) {a : Turn} {t : State} (ha : a.isAgent = true) (hr : Machine.runTurn a s = .next t) : t.Inv := by
  cases a with
  | host =>
    obtain ⟨i, p, c, hi, he⟩ := runTurn_host_next hr
    exact h.frame.exec_host hi he
  | seq =>
    obtain ⟨-, hb, c, n, he, -⟩ := runTurn_seq_next hr
    exact (h.frame (n := n)).exec_seq hb (decodeStatus_seqRow _ _) he
  | eng w => exact h.exec_eng (runTurn_eng_next hr)
  | ctrl b => simp [Turn.isAgent] at ha

/-- Nothing is busy or pending at reset (R35). -/
theorem resetWith {c : Cfg} (hc : c.wf) : (State.resetWith c).Inv :=
  ⟨hc, .nil, nofun, Nat.zero_le _, nofun, nofun, nofun, nofun⟩

end State.Inv

/-- Settles O41: a step is a turn of an agent, and each turn keeps the invariant (`State.Inv.runTurn`). -/
theorem agentStepsKeepTheInvariant : Obligations.AgentStepsKeepTheInvariant := by
  intro s t h hs hstep
  obtain ⟨a, ts, -, hsched, hrun⟩ := step_next hstep
  have ha : a.isAgent = true := hs a (by simp [hsched])
  exact ⟨h.frame.runTurn ha hrun, agentsOnly_of_step hs hstep⟩

/-- The default configuration is admissible (R5). -/
theorem cfg_default_wf : Cfg.default.wf := by decide

/-- Settles O42. -/
theorem resetMeetsTheInvariant : Obligations.ResetMeetsTheInvariant :=
  fun _ hc => ⟨.resetWith hc, nofun, .resetWith cfg_default_wf⟩

/-! ## The invariant of a conformant engine -/

theorem eventInstr_injective {e f : Event} (h : eventInstr e = eventInstr f) : e = f := by
  cases e <;> cases f <;> simp [eventInstr] at h ⊢

theorem mem_startAnswers {o : BusOwner} {e : Event} (h : e ∈ startAnswers o) :
    e = .start ∨ e = .repStart ∨ e = .busError := by
  cases o <;> simp [startAnswers] at h <;> tauto

/-- The receive events are no answers to a send, and the read address is acknowledged only where the send came from a START (R169). -/
theorem mem_sendAnswers {c : Cfg} {b : Byte} {o : Option Event} {e : Event} (h : e ∈ sendAnswers c b o) :
    e ≠ .datarAck ∧ e ≠ .datarNack ∧ (e = .slarAck → o = some .start ∨ o = some .repStart) := by
  unfold sendAnswers at h
  split at h
  · refine ⟨?_, ?_, fun _ => .inl rfl⟩ <;> (rintro rfl; split at h <;> simp at h)
  · refine ⟨?_, ?_, fun _ => .inr rfl⟩ <;> (rintro rfl; split at h <;> simp at h)
  all_goals refine ⟨?_, ?_, ?_⟩ <;> (rintro rfl; simp at h)

/-- What an event of the receive phase says of the cursor, in a packet of `size` bytes and a buffer of `cap` cells. -/
structure ReceiveFits (e : Event) (cur size cap : Nat) : Prop where
  slarAck   : e = .slarAck → cur = 1
  datarAck  : e = .datarAck → cur + 1 < size
  datarNack : e = .datarNack → cur < cap

/-- An event that the contract allows for a request that fits the cursor fits it too (R169). -/
theorem receiveFits_of_answersTo {c : Cfg} {o : BusOwner} {cur size : Nat} {tr : List Request} {e : Event}
    (hf : requestFits c cur size tr) (he : e ∈ answersTo c o tr) : ReceiveFits e cur size c.cap := by
  unfold answersTo at he
  split at he
  · rcases mem_startAnswers he with rfl | rfl | rfl <;> exact ⟨nofun, nofun, nofun⟩
  · obtain ⟨hack, hnack, hs⟩ := mem_sendAnswers he
    exact ⟨fun h => hf (hs h), fun h => absurd h hack, fun h => absurd h hnack⟩
  · simp only [List.mem_cons, List.not_mem_nil, or_false] at he
    rcases he with rfl | rfl
    · exact ⟨nofun, fun _ => hf, nofun⟩
    · exact ⟨nofun, nofun, nofun⟩
  · simp only [List.mem_cons, List.not_mem_nil, or_false] at he
    rcases he with rfl | rfl | rfl
    · exact ⟨nofun, nofun, fun _ => hf⟩
    · exact ⟨nofun, nofun, nofun⟩
    · exact ⟨nofun, nofun, nofun⟩
  · simp at he

/-- The named event that the sequencer samples while a packet of `n` bytes is in flight: the newest entry of `TRACE`, and it fits the cursor. -/
structure Samples (s : State) (n code : Byte) (e : Event) : Prop where
  size   : s.size = some n
  status : s.status = some code
  named  : decodeEvent s.cfg.codes code = some e
  newest : ∃ before d, s.trace = before ++ [.ev code d]
  fits   : ReceiveFits e s.cur.toNat n.toNat s.cfg.cap

theorem Samples.decodeStatus_eq {s : State} {n code : Byte} {e : Event} (h : Samples s n code e) :
    decodeStatus s.cfg code = eventInstr e := by
  rw [decodeStatus, h.named]

/-- What `rx_request` asks for (R133) fits a cursor inside the buffer. -/
theorem requestFits_asked {c : Cfg} {cur size : Nat} (tr : List Request) (hc : cur < c.cap) :
    requestFits c cur size ((if cur + 1 < size then Request.recvAck else .recvNack) :: tr) := by
  split
  · next h => exact h
  · exact hc

namespace State.ConformantInv

variable {s : State}

/-- With no transfer in flight nothing is said of the cursor. -/
theorem ofNotBusy (hi : s.Inv) (he : s.cfg.engine = .conformant) (hb : s.ie = false) : s.ConformantInv :=
  ⟨hi, he, by simp [hb], by simp [hb], by simp [hb]⟩

/-- With no event pending only the newest request is to fit. -/
theorem ofWaiting (hi : s.Inv) (he : s.cfg.engine = .conformant) (hp : s.pend = false)
    (h : ∀ n, s.size = some n → s.cur.toNat ≤ n.toNat ∧ requestFits s.cfg s.cur.toNat n.toNat s.trace.reverse) :
    s.ConformantInv :=
  ⟨hi, he, fun n _ hn => (h n hn).1, fun n _ _ hn => (h n hn).2, by simp [hp]⟩

theorem frame (h : s.ConformantInv) {f : Option Fault} {n : Nat} {sc : List Turn} {p : List HostItem} {c : CallState}
    {r : Option Returned} :
    State.ConformantInv { s with fault := f, draws := n, sched := sc, prog := p, call := c, ret := r } :=
  ⟨h.inv.frame, h.engine, h.within, h.waiting, h.answered⟩

theorem samples (h : s.ConformantInv) (hb : s.ie = true) (hp : s.pend = true) : ∃ n code e, Samples s n code e := by
  obtain ⟨n, hn, -⟩ := h.inv.busySize hb
  obtain ⟨code, d, before, e, htr, hst, hd, hmem, hfit⟩ := h.answered n hb hp hn
  exact ⟨n, code, e, hn, hst, hd, ⟨before, d, htr⟩, receiveFits_of_answersTo hfit hmem⟩

/-- A byte sent leaves the cursor in the packet, and at 1 if it was the address byte (R135 to R138). -/
theorem sent (h : s.ConformantInv) (hb : s.ie = true) {n code b a : Byte} {e : Event} (hs : Samples s n code e)
    (ha : SendsFrom (eventInstr e) s a) (hlt : a.toNat < n.toNat) :
    (Machine.sent { s with cur := a } b).ConformantInv := by
  have hcap : a.toNat < s.cfg.cap := hlt.trans_le (h.inv.size_le_cap hb hs.size)
  have hcur : (a + 1).toNat = a.toNat + 1 := h.inv.cur_succ_toNat hcap
  refine .ofWaiting ((h.inv.setCur_sendsFrom ha).sent hb hcap b) h.engine rfl fun m hm => ?_
  cases hs.size.symm.trans hm
  refine ⟨hcur.trans_le hlt, ?_⟩
  obtain ⟨before, d, htr⟩ := hs.newest
  simp only [Machine.sent, htr, List.reverse_append, List.reverse_cons, List.reverse_nil, List.nil_append,
    List.singleton_append, requestFits]
  intro hstart
  rw [hs.named, Option.some_inj, Option.some_inj] at hstart
  rcases ha with ⟨rfl, -⟩ | ⟨-, hi | hi⟩
  · rfl
  · cases eventInstr_injective (f := .slawAck) hi
    simp at hstart
  · cases eventInstr_injective (f := .datawAck) hi
    simp at hstart

/-- A byte asked for with the cursor in the packet and in the buffer. -/
theorem asked (hi : s.Inv) (he : s.cfg.engine = .conformant) (hb : s.ie = true) {n : Byte} (hn : s.size = some n)
    (hle : s.cur.toNat ≤ n.toNat) (hc : s.cur.toNat < s.cfg.cap) : (Machine.asked s n).ConformantInv := by
  refine .ofWaiting (hi.asked hb n) he rfl fun m hm => ?_
  cases hn.symm.trans hm
  refine ⟨hle, ?_⟩
  simp only [Machine.asked, List.reverse_append, List.reverse_cons, List.reverse_nil, List.nil_append,
    List.singleton_append]
  exact requestFits_asked _ hc

theorem exec_host (h : s.ConformantInv) {i : Instr} {t : State} (hi : hostRow i = true) (he : exec i s = .next t) :
    t.ConformantInv := by
  have hinv : t.Inv := h.inv.exec_host hi he
  rcases exec_host_cases hi he with ⟨c, r, n, rfl⟩ | ⟨r, rfl, -⟩ | ⟨hb, k, v, -, rfl⟩ | ⟨hb, v, rfl⟩ | ⟨-, rfl⟩ |
    ⟨-, n, -, -, rfl⟩
  · exact h.frame
  · exact h.frame
  · exact .ofNotBusy hinv h.engine hb
  · exact .ofNotBusy hinv h.engine hb
  · exact .ofNotBusy hinv h.engine rfl
  · exact .ofWaiting hinv h.engine (by simp) fun m _ => ⟨Nat.zero_le _, by simp [requestFits]⟩

theorem exec_seq (h : s.ConformantInv) (hb : s.ie = true) {n code : Byte} {e : Event} (hs : Samples s n code e) {t : State}
    (he : exec (eventInstr e) s = .next t) : t.ConformantInv := by
  have hinv : t.Inv := h.inv.exec_seq hb (eventInstr_seqRow e) he
  have hle : s.cur.toNat ≤ n.toNat := h.within n hb hs.size
  have hcap : n.toNat ≤ s.cfg.cap := h.inv.size_le_cap hb hs.size
  rcases exec_seq_cases (eventInstr_seqRow e) he with ⟨rfl, -⟩ | ⟨rfl, -⟩ | ⟨a, m, b, ha, hm, hlt, -, rfl⟩ |
    ⟨a, m, -, -, -, rfl⟩ | ⟨hi, m, hm, rfl⟩ | ⟨hi, hc, m, d, k, hm, -, rfl⟩ | ⟨-, -, d, k, -, rfl⟩ | ⟨-, rfl⟩ | ⟨c, -, rfl⟩
  · exact h.frame
  · exact h.frame
  · cases hs.size.symm.trans hm
    exact h.sent hb hs ha hlt
  · exact .ofNotBusy hinv h.engine rfl
  · cases hs.size.symm.trans hm
    have hcur : s.cur.toNat = 1 := hs.fits.slarAck (eventInstr_injective (f := .slarAck) hi)
    have h2 : 2 ≤ s.cfg.cap := h.inv.cfgWf.1
    exact asked h.inv h.engine hb hm hle (by omega)
  · cases hs.size.symm.trans hm
    have hlt : s.cur.toNat + 1 < n.toNat := hs.fits.datarAck (eventInstr_injective (f := .datarAck) hi)
    have hcur : (s.cur + 1).toNat = s.cur.toNat + 1 := h.inv.cur_succ_toNat hc
    exact asked (h.inv.storeNext hc d k) h.engine hb hm (by simp only [hcur]; omega) (by simp only [hcur]; omega)
  · exact .ofNotBusy hinv h.engine rfl
  · refine .ofWaiting hinv h.engine (by simp [imageStart]) fun m hm => ⟨h.within m hb hm, ?_⟩
    simp [requestFits]
  · exact .ofNotBusy hinv h.engine rfl

theorem exec_eng (h : s.ConformantInv) {code d : Byte} {t : State} (he : exec (.engRaise code d) s = .next t) :
    t.ConformantInv := by
  have hinv : t.Inv := h.inv.exec_eng he
  obtain ⟨hp, -, hmay, w, rfl⟩ := exec_engRaise_next he
  refine ⟨hinv, h.engine, h.within, nofun, fun n hb _ hn => ?_⟩
  have hallowed : ∃ e, decodeEvent s.cfg.codes code = some e ∧ e ∈ allowedEvents s.cfg s.trace := by
    simp only [engineMay, h.engine] at hmay
    split at hmay
    · next e hd => exact ⟨e, hd, by simpa using hmay⟩
    · simp at hmay
  obtain ⟨e, hd, hmem⟩ := hallowed
  exact ⟨code, d, s.trace, e, rfl, rfl, hd, hmem, h.waiting n hb hp hn⟩

/-- The sequencer's turn runs the named event it samples, from the state as it is. -/
theorem runTurn_seq (h : s.ConformantInv) {t : State} (hr : Machine.runTurn .seq s = .next t) :
    s.ie = true ∧ ∃ n code e, Samples s n code e ∧ exec (eventInstr e) s = .next t := by
  obtain ⟨hp, hb, c, k, he, hc⟩ := runTurn_seq_next hr
  obtain ⟨n, code, e, hs⟩ := h.samples hb hp
  obtain ⟨rfl, rfl⟩ := hc code hs.status
  rw [hs.decodeStatus_eq] at he
  exact ⟨hb, n, c, e, hs, he⟩

/-- Every turn of an agent keeps the conformant invariant. -/
theorem runTurn (h : s.ConformantInv) {a : Turn} {t : State} (ha : a.isAgent = true)
    (hr : Machine.runTurn a s = .next t) : t.ConformantInv := by
  cases a with
  | host =>
    obtain ⟨i, p, c, hi, he⟩ := runTurn_host_next hr
    exact h.frame.exec_host hi he
  | seq =>
    obtain ⟨hb, n, code, e, hs, he⟩ := h.runTurn_seq hr
    exact h.exec_seq hb hs he
  | eng w => exact h.exec_eng (runTurn_eng_next hr)
  | ctrl b => simp [Turn.isAgent] at ha

theorem resetWith {c : Cfg} (hc : c.wf) (he : c.engine = .conformant) : (State.resetWith c).ConformantInv :=
  .ofNotBusy (.resetWith hc) he rfl

end State.ConformantInv

/-- Settles O43: a step is a turn of an agent, and each turn keeps the conformant invariant (`State.ConformantInv.runTurn`). -/
theorem conformantStepsKeepTheCursorInPacket : Obligations.ConformantStepsKeepTheCursorInPacket := by
  intro s t h hs hstep
  obtain ⟨a, ts, -, hsched, hrun⟩ := step_next hstep
  have ha : a.isAgent = true := hs a (by simp [hsched])
  exact ⟨h.frame.runTurn ha hrun, agentsOnly_of_step hs hstep⟩

/-- Settles O44. -/
theorem resetMeetsTheConformantInvariant : Obligations.ResetMeetsTheConformantInvariant :=
  fun _ hc he => .resetWith hc he

/-! ## Runs with a conformant engine -/

/-- A received byte that the contract allows has a cell, so its store does not leave the buffer (R51, R139, R141). -/
theorem Samples.receive_inside {s : State} {n code : Byte} {e : Event} (hs : Samples s n code e) (hn : n.toNat ≤ s.cfg.cap)
    (hi : eventInstr e = .evDatarAck ∨ eventInstr e = .evDatarNack) : s.cur.toNat < s.cfg.cap := by
  rcases hi with hi | hi
  · have : s.cur.toNat + 1 < n.toNat := hs.fits.datarAck (eventInstr_injective (f := .datarAck) hi)
    omega
  · exact hs.fits.datarNack (eventInstr_injective (f := .datarNack) hi)

/-- The one reason R51 gives is recorded by the two stores of received bytes only, with the cursor outside the buffer. -/
theorem bufferIndexFault_of_exec {i : Instr} {s t : State} {k : Nat} (hf : s.fault = none) (he : exec i s = .next t)
    (ht : t.fault = some (.bufferIndexFault k)) : s.cfg.cap ≤ s.cur.toNat ∧ (i = .evDatarAck ∨ i = .evDatarNack) := by
  obtain ⟨-, hr⟩ := (exec_raisesOnly i s).raised_of_fault hf he ht
  cases hr with
  | cursorOutside hc hi => exact ⟨hc, hi⟩

theorem State.ConformantInv.no_bufferIndexFault {s t : State} (h : s.ConformantInv) (hf : s.fault = none) {a : Turn}
    (ha : a.isAgent = true) (hr : Machine.runTurn a s = .next t) (k : Nat) : t.fault ≠ some (.bufferIndexFault k) := by
  intro ht
  cases a with
  | host =>
    obtain ⟨i, p, c, hi, he⟩ := runTurn_host_next hr
    obtain ⟨-, rfl | rfl⟩ := bufferIndexFault_of_exec (s := { s with prog := p, call := c }) hf he ht
    · simp [hostRow] at hi
    · simp [hostRow] at hi
  | seq =>
    obtain ⟨hb, n, code, e, hs, he⟩ := h.runTurn_seq hr
    obtain ⟨hc, hi⟩ := bufferIndexFault_of_exec hf he ht
    have hin : s.cur.toNat < s.cfg.cap := hs.receive_inside (h.inv.size_le_cap hb hs.size) hi
    omega
  | eng w =>
    obtain ⟨-, hi | hi⟩ := bufferIndexFault_of_exec hf (runTurn_eng_next hr) ht
    · simp at hi
    · simp at hi
  | ctrl b => simp [Turn.isAgent] at ha

theorem Reachable.conformantInv {c : Cfg} {prog : List HostItem} {s : State} (hc : c.wf) (he : c.engine = .conformant)
    (h : Reachable c prog s) : s.ConformantInv := by
  induction h with
  | reset => exact (State.ConformantInv.resetWith hc he).frame
  | move t _ hm ih =>
    obtain ⟨ha, -, hr⟩ := hm
    exact ih.runTurn ha hr

/-- Settles O45: reachable states meet the conformant invariant, and from such a state no turn leaves the buffer. -/
theorem conformantRunsNeverLeaveTheBuffer : Obligations.ConformantRunsNeverLeaveTheBuffer := by
  intro c prog s hc he hr
  have h : s.ConformantInv := hr.conformantInv hc he
  refine ⟨h.within, h.inv.busyOk, fun k => ?_⟩
  cases hr with
  | reset => simp [State.resetWith]
  | move t hu hm =>
    obtain ⟨ha, hf, hrun⟩ := hm
    exact (hu.conformantInv hc he).no_bufferIndexFault hf ha hrun k

/-! ## The access matrix -/

theorem hwstateAfterStart_of_keep {s : State} (h : s.cfg.hwstateOnStart = .keep) : hwstateAfterStart s = s.hwstate := by
  rw [hwstateAfterStart, h]

/-- Settles O48, by what a row of the host can do (`exec_host_cases`): the rows that write shared state answer only while not busy. -/
theorem hostStepsRespectTheLock : Obligations.HostStepsRespectTheLock := by
  intro s u hr
  obtain ⟨i, p, c, hi, he⟩ := runTurn_host_next hr
  rcases exec_host_cases hi he with ⟨c', r, n, rfl⟩ | ⟨r, rfl, -⟩ | ⟨hb, k, v, -, rfl⟩ | ⟨hb, v, rfl⟩ | ⟨hb, rfl⟩ |
    ⟨hb, n, -, -, rfl⟩
  · exact ⟨rfl, .inl rfl, rfl, rfl, .inl rfl, .inl rfl, fun _ => rfl, id, id, fun _ => rfl⟩
  · exact ⟨rfl, .inl rfl, rfl, rfl, .inl rfl, .inl rfl, fun _ => rfl, id, id, fun _ => rfl⟩
  · exact ⟨rfl, .inl rfl, rfl, rfl, .inl rfl, .inl rfl, fun _ => rfl, id, id, fun h => by simp [h] at hb⟩
  · exact ⟨rfl, .inl rfl, rfl, rfl, .inl rfl, .inl rfl, fun _ => rfl, id, id, fun h => by simp [h] at hb⟩
  · exact ⟨rfl, .inl rfl, rfl, rfl, .inl rfl, .inl rfl, fun _ => rfl, by simp, by simp, fun h => by simp [h] at hb⟩
  · exact ⟨rfl, .inr (by simp), rfl, rfl, .inr rfl, .inr rfl, hwstateAfterStart_of_keep (s := { s with prog := p, call := c }),
      by simp, by simp, fun h => by simp [h] at hb⟩

/-- START requested again (R142). -/
theorem State.ctrlWrite_imageStart_eq (s : State) : s.ctrlWrite imageStart .start = { s with
    en := true, ie := true, ea := false, sta := true, sto := false, pend := false, status := none,
    trace := s.trace ++ [.start] } := by
  simp [State.ctrlWrite, imageStart]

/-- What `rx_request` asks for is no event (R133). -/
theorem askedRequest_ne_ev (p : Prop) [Decidable p] (code d : Byte) :
    (if p then Request.recvAck else .recvNack) ≠ .ev code d := by
  split <;> simp

/-- Settles O49, by what a row of the sequencer can do (`exec_seq_cases`): it raises, or ends in one control write. -/
theorem sequencerStepsTouchOnlyTheirState : Obligations.SequencerStepsTouchOnlyTheirState := by
  intro s u hr hf
  obtain ⟨-, -, c, m, he, -⟩ := runTurn_seq_next hr
  have hcell : ∀ (d : Byte) (k : Nat), k ≠ s.cur.toNat → (s.buf.write s.cur.toNat d).read k = s.buf.read k :=
    fun d k hk => Memory.read_write_of_ne s.buf d hk
  rcases exec_seq_cases (decodeStatus_seqRow _ _) he with ⟨rfl, -⟩ | ⟨rfl, -⟩ | ⟨a, n, b, -, -, -, -, rfl⟩ |
    ⟨a, n, -, -, -, rfl⟩ | ⟨-, n, -, rfl⟩ | ⟨-, -, n, d, k, -, -, rfl⟩ | ⟨-, -, d, k, -, rfl⟩ | ⟨-, rfl⟩ | ⟨c, -, rfl⟩
  · exact ⟨⟨_, _, _, rfl⟩, .inl rfl, fun _ _ => rfl, nofun, fun _ => ⟨rfl, rfl⟩⟩
  · exact ⟨⟨_, _, _, rfl⟩, .inl rfl, fun _ _ => rfl, nofun, fun _ => ⟨rfl, rfl⟩⟩
  · exact ⟨⟨_, _, _, rfl⟩, .inr rfl, fun _ _ => rfl, fun _ => ⟨_, rfl, nofun⟩, fun h => absurd hf h⟩
  · exact ⟨⟨_, _, _, rfl⟩, .inr rfl, fun _ _ => rfl, fun _ => ⟨_, rfl, nofun⟩, fun h => absurd hf h⟩
  · exact ⟨⟨_, _, _, rfl⟩, .inr rfl, fun _ _ => rfl, fun _ => ⟨_, rfl, askedRequest_ne_ev _⟩, fun h => absurd hf h⟩
  · exact ⟨⟨_, _, _, rfl⟩, .inr rfl, hcell d, fun _ => ⟨_, rfl, askedRequest_ne_ev _⟩, fun h => absurd hf h⟩
  · exact ⟨⟨_, _, _, rfl⟩, .inr rfl, hcell d, fun _ => ⟨_, rfl, nofun⟩, fun h => absurd hf h⟩
  · rw [State.ctrlWrite_imageStart_eq]
    exact ⟨⟨_, _, _, rfl⟩, .inr rfl, fun _ _ => rfl, fun _ => ⟨_, rfl, nofun⟩, fun h => absurd hf h⟩
  · rw [State.fail_eq]
    exact ⟨⟨_, _, _, rfl⟩, .inl rfl, fun _ _ => rfl, fun _ => ⟨_, rfl, nofun⟩, fun h => absurd hf h⟩

/-- Settles O50, by what the engine's step does when it answers (`exec_engRaise_next`). -/
theorem engineStepsTouchOnlyThePort : Obligations.EngineStepsTouchOnlyThePort := by
  intro w s u hr
  obtain ⟨hp, hen, -, wc, rfl⟩ := exec_engRaise_next (runTurn_eng_next hr)
  exact ⟨hp, hen, rfl, rfl, rfl, rfl, rfl⟩

/-! ## A size that nothing has written -/

theorem advanceTx_of_no_size {s : State} (h : s.size = none) : advanceTx s = .error .uninitialisedRead := by
  rw [advanceTx, h]

theorem rxRequest_of_no_size {s : State} (h : s.size = none) : rxRequest s = .error .uninitialisedRead := by
  rw [rxRequest, h]

/-- The byte received is not stored either: the fault replaces the whole step (R184). -/
theorem execEvDatarAck_of_no_size {s : State} (h : s.size = none) (hc : s.cur.toNat < s.cfg.cap) :
    execEvDatarAck s = raised s .uninitialisedRead := by
  rcases storeReceived_cases s with ⟨hge, -⟩ | ⟨-, d, n, -, he⟩
  · omega
  · have hrx : rxRequest { s with buf := s.buf.write s.cur.toNat d, draws := n, cur := s.cur + 1 } = .error .uninitialisedRead :=
      rxRequest_of_no_size h
    simp only [execEvDatarAck, he, hrx, commit]

/-- Settles O12: each of these steps commits a body that reads `SIZE`. -/
theorem unwrittenSizeStopsTheSequencer : Obligations.UnwrittenSizeStopsTheSequencer := by
  intro i s hs hi
  have hsend : ∀ a, commit s (advanceTx { s with cur := a }) = .next (s.raise .uninitialisedRead) := fun a => by
    rw [advanceTx_of_no_size (s := { s with cur := a }) hs]; rfl
  rcases hi with rfl | rfl | rfl | rfl | rfl | ⟨rfl, hc⟩
  · exact hsend 0
  · exact hsend 0
  · exact hsend s.cur
  · exact hsend s.cur
  · simp only [exec, execEvSlarAck, rxRequest_of_no_size hs]; rfl
  · exact execEvDatarAck_of_no_size hs hc

/-! ## What no rule reads -/

/-- A state with other values in the four places that no rule reads: `WCOL`, `CLKDIV`, `TRACE`, and `STATUS` while no event is pending. -/
def State.setUnread (s : State) (wc : Bool) (k : Option Nat) (tr : List Request) (st : Option Byte) : State :=
  { s with wcol := wc, clkdiv := k, trace := tr, status := st }

section
variable (s : State) (wc : Bool) (k : Option Nat) (tr : List Request) (st : Option Byte)

@[simp] theorem State.setUnread_cfg : (s.setUnread wc k tr st).cfg = s.cfg := rfl
@[simp] theorem State.setUnread_buf : (s.setUnread wc k tr st).buf = s.buf := rfl
@[simp] theorem State.setUnread_size : (s.setUnread wc k tr st).size = s.size := rfl
@[simp] theorem State.setUnread_cur : (s.setUnread wc k tr st).cur = s.cur := rfl
@[simp] theorem State.setUnread_ok : (s.setUnread wc k tr st).ok = s.ok := rfl
@[simp] theorem State.setUnread_en : (s.setUnread wc k tr st).en = s.en := rfl
@[simp] theorem State.setUnread_ie : (s.setUnread wc k tr st).ie = s.ie := rfl
@[simp] theorem State.setUnread_pend : (s.setUnread wc k tr st).pend = s.pend := rfl
@[simp] theorem State.setUnread_data : (s.setUnread wc k tr st).data = s.data := rfl
@[simp] theorem State.setUnread_status : (s.setUnread wc k tr st).status = st := rfl
@[simp] theorem State.setUnread_prog : (s.setUnread wc k tr st).prog = s.prog := rfl
@[simp] theorem State.setUnread_call : (s.setUnread wc k tr st).call = s.call := rfl

end

/-- Two states that differ at most in what no rule reads. -/
def Agrees (s t : State) : Prop :=
  ∃ wc k tr st, t = s.setUnread wc k tr st ∧ (s.pend = true → st = s.status)

/-- Two states agree when they look alike without that state. -/
theorem agrees_iff_readable {s t : State} : Agrees s t ↔ s.readable = t.readable := by
  constructor
  · rintro ⟨wc, k, tr, st, rfl, hst⟩
    cases hp : s.pend <;> simp_all [State.readable, State.setUnread]
  · intro h
    refine ⟨t.wcol, t.clkdiv, t.trace, t.status, ?_, fun hp => ?_⟩
    · cases s
      cases t
      simp_all [State.readable, State.setUnread]
    · have hpt : t.pend = true := (congrArg State.pend h).symm.trans hp
      have hs : (if s.pend then s.status else none) = if t.pend then t.status else none := congrArg State.status h
      rw [if_pos hp, if_pos hpt] at hs
      exact hs.symm

namespace Agrees

variable {s t : State}

theorem raise (h : Agrees s t) (r : Fault) : Agrees (s.raise r) (t.raise r) := by
  obtain ⟨wc, k, tr, st, rfl, hst⟩ := h
  exact ⟨wc, k, tr, st, rfl, hst⟩

/-- A control write reads no other field, and one with `IF = 1` leaves no event pending. -/
theorem ctrlWrite (h : Agrees s t) (m : CtrlImage) (q : Request) : Agrees (s.ctrlWrite m q) (t.ctrlWrite m q) := by
  obtain ⟨wc, k, tr, st, rfl, hst⟩ := h
  refine ⟨_, _, _, _, rfl, fun hp => ?_⟩
  simp only [State.ctrlWrite_pend, Bool.and_eq_true, Bool.not_eq_true'] at hp
  simp [hp.2, hst hp.1]

theorem setCur (h : Agrees s t) (a : Byte) : Agrees { s with cur := a } { t with cur := a } := by
  obtain ⟨wc, k, tr, st, rfl, hst⟩ := h
  exact ⟨wc, k, tr, st, rfl, hst⟩

theorem fail (h : Agrees s t) (c : Byte) : Agrees (s.fail c) (t.fail c) := by
  obtain ⟨wc, k, tr, st, rfl, hst⟩ := h
  exact ctrlWrite (s := { s with hwstate := some c }) ⟨wc, k, tr, st, rfl, hst⟩ imageIdle .idle

theorem failEvent (h : Agrees s t) (e : Event) : Agrees (s.failEvent e) (t.failEvent e) := by
  have hcfg : t.cfg = s.cfg := by obtain ⟨wc, k, tr, st, rfl, -⟩ := h; rfl
  rw [State.failEvent, State.failEvent, hcfg]
  exact h.fail _

theorem initCommand (h : Agrees s t) : Agrees s.initCommand t.initCommand := by
  obtain ⟨wc, k, tr, st, rfl, hst⟩ := h
  exact ctrlWrite (s := { s with clkdiv := some s.cfg.clkdivInit }) ⟨wc, _, tr, st, rfl, hst⟩ imageInit .init

theorem startCommand (h : Agrees s t) : Agrees s.startCommand t.startCommand := by
  obtain ⟨wc, k, tr, st, rfl, hst⟩ := h
  exact ctrlWrite (s := { s with ok := false, cur := 0, hwstate := hwstateAfterStart s }) ⟨wc, k, tr, st, rfl, hst⟩
    imageStart .start

theorem returned (h : Agrees s t) (r : Returned) : Agrees (s.returned r) (t.returned r) := by
  obtain ⟨wc, k, tr, st, rfl, hst⟩ := h
  exact ⟨wc, k, tr, st, rfl, hst⟩

theorem returnCell (h : Agrees s t) (v : Byte) : Agrees (s.returnCell v) (t.returnCell v) := by
  obtain ⟨wc, k, tr, st, rfl, hst⟩ := h
  unfold State.returnCell
  rw [State.setUnread_call]
  split
  · exact ⟨wc, k, tr, st, rfl, hst⟩
  · exact ⟨wc, k, tr, st, rfl, hst⟩
  · exact ⟨wc, k, tr, st, rfl, hst⟩

theorem resultAfterPoll (h : Agrees s t) (size : Byte) :
    Agrees (Machine.resultAfterPoll size s) (Machine.resultAfterPoll size t) := by
  obtain ⟨wc, k, tr, st, rfl, hst⟩ := h
  simp only [Machine.resultAfterPoll, State.pollOk_eq, State.setUnread_ok]
  split
  · split
    · exact ⟨wc, k, tr, st, rfl, hst⟩
    · exact ⟨wc, k, tr, st, rfl, hst⟩
  · exact ⟨wc, k, tr, st, rfl, hst⟩

/-- A register read from both states gives the same byte, free or not: they have drawn alike. -/
theorem orDraw (h : Agrees s t) (o : Option Byte) :
    ∃ b u v, Machine.orDraw o s = (b, u) ∧ Machine.orDraw o t = (b, v) ∧ Agrees u v ∧ u.cfg = s.cfg := by
  obtain ⟨wc, k, tr, st, rfl, hst⟩ := h
  cases o with
  | none => exact ⟨_, _, _, rfl, rfl, ⟨wc, k, tr, st, rfl, hst⟩, rfl⟩
  | some b => exact ⟨_, _, _, rfl, rfl, ⟨wc, k, tr, st, rfl, hst⟩, rfl⟩

end Agrees

/-- Two choices by one test are related when their branches are. -/
theorem ite_alike {α : Type} {R : α → α → Prop} {p : Prop} [Decidable p] {a a' b b' : α} (ha : p → R a a')
    (hb : ¬p → R b b') : R (if p then a else b) (if p then a' else b') := by
  split
  · next h => exact ha h
  · next h => exact hb h

/-- Two answers alike: next states that agree, or the same refusal. -/
inductive AnswersAlike : Result → Result → Prop where
  | next {u v : State} (h : Agrees u v) : AnswersAlike (.next u) (.next v)
  | refused (r : Refusal) : AnswersAlike (.refused r) (.refused r)

/-- Two bodies of a sequencer's step alike: states that agree, or the same reason to raise. -/
inductive BodiesAlike : Except Fault State → Except Fault State → Prop where
  | ok {u v : State} (h : Agrees u v) : BodiesAlike (.ok u) (.ok v)
  | error (r : Fault) : BodiesAlike (.error r) (.error r)

section
variable {s t : State}

namespace AnswersAlike

variable {x y : Result}

theorem raised (h : Agrees s t) (r : Fault) : AnswersAlike (Machine.raised s r) (Machine.raised t r) := .next (h.raise r)

theorem whenNotBusy (h : Agrees s t) (hxy : AnswersAlike x y) :
    AnswersAlike (Machine.whenNotBusy s x) (Machine.whenNotBusy t y) := by
  have hie : t.ie = s.ie := by obtain ⟨wc, k, tr, st, rfl, -⟩ := h; rfl
  rw [Machine.whenNotBusy, Machine.whenNotBusy, hie]
  exact ite_alike (fun _ => raised h _) fun _ => hxy

theorem whenCellExists (h : Agrees s t) (i : Nat) (hxy : AnswersAlike x y) :
    AnswersAlike (Machine.whenCellExists s i x) (Machine.whenCellExists t i y) := by
  have hcfg : t.cfg = s.cfg := by obtain ⟨wc, k, tr, st, rfl, -⟩ := h; rfl
  rw [Machine.whenCellExists, Machine.whenCellExists, hcfg]
  exact ite_alike (fun _ => hxy) fun _ => raised h _

theorem pollThen (h : Agrees s t) (c : Call) {u v : State} (huv : Agrees u v) :
    AnswersAlike (Machine.pollThen s c u) (Machine.pollThen t c v) := by
  obtain ⟨wc, k, tr, st, rfl, hst⟩ := h
  rw [Machine.pollThen, Machine.pollThen, State.pollBusy_eq, State.pollBusy_eq, State.setUnread_ie]
  exact ite_alike (fun _ => .next ⟨wc, k, tr, st, rfl, hst⟩) fun _ => .next huv

theorem commit (h : Agrees s t) {a b : Except Fault State} (hab : BodiesAlike a b) :
    AnswersAlike (Machine.commit s a) (Machine.commit t b) := by
  cases hab with
  | ok huv => exact .next huv
  | error r => exact raised h r

/-- From one answer, what the other is; neither is a stop. -/
theorem answers (h : AnswersAlike x y) :
    (∀ u, x = .next u → ∃ v, y = .next v ∧ u.readable = v.readable) ∧
    (∀ r, x = .refused r → y = .refused r) ∧ ∀ r, x ≠ .fault r := by
  cases h with
  | next huv => exact ⟨fun u hu => by cases hu; exact ⟨_, rfl, agrees_iff_readable.mp huv⟩, by simp, by simp⟩
  | refused r => exact ⟨by simp, fun _ => id, by simp⟩

end AnswersAlike

namespace BodiesAlike

theorem advanceTx (h : Agrees s t) : BodiesAlike (Machine.advanceTx s) (Machine.advanceTx t) := by
  obtain ⟨wc, k, tr, st, rfl, hst⟩ := h
  simp only [Machine.advanceTx, State.setUnread_size, State.setUnread_buf, State.setUnread_cur]
  split
  · exact .error _
  · refine ite_alike (fun _ => ?_) fun _ =>
      .ok (Agrees.ctrlWrite (s := { s with ok := true }) ⟨wc, k, tr, st, rfl, hst⟩ _ _)
    split
    · exact .error _
    · next b _ =>
      exact .ok (Agrees.ctrlWrite (s := { s with data := some b, cur := s.cur + 1 }) ⟨wc, k, tr, st, rfl, hst⟩ _ _)

theorem rxRequest (h : Agrees s t) : BodiesAlike (Machine.rxRequest s) (Machine.rxRequest t) := by
  have ht : t.size = s.size ∧ t.cur = s.cur := by obtain ⟨wc, k, tr, st, rfl, -⟩ := h; exact ⟨rfl, rfl⟩
  simp only [Machine.rxRequest, ht.1, ht.2]
  split
  · exact .error _
  · exact ite_alike (fun _ => .ok (h.ctrlWrite _ _)) fun _ => .ok (h.ctrlWrite _ _)

theorem storeReceived (h : Agrees s t) : BodiesAlike (Machine.storeReceived s) (Machine.storeReceived t) := by
  obtain ⟨d, u, v, hu, hv, huv, -⟩ := h.orDraw s.data
  obtain ⟨wc, k, tr, st, rfl, -⟩ := h
  simp only [Machine.storeReceived, State.setUnread_cfg, State.setUnread_cur, State.setUnread_data, hu, hv]
  refine ite_alike (fun _ => ?_) fun _ => .error _
  obtain ⟨wc, k, tr, st, rfl, hst⟩ := huv
  exact .ok ⟨wc, k, tr, st, rfl, hst⟩

end BodiesAlike

/-- A read of `HSTATE`, by an access or by `get_state()`. -/
theorem execHrdHstate_alike (h : Agrees s t) : AnswersAlike (execHrdHstate s) (execHrdHstate t) := by
  obtain ⟨b, u, v, hu, hv, huv, -⟩ := h.orDraw s.hwstate
  have ht : t.hwstate = s.hwstate := by obtain ⟨wc, k, tr, st, rfl, -⟩ := h; rfl
  simp only [execHrdHstate, ht, hu, hv]
  exact .next (huv.returned _)

/-- The host's rows read nothing of what two agreeing states may differ in. -/
theorem exec_host_alike {i : Instr} (hi : hostRow i = true) (h : Agrees s t) : AnswersAlike (exec i s) (exec i t) := by
  have hst := h
  obtain ⟨wc, k, tr, st, rfl, hp⟩ := hst
  cases i with
  | hwrHbuf j v => exact .whenCellExists h j (.whenNotBusy h (.next ⟨wc, k, tr, st, rfl, hp⟩))
  | hrdHbuf j =>
    refine .whenCellExists h j (.whenNotBusy h ?_)
    rw [State.setUnread_buf]
    split
    · exact .raised h _
    · exact .next (h.returnCell _)
  | hwrHsize v => exact .whenNotBusy h (.next ⟨wc, k, tr, st, rfl, hp⟩)
  | hrdHsize =>
    refine .whenNotBusy h ?_
    rw [State.setUnread_size]
    split
    · exact .raised h _
    · exact .next (h.returned _)
  | hrdHstat => exact .next (h.returned _)
  | hrdHstate => exact execHrdHstate_alike h
  | hwrHcmdInit => exact .whenNotBusy h (.next h.initCommand)
  | hwrHcmdStart =>
    refine .whenNotBusy h ?_
    rw [State.setUnread_size, State.setUnread_cfg]
    split
    · exact .raised h _
    · exact ite_alike (fun _ => .next h.startCommand) fun _ => .raised h _
  | hwrHcmdReserved v => exact .whenNotBusy h (.raised h _)
  | hostUnmapped w reg v => exact .raised h _
  | init => exact .whenNotBusy h (.next h.initCommand)
  | busy => exact .next (h.returned _)
  | startTransfer bytes size =>
    refine ite_alike (fun _ => ?_) fun _ => .raised h _
    rw [State.setUnread_cfg]
    split
    · exact .refused _
    · exact .pollThen h _ ⟨wc, k, tr, st, rfl, hp⟩
  | startTransferRepeat => exact .pollThen h _ ⟨wc, k, tr, st, rfl, hp⟩
  | getResult size =>
    exact ite_alike (fun _ => .pollThen h _ (h.resultAfterPoll size)) fun _ => .raised h _
  | getState => exact execHrdHstate_alike h
  | _ => simp [hostRow] at hi

/-- The sequencer's rows, once `STATUS` has been sampled, neither. -/
theorem exec_seq_alike {i : Instr} (hi : seqRow i = true) (h : Agrees s t) : AnswersAlike (exec i s) (exec i t) := by
  cases i with
  | evStart => exact .commit h (.advanceTx (h.setCur 0))
  | evRepStart => exact .commit h (.advanceTx (h.setCur 0))
  | evSlawAck => exact .commit h (.advanceTx h)
  | evDatawAck => exact .commit h (.advanceTx h)
  | evSlarAck => exact .commit h (.rxRequest h)
  | evDatarAck =>
    refine .commit h ?_
    have hbody := BodiesAlike.storeReceived h
    generalize storeReceived s = x at hbody ⊢
    generalize storeReceived t = y at hbody ⊢
    cases hbody with
    | @ok u v huv =>
      have hcur : v.cur = u.cur := by obtain ⟨wc, k, tr, st, rfl, -⟩ := huv; rfl
      simp only [hcur]
      exact .rxRequest (huv.setCur _)
    | error r => exact .error r
  | evDatarNack =>
    refine .commit h ?_
    have hbody := BodiesAlike.storeReceived h
    generalize storeReceived s = x at hbody ⊢
    generalize storeReceived t = y at hbody ⊢
    cases hbody with
    | @ok u v huv =>
      obtain ⟨wc, k, tr, st, rfl, hst⟩ := huv
      exact .ok (Agrees.ctrlWrite (s := { u with ok := true }) ⟨wc, k, tr, st, rfl, hst⟩ _ _)
    | error r => exact .error r
  | evArbLost => exact .next (h.ctrlWrite _ _)
  | evSlawNack => exact .next (h.failEvent _)
  | evSlarNack => exact .next (h.failEvent _)
  | evDatawNack => exact .next (h.failEvent _)
  | evBusError => exact .next (h.failEvent _)
  | evOther c => exact .next (h.fail c)
  | _ => simp [seqRow] at hi

/-- An engine that may raise anything reads `PEND` and `EN` only: it is the contract that reads `TRACE` (R169). -/
theorem exec_engRaise_alike (code d : Byte) (he : s.cfg.engine = .any) (h : Agrees s t) :
    AnswersAlike (exec (.engRaise code d) s) (exec (.engRaise code d) t) := by
  obtain ⟨wc, k, tr, st, rfl, -⟩ := h
  have hmay : ∀ trace, engineMay s.cfg trace code = true := fun trace => by simp [engineMay, he]
  simp only [exec, execEngRaise, State.setUnread_cfg, State.setUnread_pend, State.setUnread_en, hmay, if_true]
  exact ite_alike (fun _ => .refused _) fun _ => .next ⟨_, _, _, _, rfl, fun _ => rfl⟩

end

/-- What the host's turn finds is told by the configuration, the program and the call in progress. -/
theorem fetchHost_setUnread (s : State) (wc : Bool) (k : Option Nat) (tr : List Request) (st : Option Byte) :
    fetchHost (s.setUnread wc k tr st) = (fetchHost s).map fun p => (p.1, p.2.setUnread wc k tr st) := by
  have hprog : fetchProgram (s.setUnread wc k tr st) = (fetchProgram s).map fun p => (p.1, p.2.setUnread wc k tr st) := by
    simp only [fetchProgram, State.setUnread_prog, State.setUnread_cfg]
    split
    · rfl
    · split <;> rfl
    · rfl
  simp only [fetchHost, State.setUnread_call, State.setUnread_cfg, hprog]
  split <;> rfl

theorem runTurn_host_alike {s t : State} (h : Agrees s t) : AnswersAlike (runTurn .host s) (runTurn .host t) := by
  obtain ⟨wc, k, tr, st, rfl, hst⟩ := h
  simp only [runTurn, fetch, fetchHost_setUnread]
  cases hf : fetchHost s with
  | error r => exact .refused r
  | ok p =>
    obtain ⟨i, v⟩ := p
    obtain ⟨hi, q, c, rfl⟩ := fetchHost_ok (s := s) hf
    exact exec_host_alike hi ⟨wc, k, tr, st, rfl, hst⟩

/-- The sequencer samples `STATUS` only with an event pending, where the two states hold the same. -/
theorem runTurn_seq_alike {s t : State} (h : Agrees s t) : AnswersAlike (runTurn .seq s) (runTurn .seq t) := by
  obtain ⟨c, u, v, hu, hv, huv, -⟩ := h.orDraw s.status
  obtain ⟨wc, k, tr, st, rfl, hst⟩ := h
  simp only [runTurn, fetch, fetchSeq, State.setUnread_pend, State.setUnread_ie, State.setUnread_status,
    State.setUnread_cfg]
  by_cases hg : (s.pend && s.ie) = true
  · obtain ⟨hp, -⟩ := Bool.and_eq_true_iff.mp hg
    obtain rfl := hst hp
    simp only [hg, if_true, hu, hv]
    exact exec_seq_alike (decodeStatus_seqRow _ _) huv
  · simp only [hg]
    exact .refused _

/-- Every turn of an agent answers alike from two states that agree. -/
theorem runTurn_alike {a : Turn} {s t : State} (ha : a.isAgent = true) (he : s.cfg.engine = .any) (h : Agrees s t) :
    AnswersAlike (runTurn a s) (runTurn a t) := by
  cases a with
  | host => exact runTurn_host_alike h
  | seq => exact runTurn_seq_alike h
  | eng w => exact exec_engRaise_alike _ _ he h
  | ctrl b => simp [Turn.isAgent] at ha

/-- Settles O52: the turns answer alike (`runTurn_alike`), and an answer is a next state or a refusal. -/
theorem unreadStateChangesNoOutcome : Obligations.UnreadStateChangesNoOutcome := by
  intro a s t ha he h
  exact (runTurn_alike ha he (agrees_iff_readable.mpr h)).answers

end Sys2Proof.Machine
end

section
/-! PROOFS. The family of 30_encoding.md: decoder and encoder in both directions, and what a placed word makes the next step run. -/

namespace Sys2Proof

/-! ## Words and bytes -/

/-- Decoding the bytes of a word that fits its carrier is decoding the word. -/
theorem decode_bytesOfWord {c : Cfg} {k : Carrier} {w : Nat} (h : w < 2 ^ (8 * carrierBytes c k)) :
    decode c k (bytesOfWord (carrierBytes c k) w) = decodeWord c k w := by
  rw [decode, if_pos (bytesOfWord_length _ _), wordOfBytes_bytesOfWord _ _ h]

theorem lt_of_decodeHostAcc_ok {c : Cfg} {x : Nat} {i : Instr} (h : decodeHostAcc c x = .ok i) :
    x < 2 ^ (9 + c.hostMap.regBits) := by
  unfold decodeHostAcc at h
  split at h
  · assumption
  · cases h

theorem decodeEng_ok {w : Nat} {i : Instr} (h : decodeEng w = .ok i) :
    w < 2 ^ 16 ∧ i = .engRaise (BitVec.ofNat 8 (w / 2 ^ 8)) (BitVec.ofNat 8 w) := by
  unfold decodeEng at h
  split at h
  · next hw => cases h; exact ⟨hw, rfl⟩
  · cases h

theorem decodeWord_status_ok {c : Cfg} {w : Nat} {i : Instr} (h : decodeWord c .status w = .ok i) :
    ∃ b : Byte, w = b.toNat ∧ i = decodeStatus c b := by
  simp only [decodeWord] at h
  split at h
  · next hw => cases h; exact ⟨BitVec.ofNat 8 w, (Nat.mod_eq_of_lt hw).symm, rfl⟩
  · cases h

theorem decodeWord_ctrl_ok {c : Cfg} {w : Nat} {i : Instr} (h : decodeWord c .ctrl w = .ok i) :
    ∃ b : Byte, w = b.toNat ∧ decodeCtrl c b = .ok i := by
  simp only [decodeWord] at h
  split at h
  · next hw => exact ⟨BitVec.ofNat 8 w, (Nat.mod_eq_of_lt hw).symm, h⟩
  · cases h

theorem decodeWord_status_toNat (c : Cfg) (b : Byte) : decodeWord c .status b.toNat = .ok (decodeStatus c b) := by
  simp only [decodeWord, if_pos b.isLt, BitVec.ofNat_toNat, BitVec.setWidth_eq]

theorem decodeWord_ctrl_toNat (c : Cfg) (b : Byte) : decodeWord c .ctrl b.toNat = decodeCtrl c b := by
  simp only [decodeWord, if_pos b.isLt, BitVec.ofNat_toNat, BitVec.setWidth_eq]

/-- A decoder accepts only words that fit the bytes of its carrier (R70). -/
theorem lt_of_decodeWord_ok {c : Cfg} {k : Carrier} {w : Nat} {i : Instr} (h : decodeWord c k w = .ok i) :
    w < 2 ^ (8 * carrierBytes c k) := by
  cases k with
  | status => obtain ⟨b, rfl, -⟩ := decodeWord_status_ok h; exact b.isLt
  | ctrl => obtain ⟨b, rfl, -⟩ := decodeWord_ctrl_ok h; exact b.isLt
  | hostAcc =>
    refine (lt_of_decodeHostAcc_ok h).trans_le (Nat.pow_le_pow_right (by decide) ?_)
    simp only [carrierBytes]
    omega
  | engStep => exact (decodeEng_ok h).1

/-! ## Status codes -/

theorem encodeWord_eventInstr (c : Cfg) (e : Event) :
    encodeWord c (eventInstr e) = some (.status, (c.codes.code e).toNat) := by cases e <;> rfl

theorem eventInstr_wf (c : Cfg) (e : Event) : (eventInstr e).wf c = true := by cases e <;> rfl

theorem evOther_wf_iff {c : Cfg} {b : Byte} : (Instr.evOther b).wf c = true ↔ ∀ e, c.codes.code e ≠ b := by
  simp [Instr.wf, Event.mem_all]

theorem decodeWord_status_code {c : Cfg} (h : c.wf) (e : Event) :
    decodeWord c .status (c.codes.code e).toNat = .ok (eventInstr e) := by
  rw [decodeWord_status_toNat, decodeStatus_code h]

/-- Every status byte decodes to a well-formed event that encodes to it (R75). -/
theorem decodeStatus_reencodes (c : Cfg) (b : Byte) :
    (decodeStatus c b).wf c = true ∧ encodeWord c (decodeStatus c b) = some (.status, b.toNat) := by
  cases hd : decodeEvent c.codes b with
  | some e =>
    obtain rfl := decodeEvent_some hd
    rw [decodeStatus, hd]
    exact ⟨eventInstr_wf c e, encodeWord_eventInstr c e⟩
  | none =>
    rw [decodeStatus, hd]
    exact ⟨evOther_wf_iff.mpr (decodeEvent_none hd), rfl⟩

/-! ## Control images -/

/-- The image that an instruction writes (R78). -/
def imageOf : Instr → Option CtrlImage
  | .imgInit => some imageInit
  | .imgIdle => some imageIdle
  | .imgStart => some imageStart
  | .imgGo => some imageGo
  | .imgGoAck => some imageGoAck
  | .imgStop => some imageStop
  | _ => none

theorem ctrlByte_inj {l : CtrlLayout} (h : l.positions.Nodup) {m k : CtrlImage} :
    ctrlByte l m = ctrlByte l k ↔ m = k :=
  ⟨ctrlByte_injective h, congrArg _⟩

/-- Under distinct positions the byte of an image decodes to its instruction. -/
theorem decodeCtrl_image {c : Cfg} (h : c.wf) {i : Instr} {m : CtrlImage} (hi : imageOf i = some m) :
    decodeCtrl c (ctrlByte c.layout m) = .ok i := by
  obtain ⟨-, -, -, hl, -⟩ := h
  unfold imageOf at hi
  split at hi <;> cases hi <;> simp only [decodeCtrl, ctrlByte_inj hl] <;> rfl

/-- What the control decoder accepts is the byte of an image (R82). -/
theorem decodeCtrl_ok {c : Cfg} {b : Byte} {i : Instr} (h : decodeCtrl c b = .ok i) :
    ∃ m, imageOf i = some m ∧ b = ctrlByte c.layout m := by
  unfold decodeCtrl at h
  split_ifs at h with h1 h2 h3 h4 h5 h6 <;> cases h <;> exact ⟨_, rfl, ‹_›⟩

theorem image_reencodes (c : Cfg) {i : Instr} {m : CtrlImage} (hi : imageOf i = some m) :
    i.wf c = true ∧ encodeWord c i = some (.ctrl, (ctrlByte c.layout m).toNat) := by
  unfold imageOf at hi
  split at hi <;> cases hi <;> exact ⟨rfl, rfl⟩

/-! ## Host accesses -/

/-- A register that exists is the one named by its number, and by no other (R79). -/
theorem eq_regNumber_iff {c : Cfg} (h : c.wf) {r : HostReg} (hr : ∀ i, r = .hbuf i → i < c.cap) {n : Nat} :
    n = regNumber c.hostMap r ↔ regNamed c n = some r :=
  ⟨fun hn => hn ▸ (regNamed_regNumber h r hr).1, fun hn => (regNumber_of_regNamed h hn).1.symm⟩

theorem mem_cells_iff {c : Cfg} (h : c.wf) {n : Nat} :
    n ∈ c.hostMap.cells c.cap ↔ ∃ i, regNamed c n = some (.hbuf i) := by
  constructor
  · intro hn
    obtain ⟨i, hi, rfl⟩ := List.getElem_of_mem hn
    have hc : i < c.cap := h.2.2.2.2.1 ▸ hi
    exact ⟨i, (eq_regNumber_iff h (by rintro _ ⟨⟩; exact hc)).mp (regNumber_cell h hc).2⟩
  · rintro ⟨i, hn⟩
    obtain ⟨rfl, hc⟩ := regNumber_of_regNamed h hn
    obtain ⟨hj, he⟩ := regNumber_cell h (hc i rfl)
    exact he ▸ List.getElem_mem hj

/-- A number reaches a register in a direction exactly if the map makes it writable, or readable (R79, R110). -/
theorem isSome_accessNamed {c : Cfg} (h : c.wf) (w : Bool) (n : Nat) (v : Byte) :
    ((regNamed c n).bind (accessNamed w v)).isSome =
      if w then c.hostMap.writable c.cap n else c.hostMap.readable c.cap n := by
  have hcmd : n = c.hostMap.hcmd ↔ _ := eq_regNumber_iff h (r := .hcmd) nofun
  have hstat : n = c.hostMap.hstat ↔ _ := eq_regNumber_iff h (r := .hstat) nofun
  have hstate : n = c.hostMap.hstate ↔ _ := eq_regNumber_iff h (r := .hstate) nofun
  have hsize : n = c.hostMap.hsize ↔ _ := eq_regNumber_iff h (r := .hsize) nofun
  rw [Bool.eq_iff_iff]
  cases w with
  | true =>
    simp only [if_true, HostMap.writable, Bool.or_eq_true, beq_iff_eq, List.contains_iff_mem, hcmd, hsize,
      mem_cells_iff h]
    cases regNamed c n with
    | none => simp
    | some r => cases r <;> simp [accessNamed]
  | false =>
    simp only [Bool.false_eq_true, if_false, HostMap.readable, Bool.or_eq_true, beq_iff_eq, List.contains_iff_mem,
      hstat, hstate, hsize, mem_cells_iff h]
    cases regNamed c n with
    | none => simp
    | some r => cases r <;> simp [accessNamed]

/-- A register's access, in a direction that reaches it, is what its access word decodes to (R79). -/
theorem decodeHostAcc_named {c : Cfg} (h : c.wf) {w : Bool} {v : Byte} {r : HostReg} {a : Access}
    (hr : ∀ i, r = .hbuf i → i < c.cap) (ha : accessNamed w v r = some a) :
    decodeHostAcc c (accessWord c.hostMap w (regNumber c.hostMap r) v) = .ok (accessInstr c a) := by
  obtain ⟨hn, hlt⟩ := regNamed_regNumber h r hr
  rw [decodeHostAcc_accessWord _ _ _ _ hlt, decodeAccess, hn, Option.bind_some, ha]

theorem hostUnmapped_wf_iff {c : Cfg} (h : c.wf) {w : Bool} {n : Nat} {v : Byte} :
    (Instr.hostUnmapped w n v).wf c = true ↔
      n < 2 ^ c.hostMap.regBits ∧ (regNamed c n).bind (accessNamed w v) = none := by
  rw [← Option.isNone_iff_eq_none, ← Option.not_isSome, isSome_accessNamed h]
  simp [Instr.wf]

theorem hwrHcmdReserved_wf_iff {c : Cfg} {v : Byte} : (Instr.hwrHcmdReserved v).wf c = true ↔ v ≠ 1 ∧ v ≠ 2 := by
  simp only [Instr.wf, Bool.and_eq_true, bne_iff_ne]

theorem accessInstr_wf {c : Cfg} {w : Bool} {v : Byte} {r : HostReg} {a : Access}
    (hr : ∀ i, r = .hbuf i → i < c.cap) (ha : accessNamed w v r = some a) : (accessInstr c a).wf c = true := by
  cases r with
  | hcmd =>
    cases w <;> cases ha
    simp only [accessInstr]
    split_ifs with h1 h2
    · rfl
    · rfl
    · exact hwrHcmdReserved_wf_iff.mpr ⟨h1, h2⟩
  | hstat => cases w <;> cases ha; rfl
  | hstate => cases w <;> cases ha; rfl
  | hsize => cases w <;> cases ha <;> rfl
  | hbuf i => cases w <;> cases ha <;> exact decide_eq_true (hr i rfl)

theorem encodeWord_accessInstr_wr (c : Cfg) (r : HostReg) (v : Byte) :
    encodeWord c (accessInstr c (.wr r v)) = some (.hostAcc, accessWord c.hostMap true (regNumber c.hostMap r) v) := by
  cases r with
  | hcmd =>
    simp only [accessInstr]
    split_ifs with h1 h2
    · rw [h1]; rfl
    · rw [h2]; rfl
    · rfl
  | hstat => rfl
  | hstate => rfl
  | hsize => rfl
  | hbuf i => rfl

theorem encodeWord_accessInstr_rd (c : Cfg) (r : HostReg) :
    encodeWord c (accessInstr c (.rd r)) = some (.hostAcc, accessWord c.hostMap false (regNumber c.hostMap r) 0) := by
  cases r <;> rfl

theorem encodeWord_accessInstr {c : Cfg} {w : Bool} {v : Byte} {r : HostReg} {a : Access}
    (ha : accessNamed w v r = some a) :
    encodeWord c (accessInstr c a) =
      some (.hostAcc, accessWord c.hostMap w (regNumber c.hostMap r) (if w then v else 0)) := by
  cases w with
  | true => cases r <;> cases ha <;> exact encodeWord_accessInstr_wr c _ v
  | false => cases r <;> cases ha <;> exact encodeWord_accessInstr_rd c _

/-- What an access triple decodes to is well formed if its number fits, and encodes to the triple's word; the data of a read that reaches a
register is written 0 (R79). -/
theorem decodeAccess_reencodes {c : Cfg} (h : c.wf) (w : Bool) {n : Nat} (v : Byte) (hn : n < 2 ^ c.hostMap.regBits) :
    (decodeAccess c w n v).wf c = true ∧
      ∃ u, encodeWord c (decodeAccess c w n v) = some (.hostAcc, accessWord c.hostMap w n u) ∧
        (u = v ∨ w = false ∧ u = 0) := by
  unfold decodeAccess
  split
  · next a ha =>
    obtain ⟨r, hr, hra⟩ := Option.bind_eq_some_iff.mp ha
    obtain ⟨rfl, hc⟩ := regNumber_of_regNamed h hr
    refine ⟨accessInstr_wf hc hra, _, encodeWord_accessInstr hra, ?_⟩
    cases w
    · exact .inr ⟨rfl, rfl⟩
    · exact .inl rfl
  · next ha => exact ⟨(hostUnmapped_wf_iff h).mpr ⟨hn, ha⟩, v, rfl, .inl rfl⟩

/-- Every word within an access word's bits is the word of a triple (R79). -/
theorem exists_accessWord (m : HostMap) {x : Nat} (hx : x < 2 ^ (9 + m.regBits)) :
    ∃ w n v, n < 2 ^ m.regBits ∧ x = accessWord m w n v := by
  have h9 : 2 ^ (9 + m.regBits) = 2 * 2 ^ m.regBits * 2 ^ 8 := by ring
  have h8 : 2 ^ (8 + m.regBits) = 2 ^ 8 * 2 ^ m.regBits := Nat.pow_add ..
  have hq : x / 2 ^ 8 < 2 * 2 ^ m.regBits := Nat.div_lt_of_lt_mul (by rw [Nat.mul_comm, ← h9]; exact hx)
  by_cases hw : x / 2 ^ 8 < 2 ^ m.regBits
  · refine ⟨false, x / 2 ^ 8, BitVec.ofNat 8 x, hw, ?_⟩
    simp only [accessWord, BitVec.toNat_ofNat, Bool.toNat_false]
    omega
  · refine ⟨true, x / 2 ^ 8 - 2 ^ m.regBits, BitVec.ofNat 8 x, by omega, ?_⟩
    simp only [accessWord, BitVec.toNat_ofNat, Bool.toNat_true, h8]
    omega

/-- The word of a read: bit `w` is clear, and clearing its data bits leaves the word of the same read with data 0. -/
theorem accessWord_read (m : HostMap) {n : Nat} (v : Byte) (hn : n < 2 ^ m.regBits) :
    accessWord m false n v < 2 ^ (8 + m.regBits) ∧ accessWord m false n v / 2 ^ 8 * 2 ^ 8 = accessWord m false n 0 := by
  have h8 : 2 ^ (8 + m.regBits) = 2 ^ 8 * 2 ^ m.regBits := Nat.pow_add ..
  have hv := v.isLt
  simp only [accessWord, Bool.toNat_false, h8]
  constructor
  · omega
  · simp
    omega

theorem decodeHostAcc_reencodes {c : Cfg} (h : c.wf) {x : Nat} {i : Instr} (hd : decodeHostAcc c x = .ok i) :
    i.wf c = true ∧ (encodeWord c i = some (.hostAcc, x) ∨
      x < 2 ^ (8 + c.hostMap.regBits) ∧ encodeWord c i = some (.hostAcc, x / 2 ^ 8 * 2 ^ 8)) := by
  obtain ⟨w, n, v, hn, rfl⟩ := exists_accessWord c.hostMap (lt_of_decodeHostAcc_ok hd)
  rw [decodeHostAcc_accessWord _ _ _ _ hn] at hd
  cases hd
  obtain ⟨hwf, u, he, rfl | ⟨rfl, rfl⟩⟩ := decodeAccess_reencodes h w v hn
  · exact ⟨hwf, .inl he⟩
  · obtain ⟨hlt, hz⟩ := accessWord_read c.hostMap v hn
    exact ⟨hwf, .inr ⟨hlt, hz ▸ he⟩⟩

/-! ## The engine's word -/

theorem decodeEng_engWord (code d : Byte) : decodeEng (engWord code d) = .ok (.engRaise code d) := by
  have h1 := code.isLt
  have h2 := d.isLt
  have hlt : engWord code d < 2 ^ 16 := by simp only [engWord]; omega
  have hcode : BitVec.ofNat 8 (engWord code d / 2 ^ 8) = code :=
    BitVec.eq_of_toNat_eq (by simp only [engWord, BitVec.toNat_ofNat]; omega)
  have hd : BitVec.ofNat 8 (engWord code d) = d :=
    BitVec.eq_of_toNat_eq (by simp only [engWord, BitVec.toNat_ofNat]; omega)
  rw [decodeEng, if_pos hlt, hcode, hd]

theorem decodeEng_reencodes (c : Cfg) {x : Nat} {i : Instr} (h : decodeEng x = .ok i) :
    i.wf c = true ∧ encodeWord c i = some (.engStep, x) := by
  obtain ⟨hx, rfl⟩ := decodeEng_ok h
  have he : engWord (BitVec.ofNat 8 (x / 2 ^ 8)) (BitVec.ofNat 8 x) = x := by
    simp only [engWord, BitVec.toNat_ofNat]
    omega
  exact ⟨rfl, congrArg (fun y => some (Carrier.engStep, y)) he⟩

/-! ## The round trips -/

/-- Decoding the encoder's word gives a well-formed instruction back. -/
theorem decodeWord_encodeWord {c : Cfg} (h : c.wf) {i : Instr} {k : Carrier} {x : Nat} (hi : i.wf c = true)
    (he : encodeWord c i = some (k, x)) : decodeWord c k x = .ok i := by
  have hcell : ∀ {n : Nat}, decide (n < c.cap) = true → ∀ j, HostReg.hbuf n = .hbuf j → j < c.cap := by
    rintro n hn j ⟨⟩
    exact of_decide_eq_true hn
  have himg : ∀ {m : CtrlImage}, imageOf i = some m → decodeWord c .ctrl (ctrlByte c.layout m).toNat = .ok i :=
    fun hm => (decodeWord_ctrl_toNat c _).trans (decodeCtrl_image h hm)
  cases i with
  | evStart => cases he; exact decodeWord_status_code h .start
  | evRepStart => cases he; exact decodeWord_status_code h .repStart
  | evSlawAck => cases he; exact decodeWord_status_code h .slawAck
  | evSlawNack => cases he; exact decodeWord_status_code h .slawNack
  | evDatawAck => cases he; exact decodeWord_status_code h .datawAck
  | evDatawNack => cases he; exact decodeWord_status_code h .datawNack
  | evArbLost => cases he; exact decodeWord_status_code h .arbLost
  | evSlarAck => cases he; exact decodeWord_status_code h .slarAck
  | evSlarNack => cases he; exact decodeWord_status_code h .slarNack
  | evDatarAck => cases he; exact decodeWord_status_code h .datarAck
  | evDatarNack => cases he; exact decodeWord_status_code h .datarNack
  | evBusError => cases he; exact decodeWord_status_code h .busError
  | evOther b => cases he; rw [decodeWord_status_toNat, decodeStatus_other (evOther_wf_iff.mp hi)]
  | imgInit | imgIdle | imgStart | imgGo | imgGoAck | imgStop => cases he; exact himg rfl
  | hwrHbuf n v => cases he; exact decodeHostAcc_named h (w := true) (r := .hbuf n) (hcell hi) rfl
  | hrdHbuf n => cases he; exact decodeHostAcc_named h (w := false) (r := .hbuf n) (hcell hi) rfl
  | hwrHsize v => cases he; exact decodeHostAcc_named h (w := true) (r := .hsize) nofun rfl
  | hrdHsize => cases he; exact decodeHostAcc_named h (w := false) (r := .hsize) nofun rfl
  | hrdHstat => cases he; exact decodeHostAcc_named h (w := false) (r := .hstat) nofun rfl
  | hrdHstate => cases he; exact decodeHostAcc_named h (w := false) (r := .hstate) nofun rfl
  | hwrHcmdInit => cases he; exact decodeHostAcc_named h (w := true) (r := .hcmd) nofun rfl
  | hwrHcmdStart => cases he; exact decodeHostAcc_named h (w := true) (r := .hcmd) nofun rfl
  | hwrHcmdReserved v =>
    cases he
    obtain ⟨h1, h2⟩ := hwrHcmdReserved_wf_iff.mp hi
    refine (decodeHostAcc_named h (w := true) (r := .hcmd) nofun rfl).trans ?_
    rw [accessInstr, if_neg h1, if_neg h2]
  | hostUnmapped w n v =>
    cases he
    obtain ⟨hn, hr⟩ := (hostUnmapped_wf_iff h).mp hi
    refine (decodeHostAcc_accessWord c w n v hn).trans ?_
    rw [decodeAccess, hr]
  | init | busy | startTransfer _ _ | startTransferRepeat | getResult _ | getState => cases he
  | engRaise code d => cases he; exact decodeEng_engWord code d

theorem encode_eq_some {c : Cfg} {i : Instr} {k : Carrier} {bytes : List Byte} (h : encode c i = some (k, bytes)) :
    ∃ x, encodeWord c i = some (k, x) ∧ bytes = bytesOfWord (carrierBytes c k) x := by
  unfold encode at h
  split at h
  · next x hx => cases h; exact ⟨x, hx, rfl⟩
  · cases h

/-- Settles O1: the encoder's word decodes to the instruction (`decodeWord_encodeWord`), and so it fits its carrier's bytes. -/
theorem encodeThenDecodeIsIdentity : Obligations.EncodeThenDecodeIsIdentity := by
  intro c i k bytes h hi he
  obtain ⟨x, hx, rfl⟩ := encode_eq_some he
  have hd : decodeWord c k x = .ok i := decodeWord_encodeWord h hi hx
  rw [decode_bytesOfWord (lt_of_decodeWord_ok hd), hd]

/-- Settles O2: one case for each carrier. -/
theorem decodedInstructionReencodes : Obligations.DecodedInstructionReencodes := by
  intro c k x i h hd
  cases k with
  | status =>
    obtain ⟨b, rfl, rfl⟩ := decodeWord_status_ok hd
    obtain ⟨hi, he⟩ := decodeStatus_reencodes c b
    exact ⟨hi, .inl he⟩
  | ctrl =>
    obtain ⟨b, rfl, hb⟩ := decodeWord_ctrl_ok hd
    obtain ⟨m, hm, rfl⟩ := decodeCtrl_ok hb
    obtain ⟨hi, he⟩ := image_reencodes c hm
    exact ⟨hi, .inl he⟩
  | hostAcc =>
    obtain ⟨hi, he⟩ := decodeHostAcc_reencodes h hd
    exact ⟨hi, he.imp_right fun he => ⟨rfl, he⟩⟩
  | engStep =>
    obtain ⟨hi, he⟩ := decodeEng_reencodes c hd
    exact ⟨hi, .inl he⟩

/-- Settles O3: a named code is found by injectivity, any other is the byte's own. -/
theorem statusByteDecodesByItsCode : Obligations.StatusByteDecodesByItsCode := by
  intro c b h
  exact ⟨fun e he => he ▸ decodeStatus_code h e, decodeStatus_other⟩

/-- Settles O4, by evaluation of the nine words. -/
theorem sampleWordsDecode : Obligations.SampleWordsDecode := by
  unfold Obligations.SampleWordsDecode
  decide

end Sys2Proof

namespace Sys2Proof.Machine

/-! ## The address byte -/

theorem addrByte_toNat (a : BitVec 7) (dir : Bool) : (addrByte a dir).toNat = 2 * a.toNat + dir.toNat := by
  have ha := a.isLt
  have hd := dir.toNat_lt
  have hshift : a.toNat <<< 1 = 2 * a.toNat := by rw [Nat.shiftLeft_eq, pow_one, Nat.mul_comm]
  have hor : a.toNat <<< 1 ||| dir.toNat = a.toNat <<< 1 + dir.toNat :=
    (Nat.shiftLeft_add_eq_or_of_lt (by omega) _).symm
  have hfit : a.toNat <<< 1 < 2 ^ 8 := by omega
  simp only [addrByte, BitVec.toNat_or, BitVec.toNat_shiftLeft, BitVec.toNat_setWidth, BitVec.toNat_ofBool]
  rw [Nat.mod_eq_of_lt (a := a.toNat) (by omega), Nat.mod_eq_of_lt hfit, Nat.mod_eq_of_lt (by omega), hor, hshift]

theorem addr7Of_addrByte (a : BitVec 7) (dir : Bool) : addr7Of (addrByte a dir) = a := by
  have hd := dir.toNat_lt
  apply BitVec.eq_of_toNat_eq
  rw [addr7Of, BitVec.extractLsb'_toNat, addrByte_toNat, Nat.shiftRight_eq_div_pow]
  omega

theorem dirOf_addrByte (a : BitVec 7) (dir : Bool) : dirOf (addrByte a dir) = dir := by
  rw [dirOf, BitVec.getLsbD, addrByte_toNat, Nat.testBit_zero]
  cases dir <;> simp [Nat.add_mod]

/-- Settles O5: the byte's number, from which both fields are read. -/
theorem addressByteHoldsAddressAndDirection : Obligations.AddressByteHoldsAddressAndDirection := by
  intro a dir
  refine ⟨addrByte_toNat a dir, addr7Of_addrByte a dir, dirOf_addrByte a dir, fun c => ?_⟩
  rw [isRead, dirOf_addrByte, beq_iff_eq]

/-! ## The word that a step is given -/

theorem decodeTableWord_lt {n w : Nat} {i : Instr} (h : decodeTableWord n w = some i) : w < 2 ^ n := by
  unfold decodeTableWord at h
  split at h
  · cases h
  · omega

theorem accepted_eq_some {x : Except DecodeError Instr} {i : Instr} : accepted x = some i ↔ x = .ok i := by
  cases x <;> simp [accepted]

theorem tableByteCarrier_cases (c : Cfg) (b : Byte) :
    tableByteCarrier c b = .status ∨ tableByteCarrier c b = .ctrl := by
  unfold tableByteCarrier
  split
  · exact .inr rfl
  · exact .inl rfl

/-- A 24-bit word of the opcode table is an access word (R79). -/
theorem decodeTableWord_access {w : Nat} {i : Instr} (h : decodeTableWord 24 w = some i) :
    decodeWord Cfg.default .hostAcc w = .ok i := by
  have hlt : w < 2 ^ 24 := decodeTableWord_lt h
  rw [decodeTableWord, if_neg (by omega), if_neg (by decide), if_neg (by decide), if_pos rfl, accepted_eq_some] at h
  exact (decode_bytesOfWord (c := Cfg.default) (k := .hostAcc) hlt).symm.trans h

/-- A 16-bit word is the engine's (R168). -/
theorem decodeTableWord_engine {w : Nat} {i : Instr} (h : decodeTableWord 16 w = some i) :
    i = .engRaise (BitVec.ofNat 8 (w / 2 ^ 8)) (BitVec.ofNat 8 w) := by
  have hlt : w < 2 ^ 16 := decodeTableWord_lt h
  rw [decodeTableWord, if_neg (by omega), if_neg (by decide), if_pos rfl, accepted_eq_some] at h
  exact (decodeEng_ok ((decode_bytesOfWord (c := Cfg.default) (k := .engStep) hlt).symm.trans h)).2

/-- An 8-bit word is decoded by the carrier the table means by its byte (log 12). -/
theorem decodeTableWord_byte {w : Nat} {i : Instr} (h : decodeTableWord 8 w = some i) :
    (tableByteCarrier Cfg.default (BitVec.ofNat 8 w) = .status ∧ i = decodeStatus Cfg.default (BitVec.ofNat 8 w)) ∨
    (tableByteCarrier Cfg.default (BitVec.ofNat 8 w) = .ctrl ∧ decodeCtrl Cfg.default (BitVec.ofNat 8 w) = .ok i) := by
  have hlt : w < 2 ^ 8 := decodeTableWord_lt h
  rw [decodeTableWord, if_neg (by omega), if_pos rfl, accepted_eq_some] at h
  rcases tableByteCarrier_cases Cfg.default (BitVec.ofNat 8 w) with hk | hk
  · rw [hk] at h
    have hd := (decode_bytesOfWord (c := Cfg.default) (k := .status) hlt).symm.trans h
    obtain ⟨b, rfl, rfl⟩ := decodeWord_status_ok hd
    rw [BitVec.ofNat_toNat, BitVec.setWidth_eq] at hk ⊢
    exact .inl ⟨hk, rfl⟩
  · rw [hk] at h
    have hd := (decode_bytesOfWord (c := Cfg.default) (k := .ctrl) hlt).symm.trans h
    obtain ⟨b, rfl, hb⟩ := decodeWord_ctrl_ok hd
    rw [BitVec.ofNat_toNat, BitVec.setWidth_eq] at hk ⊢
    exact .inr ⟨hk, hb⟩

/-! ## What a turn first in the schedule runs -/

theorem step_of_seq {s : State} {ts : List Turn} {c : Byte} (hf : s.fault = none) (hs : s.sched = .seq :: ts)
    (hp : s.pend = true) (hi : s.ie = true) (hc : s.status = some c) :
    step s = exec (decodeStatus s.cfg c) { s with sched := ts } := by
  rw [step_of_turn hf hs]
  exact runTurn_of_fetch (by simp [fetch, fetchSeq, orDraw, hp, hi, hc])

theorem step_of_eng {s : State} {ts : List Turn} {w : BitVec 16} (hf : s.fault = none) (hs : s.sched = .eng w :: ts) :
    step s = exec (.engRaise (w.extractLsb' 8 8) (w.extractLsb' 0 8)) { s with sched := ts } :=
  (step_of_turn hf hs).trans (runTurn_of_fetch rfl)

theorem step_of_ctrl {s : State} {ts : List Turn} {b : Byte} {i : Instr} (hf : s.fault = none)
    (hs : s.sched = .ctrl b :: ts) (hd : decodeCtrl s.cfg b = .ok i) : step s = exec i { s with sched := ts } := by
  rw [step_of_turn hf hs]
  exact runTurn_of_fetch (by simp [fetch, fetchCtrl, hd])

/-- The engine's turn takes the code and the data byte from where the word's decoder does. -/
theorem extractLsb'_ofNat_bytes (w : Nat) :
    (BitVec.ofNat 16 w).extractLsb' 8 8 = BitVec.ofNat 8 (w / 2 ^ 8) ∧
      (BitVec.ofNat 16 w).extractLsb' 0 8 = BitVec.ofNat 8 w := by
  constructor <;> apply BitVec.eq_of_toNat_eq <;>
    simp only [BitVec.extractLsb'_toNat, BitVec.toNat_ofNat, Nat.shiftRight_eq_div_pow] <;> omega

/-! ## Where a placed word stands -/

theorem withFetchWord_access (s : State) (w : Nat) :
    s.withFetchWord 24 w =
      { s with fault := none, call := .idle, prog := .access w :: s.prog, sched := .host :: s.sched } := rfl

theorem withFetchWord_engine (s : State) (w : Nat) :
    s.withFetchWord 16 w =
      { s with fault := none, pend := false, en := true, sched := .eng (BitVec.ofNat 16 w) :: s.sched } := rfl

theorem withFetchWord_status {s : State} {w : Nat} (h : tableByteCarrier s.cfg (BitVec.ofNat 8 w) = .status) :
    s.withFetchWord 8 w =
      { s with fault := none, status := some (BitVec.ofNat 8 w), pend := true, ie := true, sched := .seq :: s.sched } := by
  rw [State.withFetchWord, if_pos rfl, h]

theorem withFetchWord_ctrl {s : State} {w : Nat} (h : tableByteCarrier s.cfg (BitVec.ofNat 8 w) = .ctrl) :
    s.withFetchWord 8 w = { s with fault := none, sched := .ctrl (BitVec.ofNat 8 w) :: s.sched } := by
  rw [State.withFetchWord, if_pos rfl, h]

/-- Settles O9: a word is placed where its agent's turn, first in the schedule, fetches it. -/
theorem placedWordRunsNext : Obligations.PlacedWordRunsNext := by
  intro s w i hc
  refine ⟨fun h => ?_, fun h => ?_, fun h => ?_⟩
  · rw [withFetchWord_access]
    exact step_of_fetchProgram rfl rfl rfl (fetchProgram_of_access rfl (hc ▸ decodeTableWord_access h))
  · obtain ⟨hcode, hd⟩ := extractLsb'_ofNat_bytes w
    rw [withFetchWord_engine, decodeTableWord_engine h, ← hcode, ← hd]
    exact step_of_eng rfl rfl
  · rcases decodeTableWord_byte h with ⟨hk, rfl⟩ | ⟨hk, hd⟩
    · rw [← hc] at hk ⊢
      rw [withFetchWord_status hk]
      exact .inl (step_of_seq rfl rfl rfl rfl rfl)
    · rw [← hc] at hk hd
      rw [withFetchWord_ctrl hk]
      exact .inr (step_of_ctrl rfl rfl hd)

end Sys2Proof.Machine
end

section
/-! PROOFS. The family of 40_host_interface.md: the register accesses, the first step of each call, and the calls run to their end. -/

namespace Sys2Proof.Machine

/-! ## The checks of an access and of a call -/

section
variable {s : State} {res : Result}

theorem whenNotBusy_of_busy (h : s.ie = true) : whenNotBusy s res = raised s .hostAccessWhileBusy := if_pos h

theorem whenNotBusy_of_not_busy (h : s.ie = false) : whenNotBusy s res = res := if_neg (Bool.eq_false_iff.mp h)

theorem whenCellExists_of_lt {i : Nat} (h : i < s.cfg.cap) : whenCellExists s i res = res := if_pos h

theorem whenCellExists_of_le {i : Nat} (h : s.cfg.cap ≤ i) :
    whenCellExists s i res = raised s (.unmappedRegister (regNumber s.cfg.hostMap (.hbuf i))) := if_neg h.not_gt

theorem pollThen_of_busy {c : Call} {past : State} (h : s.ie = true) : pollThen s c past = .next { s with call := .held c } :=
  if_pos ((State.pollBusy_eq s).trans h)

theorem pollThen_of_not_busy {c : Call} {past : State} (h : s.ie = false) : pollThen s c past = .next past :=
  if_neg (by simp [h])

end

theorem sizeLegal_eq_false {c : Cfg} {n : Byte} (h : n.toNat < 1 ∨ c.cap < n.toNat) : sizeLegal c n = false := by
  rw [Bool.eq_false_iff, Ne, sizeLegal_iff]
  omega

/-! ## The accesses -/

theorem exec_hwrHbuf {s : State} {i : Nat} (hi : i < s.cfg.cap) (hb : s.ie = false) (v : Byte) :
    exec (.hwrHbuf i v) s = .next { s with buf := s.buf.write i v } :=
  (whenCellExists_of_lt hi).trans (whenNotBusy_of_not_busy hb)

theorem exec_hrdHbuf {s : State} {i : Nat} {v : Byte} (hi : i < s.cfg.cap) (hb : s.ie = false) (hv : s.buf.read i = some v) :
    exec (.hrdHbuf i) s = .next (s.returnCell v) := by
  refine (whenCellExists_of_lt hi).trans ((whenNotBusy_of_not_busy hb).trans ?_)
  rw [hv]

theorem exec_hrdHbuf_of_unwritten {s : State} {i : Nat} (hi : i < s.cfg.cap) (hb : s.ie = false) (hv : s.buf.read i = none) :
    exec (.hrdHbuf i) s = raised s .uninitialisedRead := by
  refine (whenCellExists_of_lt hi).trans ((whenNotBusy_of_not_busy hb).trans ?_)
  rw [hv]

theorem State.returnCell_of_not_reading {s : State} (v : Byte) (h : ∀ todo out, s.call ≠ .reading todo out) :
    s.returnCell v = s.returned (.byte v) := by
  unfold State.returnCell
  split
  · next hc => exact absurd hc (h _ _)
  · next hc => exact absurd hc (h _ _)
  · rfl

theorem State.returnCell_of_last {s : State} (v : Byte) {out : List Byte} (h : s.call = .reading [] out) :
    s.returnCell v = { s with call := .idle, ret := some (.result (some (out ++ [v])) true) } := by
  rw [State.returnCell, h]

theorem State.returnCell_of_more {s : State} (v : Byte) {a : Access} {todo : List Access} {out : List Byte}
    (h : s.call = .reading (a :: todo) out) : s.returnCell v = { s with call := .reading (a :: todo) (out ++ [v]) } := by
  rw [State.returnCell, h]

/-- Settles O22: a write below `CAP` while not busy is `Memory.write`, and the two checks raise. -/
theorem hostWritesOneCell : Obligations.HostWritesOneCell := by
  intro s i v
  refine ⟨fun hi hb => ⟨_, exec_hwrHbuf hi hb v, Memory.read_write _ _ _, rfl⟩, fun hi hb => ?_, fun hi _ => ?_⟩
  · exact (whenCellExists_of_lt hi).trans (whenNotBusy_of_busy hb)
  · exact whenCellExists_of_le hi

/-- Settles O23: the byte read goes where `State.returnCell` puts it, and the checks raise. -/
theorem hostReadsOneCell : Obligations.HostReadsOneCell := by
  intro s i
  refine ⟨fun v hi hb hv => ?_, fun hi hb => ?_, exec_hrdHbuf_of_unwritten, fun hi => whenCellExists_of_le hi⟩
  · rw [exec_hrdHbuf hi hb hv]
    refine ⟨fun hc => ?_, fun out hc => ?_, fun a todo out hc => ?_⟩
    · rw [State.returnCell_of_not_reading v hc]; rfl
    · rw [State.returnCell_of_last v hc]
    · rw [State.returnCell_of_more v hc]
  · exact (whenCellExists_of_lt hi).trans (whenNotBusy_of_busy hb)

theorem exec_hwrHsize {s : State} (hb : s.ie = false) (v : Byte) : exec (.hwrHsize v) s = .next { s with size := some v } :=
  whenNotBusy_of_not_busy hb

theorem exec_hrdHsize {s : State} {v : Byte} (hb : s.ie = false) (hs : s.size = some v) :
    exec .hrdHsize s = .next (s.returned (.byte v)) := by
  refine (whenNotBusy_of_not_busy hb).trans ?_
  rw [hs]

theorem exec_hrdHsize_of_unwritten {s : State} (hb : s.ie = false) (hs : s.size = none) :
    exec .hrdHsize s = raised s .uninitialisedRead := by
  refine (whenNotBusy_of_not_busy hb).trans ?_
  rw [hs]

/-- Settles O24: the write and the read while not busy, and R117's fault for both. -/
theorem hostWritesAndReadsTheSize : Obligations.HostWritesAndReadsTheSize := by
  intro s v
  exact ⟨fun hb => exec_hwrHsize hb v, exec_hrdHsize, exec_hrdHsize_of_unwritten, fun hb => whenNotBusy_of_busy hb,
    fun hb => whenNotBusy_of_busy hb⟩

/-- Settles O25: the byte read is `State.hstatByte`. -/
theorem statusReadShowsBusyAndOk : Obligations.StatusReadShowsBusyAndOk :=
  fun s => ⟨s.hstatByte, s.hstatByte_toNat, rfl⟩

theorem execHrdHstate_eq {s t : State} {v : Byte} (h : orDraw s.hwstate s = (v, t)) :
    execHrdHstate s = .next (t.returned (.byte v)) := by
  rw [execHrdHstate, h]

/-- Settles O26: `get_state()` is the read of `HSTATE` (R116), which takes a free byte where no code is recorded (log 6). -/
theorem recordedStateIsReadAtAnyTime : Obligations.RecordedStateIsReadAtAnyTime := by
  intro i s hi
  have he : exec i s = execHrdHstate s := by rcases hi with rfl | rfl <;> rfl
  rw [he]
  rcases orDraw_cases s.hwstate s with ⟨b, hb, hd⟩ | ⟨hn, b, hd⟩
  · refine ⟨fun v hv => ?_, fun hn => by simp [hn] at hb⟩
    cases hb.symm.trans hv
    exact execHrdHstate_eq hd
  · exact ⟨fun v hv => by simp [hv] at hn, fun _ => ⟨b, execHrdHstate_eq hd⟩⟩

/-- A second INIT command adds only its record (R106). -/
theorem State.initCommand_initCommand (s : State) :
    s.initCommand.initCommand = { s.initCommand with trace := s.initCommand.trace ++ [.init] } := by
  simp only [State.initCommand_eq]

/-- Settles O27: the access and the call are both the INIT command behind the busy check (R111). -/
theorem initConfiguresTheController : Obligations.InitConfiguresTheController := by
  intro i s hi
  have he : ∀ t, exec i t = whenNotBusy t (.next t.initCommand) := by rcases hi with rfl | rfl <;> exact fun _ => rfl
  refine ⟨fun hb => ⟨s.initCommand, ?_, s.initCommand_eq, ⟨rfl, rfl⟩, ?_⟩, fun hb => ?_⟩
  · rw [he, whenNotBusy_of_not_busy hb]
  · rw [he, whenNotBusy_of_not_busy s.initCommand_ie, s.initCommand_initCommand]
  · rw [he, whenNotBusy_of_busy hb]; rfl

theorem hwstateAfterStart_of_set {s : State} {v : Byte} (h : s.cfg.hwstateOnStart = .set v) :
    hwstateAfterStart s = some v := by
  rw [hwstateAfterStart, h]

theorem exec_hwrHcmdStart {s : State} {n : Byte} (hb : s.ie = false) (hs : s.size = some n)
    (hl : sizeLegal s.cfg n = true) : exec .hwrHcmdStart s = .next s.startCommand := by
  refine (whenNotBusy_of_not_busy hb).trans ?_
  simp only [hs, hl, if_true]

theorem exec_hwrHcmdStart_of_unwritten {s : State} (hb : s.ie = false) (hs : s.size = none) :
    exec .hwrHcmdStart s = raised s .uninitialisedRead := by
  refine (whenNotBusy_of_not_busy hb).trans ?_
  rw [hs]

theorem exec_hwrHcmdStart_of_outside {s : State} {n : Byte} (hb : s.ie = false) (hs : s.size = some n)
    (hl : sizeLegal s.cfg n = false) : exec .hwrHcmdStart s = raised s (.sizeOutOfRange n) := by
  refine (whenNotBusy_of_not_busy hb).trans ?_
  simp only [hs, hl, Bool.false_eq_true, if_false]

/-- Settles O28: the checks in order, and past them `State.startCommand`. -/
theorem startCommandChecksAndStarts : Obligations.StartCommandChecksAndStarts := by
  intro s
  refine ⟨fun hb => whenNotBusy_of_busy hb, exec_hwrHcmdStart_of_unwritten, fun n hb hs => ⟨fun hn => ?_, fun h1 hcap => ?_⟩⟩
  · exact exec_hwrHcmdStart_of_outside hb hs (sizeLegal_eq_false hn)
  · refine ⟨hwstateAfterStart s, none, hwstateAfterStart_of_keep, fun v => hwstateAfterStart_of_set, ?_⟩
    rw [exec_hwrHcmdStart hb hs ((sizeLegal_iff _ _).mpr ⟨h1, hcap⟩), State.startCommand_eq]

/-- Settles O29: each of these accesses raises, the reserved command behind the busy check, the cell's bound before it. -/
theorem reservedAndUnmappedAccessesRaise : Obligations.ReservedAndUnmappedAccessesRaise := by
  intro s w reg i v
  refine ⟨fun hb => ?_, fun hb => ?_, rfl, fun hi => ⟨?_, ?_⟩⟩
  · exact whenNotBusy_of_not_busy hb
  · exact whenNotBusy_of_busy hb
  · exact whenCellExists_of_le hi
  · exact whenCellExists_of_le hi

/-! ## The first step of a call -/

/-- Settles O30: the call's one poll shows `IE`. -/
theorem busyCallReturnsTheInterruptEnable : Obligations.BusyCallReturnsTheInterruptEnable := by
  intro s
  change Host.Outcome.next (s.returned (.flag s.pollBusy)) = _
  rw [State.pollBusy_eq]
  rfl

theorem exec_startTransfer_of_outside {s : State} {size : Byte} (h : sizeLegal s.cfg size = false) (bytes : List Byte) :
    exec (.startTransfer bytes size) s = raised s (.sizeOutOfRange size) :=
  if_neg (Bool.eq_false_iff.mp h)

/-- Past the size check, too few bytes have no list of accesses (log 16). -/
theorem exec_startTransfer_of_too_few {s : State} {bytes : List Byte} {size : Byte} (hl : sizeLegal s.cfg size = true)
    (h : s.cfg.bytesSuffice bytes size = false) : exec (.startTransfer bytes size) s = .refused .tooFewBytes := by
  simp only [exec, execStartTransfer, hl, if_true, startWrites_of_not_suffice h]

/-- The cells that `start_transfer` writes (R113): in the read direction the address byte's, in the write direction the packet's. -/
def transferCells (c : Cfg) (bytes : List Byte) (size : Byte) : List Nat :=
  List.range (if isRead c (bytes.getD 0 0) then 1 else size.toNat)

/-- Writes of cells, each with the byte that `f` gives it. -/
def cellWrites (f : Nat → Byte) (cells : List Nat) : List Access := cells.map fun k => .wr (.hbuf k) (f k)

/-- With legal operands `start_transfer` polls, and past the poll its writes remain (R113). -/
theorem exec_startTransfer {s : State} {bytes : List Byte} {size : Byte} (hl : sizeLegal s.cfg size = true)
    (h : s.cfg.bytesSuffice bytes size = true) :
    exec (.startTransfer bytes size) s = pollThen s (.startTransfer bytes size) { s with
      call := .writing (.wr .hsize size ::
        (cellWrites (bytes.getD · 0) (transferCells s.cfg bytes size) ++ [.wr .hcmd 0x02])) } := by
  simp only [exec, execStartTransfer, hl, if_true, startWrites_of_suffice ((sizeLegal_iff _ _).mp hl).1 h]
  rfl

theorem exec_startTransfer_of_not_busy {s : State} {bytes : List Byte} {size : Byte} (hl : sizeLegal s.cfg size = true)
    (h : s.cfg.bytesSuffice bytes size = true) (hb : s.ie = false) :
    exec (.startTransfer bytes size) s = .next { s with
      call := .writing (.wr .hsize size ::
        (cellWrites (bytes.getD · 0) (transferCells s.cfg bytes size) ++ [.wr .hcmd 0x02])) } :=
  (exec_startTransfer hl h).trans (pollThen_of_not_busy hb)

/-- Settles O31: the checks and the poll of the two start calls. -/
theorem startCallsCheckPollAndList : Obligations.StartCallsCheckPollAndList := by
  intro s bytes size
  refine ⟨fun h => exec_startTransfer_of_outside (sizeLegal_eq_false h) bytes, fun h1 hcap => ?_,
    fun hb => pollThen_of_busy hb, fun hb => pollThen_of_not_busy hb⟩
  have hl : sizeLegal s.cfg size = true := (sizeLegal_iff _ _).mpr ⟨h1, hcap⟩
  refine ⟨exec_startTransfer_of_too_few hl, fun h => ⟨fun hb => ?_, fun hb => ⟨_, ?_, rfl⟩⟩⟩
  · exact (exec_startTransfer hl h).trans (pollThen_of_busy hb)
  · exact exec_startTransfer_of_not_busy hl h hb

/-- With a size that the buffer holds `get_result` polls (R115). -/
theorem exec_getResult {s : State} {size : Byte} (h : size.toNat ≤ s.cfg.cap) :
    exec (.getResult size) s = pollThen s (.getResult size) (resultAfterPoll size s) := if_pos h

theorem resultAfterPoll_of_failure {s : State} (h : s.ok = false) (size : Byte) :
    resultAfterPoll size s = { s with call := .idle, ret := some (.result none false) } := if_neg (by simp [h])

theorem resultAfterPoll_of_empty {s : State} (h : s.ok = true) :
    resultAfterPoll 0 s = { s with call := .idle, ret := some (.result (some []) true) } := if_pos ((State.pollOk_eq s).trans h)

theorem resultAfterPoll_of_success {s : State} {size : Byte} (h : s.ok = true) (h0 : size ≠ 0) :
    resultAfterPoll size s = { s with call := .reading (resultReads size) [] } :=
  (if_pos ((State.pollOk_eq s).trans h)).trans (if_neg h0)

theorem exec_getResult_of_not_busy {s : State} {size : Byte} (h : size.toNat ≤ s.cfg.cap) (hb : s.ie = false) :
    exec (.getResult size) s = .next (resultAfterPoll size s) := (exec_getResult h).trans (pollThen_of_not_busy hb)

/-- Settles O32: the size check, the poll, and the three ways past it (`resultAfterPoll`). -/
theorem resultCallChecksPollsAndReads : Obligations.ResultCallChecksPollsAndReads := by
  intro s size
  refine ⟨fun h => if_neg h.not_ge, fun h => ⟨fun hb => ?_, fun hb ho => ?_, fun hb ho h0 => ?_, fun hb ho h0 => ?_⟩⟩
  · exact (exec_getResult h).trans (pollThen_of_busy hb)
  · rw [exec_getResult_of_not_busy h hb, resultAfterPoll_of_failure ho]
  · rw [exec_getResult_of_not_busy h hb, h0, resultAfterPoll_of_empty ho]
  · rw [exec_getResult_of_not_busy h hb, resultAfterPoll_of_success ho h0]
    rfl

/-! ## A call held at its poll -/

/-- A call that waits, with operands that pass its checks (R113, R114, R115). -/
inductive Waits (c : Cfg) : Call → Prop
  | startTransfer {bytes : List Byte} {size : Byte} (hl : sizeLegal c size = true) (h : c.bytesSuffice bytes size = true) :
      Waits c (.startTransfer bytes size)
  | startTransferRepeat : Waits c .startTransferRepeat
  | getResult {size : Byte} (h : size.toNat ≤ c.cap) : Waits c (.getResult size)

theorem exec_call_of_busy {s : State} {c : Call} (hw : Waits s.cfg c) (hb : s.ie = true) :
    exec (callInstr c) s = .next { s with call := .held c } := by
  cases hw with
  | startTransfer hl h => exact (exec_startTransfer hl h).trans (pollThen_of_busy hb)
  | startTransferRepeat => exact pollThen_of_busy hb
  | getResult h => exact (exec_getResult h).trans (pollThen_of_busy hb)

/-- One more poll of a held call: it is held as before (R118). -/
theorem step_of_held {s : State} {c : Call} {ts : List Turn} (hw : Waits s.cfg c) (hf : s.fault = none) (hb : s.ie = true)
    (hc : s.call = .held c) (hs : s.sched = .host :: ts) : step s = .next { s with sched := ts } := by
  rw [step_of_fetchHost hf hs (fetchHost_of_held (s := { s with sched := ts }) hc),
    exec_call_of_busy (s := { s with sched := ts, call := .idle }) hw hb, ← hc]

theorem runSteps_of_held {s : State} {c : Call} {k : Nat} {ts : List Turn} (hw : Waits s.cfg c) (hf : s.fault = none)
    (hb : s.ie = true) (hc : s.call = .held c) (hs : s.sched = List.replicate k .host ++ ts) :
    runSteps k s = .next { s with sched := ts } := by
  induction k generalizing s with
  | zero => rw [← show s.sched = ts from hs]; rfl
  | succ k ih =>
    rw [runSteps_succ k (step_of_held hw hf hb hc hs)]
    exact ih hw hf hb hc rfl

/-- Settles O33, by induction on the number of polls (`runSteps_of_held`). -/
theorem heldCallPollsWithoutEffect : Obligations.HeldCallPollsWithoutEffect := by
  intro s c k ts hf hb hc hs hcall
  have hw : Waits s.cfg c := by
    rcases hcall with ⟨bytes, size, rfl, h1, hcap, h⟩ | rfl | ⟨size, rfl, h⟩
    · exact .startTransfer ((sizeLegal_iff _ _).mpr ⟨h1, hcap⟩) h
    · exact .startTransferRepeat
    · exact .getResult h
  exact runSteps_of_held hw hf hb hc hs

/-! ## The steps of a start call -/

/-- A call's first step, with no call in progress. -/
theorem step_of_call {s : State} {c : Call} {rest : List HostItem} {ts : List Turn} (hf : s.fault = none)
    (hc : s.call = .idle) (hp : s.prog = .call c :: rest) (hs : s.sched = .host :: ts) :
    step s = exec (callInstr c) { s with sched := ts, prog := rest } := by
  rw [step_of_fetchProgram hf hs hc (fetchProgram_of_call hp), hc]

/-- The next access of a start call that is past its poll. -/
theorem step_of_writing {s : State} {a : Access} {todo : List Access} {ts : List Turn} (hf : s.fault = none)
    (hc : s.call = .writing (a :: todo)) (hs : s.sched = .host :: ts) :
    step s = exec (accessInstr s.cfg a) { s with sched := ts, call := writesLeft todo } :=
  step_of_fetchHost hf hs (fetchHost_of_writing (s := { s with sched := ts }) hc)

theorem step_of_cellWrite {s : State} {k : Nat} {v : Byte} {todo : List Access} {ts : List Turn} (hf : s.fault = none)
    (hb : s.ie = false) (hk : k < s.cfg.cap) (hc : s.call = .writing (.wr (.hbuf k) v :: todo)) (hs : s.sched = .host :: ts) :
    step s = .next { s with buf := s.buf.write k v, sched := ts, call := writesLeft todo } :=
  (step_of_writing hf hc hs).trans (exec_hwrHbuf (s := { s with sched := ts, call := writesLeft todo }) hk hb v)

theorem step_of_sizeWrite {s : State} {v : Byte} {todo : List Access} {ts : List Turn} (hf : s.fault = none)
    (hb : s.ie = false) (hc : s.call = .writing (.wr .hsize v :: todo)) (hs : s.sched = .host :: ts) :
    step s = .next { s with size := some v, sched := ts, call := writesLeft todo } :=
  (step_of_writing hf hc hs).trans (exec_hwrHsize (s := { s with sched := ts, call := writesLeft todo }) hb v)

/-- The START command as the last access of a start call. -/
theorem step_of_lastStart {s : State} {n : Byte} {ts : List Turn} (hf : s.fault = none) (hb : s.ie = false)
    (hn : s.size = some n) (hl : sizeLegal s.cfg n = true) (hc : s.call = .writing [.wr .hcmd 0x02])
    (hs : s.sched = .host :: ts) : step s = .next { s with sched := ts, call := .idle }.startCommand :=
  (step_of_writing hf hc hs).trans (exec_hwrHcmdStart (s := { s with sched := ts, call := .idle }) hb hn hl)

/-- The same with a size that nothing has written. -/
theorem step_of_lastStart_of_unwritten {s : State} {ts : List Turn} (hf : s.fault = none) (hb : s.ie = false)
    (hn : s.size = none) (hc : s.call = .writing [.wr .hcmd 0x02]) (hs : s.sched = .host :: ts) :
    step s = .next { s with fault := some .uninitialisedRead, sched := ts, call := .idle } :=
  (step_of_writing hf hc hs).trans (exec_hwrHcmdStart_of_unwritten (s := { s with sched := ts, call := .idle }) hb hn)

/-- A start call with an access left has not returned. -/
theorem writesLeft_append_cons (l : List Access) (a : Access) (todo : List Access) :
    writesLeft (l ++ a :: todo) = .writing (l ++ a :: todo) := by
  cases l <;> rfl

/-! ## The writes of start_transfer -/

/-- A byte that a list holds is the one `getD` gives, by which the accesses of a call are listed. -/
theorem getElem?_eq_some_getD {bytes : List Byte} {j : Nat} (h : j < bytes.length) : bytes[j]? = some (bytes.getD j 0) := by
  rw [List.getElem?_eq_getElem h, List.getD_eq_getElem _ _ h]

/-- The buffer after cells have been written in turn, each with the byte that `f` gives it. -/
def Memory.writeCells (m : Memory) (f : Nat → Byte) (cells : List Nat) : Memory :=
  cells.foldl (fun m k => m.write k (f k)) m

theorem Memory.read_writeCells (m : Memory) (f : Nat → Byte) (cells : List Nat) (j : Nat) :
    (m.writeCells f cells).read j = if j ∈ cells then some (f j) else m.read j := by
  induction cells generalizing m with
  | nil => simp [Memory.writeCells]
  | cons k cells ih =>
    rw [Memory.writeCells, List.foldl_cons, ← Memory.writeCells, ih, Memory.read_write]
    by_cases hj : j ∈ cells
    · simp [hj]
    · by_cases hk : j = k <;> simp [hj, hk]

/-- The cells' writes, one host step each (R100, R113). -/
theorem runSteps_cellWrites {s : State} {f : Nat → Byte} {cells : List Nat} {a : Access} {todo : List Access}
    {ts : List Turn} (hf : s.fault = none) (hb : s.ie = false) (hcells : ∀ k ∈ cells, k < s.cfg.cap)
    (hc : s.call = .writing (cellWrites f cells ++ a :: todo)) (hs : s.sched = List.replicate cells.length .host ++ ts) :
    runSteps cells.length s =
      .next { s with buf := s.buf.writeCells f cells, call := .writing (a :: todo), sched := ts } := by
  induction cells generalizing s with
  | nil =>
    rw [← show s.sched = ts from hs, ← show s.call = .writing (a :: todo) from hc]
    rfl
  | cons k cells ih =>
    obtain ⟨hk, hcells⟩ := List.forall_mem_cons.mp hcells
    rw [List.length_cons, runSteps_succ _ (step_of_cellWrite hf hb hk hc hs)]
    exact ih hf hb hcells (writesLeft_append_cons _ _ _) rfl

/-- The accesses of `start_transfer` past its poll (R113): the size, the cells, the START command. -/
theorem runSteps_startWrites {s : State} {f : Nat → Byte} {cells : List Nat} {size : Byte} {k : Nat} {ts : List Turn}
    (hf : s.fault = none) (hb : s.ie = false) (hcells : ∀ j ∈ cells, j < s.cfg.cap) (hk : cells.length = k)
    (hl : sizeLegal s.cfg size = true)
    (hc : s.call = .writing (.wr .hsize size :: (cellWrites f cells ++ [.wr .hcmd 0x02])))
    (hs : s.sched = List.replicate (k + 2) .host ++ ts) :
    runSteps (k + 2) s = .next
      { s with size := some size, buf := s.buf.writeCells f cells, sched := ts, call := .idle }.startCommand := by
  subst hk
  have hsched : s.sched = .host :: (List.replicate cells.length .host ++ .host :: ts) := by
    rw [hs, List.replicate_succ, List.replicate_succ', List.cons_append, List.append_assoc, List.singleton_append]
  refine Eq.trans (runSteps_succ _ (step_of_sizeWrite hf hb hc hsched)) ?_
  refine Eq.trans (runSteps_add _ 1 (runSteps_cellWrites hf hb hcells (writesLeft_append_cons _ _ _) rfl)) ?_
  exact runSteps_succ 0 (step_of_lastStart hf hb rfl hl rfl rfl)

/-- `start_transfer` is given a byte for each cell it writes. -/
theorem length_le_of_suffice {c : Cfg} {bytes : List Byte} {size : Byte} (h : c.bytesSuffice bytes size = true) :
    (if isRead c (bytes.getD 0 0) then 1 else size.toNat) ≤ bytes.length := by
  cases bytes with
  | nil => simp [Cfg.bytesSuffice] at h
  | cons b rest =>
    simp only [Cfg.bytesSuffice, Bool.or_eq_true, decide_eq_true_eq] at h
    split
    · simp
    · next hr => exact h.resolve_left hr

/-- Settles O34: the poll, then the accesses that remain (`runSteps_startWrites`). -/
theorem startTransferNetEffect : Obligations.StartTransferNetEffect := by
  intro s bytes size rest ts k hf hb hc hp h1 hcap h hk hs
  have hl : sizeLegal s.cfg size = true := (sizeLegal_iff _ _).mpr ⟨h1, hcap⟩
  have hlen : k ≤ bytes.length := hk ▸ length_le_of_suffice h
  have hkcap : k ≤ s.cfg.cap := by split at hk <;> omega
  have hcells : transferCells s.cfg bytes size = List.range k := by rw [transferCells, hk]
  have hpoll := (step_of_call hf hc hp hs).trans (exec_startTransfer_of_not_busy hl h hb)
  have hbound : ∀ j ∈ transferCells s.cfg bytes size, j < s.cfg.cap := fun j hj =>
    (List.mem_range.mp (hcells ▸ hj)).trans_le hkcap
  have hlength : (transferCells s.cfg bytes size).length = k := by rw [hcells, List.length_range]
  refine ⟨_, Eq.trans (runSteps_succ _ hpoll) (runSteps_startWrites hf hb hbound hlength hl rfl rfl), fun j => ?_,
    hwstateAfterStart_of_keep (s := s), fun v => hwstateAfterStart_of_set (s := s), ?_⟩
  · rw [State.startCommand_buf, Memory.read_writeCells, hcells]
    simp only [List.mem_range]
    split
    · next hj => exact (getElem?_eq_some_getD (hj.trans_le hlen)).symm
    · rfl
  · simp only [State.startCommand_eq]

/-- Settles O35: the poll, then the START command alone. -/
theorem startTransferRepeatNetEffect : Obligations.StartTransferRepeatNetEffect := by
  intro s n rest ts hf hb hc hp hs
  have hpoll : step s = .next { s with sched := .host :: ts, prog := rest, call := .writing [.wr .hcmd 0x02] } :=
    (step_of_call hf hc hp hs).trans (pollThen_of_not_busy hb)
  rw [runSteps_succ 1 hpoll]
  refine ⟨fun hn h1 hcap => ?_, fun hn => ?_⟩
  · have hl : sizeLegal s.cfg n = true := (sizeLegal_iff _ _).mpr ⟨h1, hcap⟩
    refine ⟨hwstateAfterStart s, none, hwstateAfterStart_of_keep, fun v => hwstateAfterStart_of_set, ?_⟩
    refine Eq.trans (runSteps_succ 0 (step_of_lastStart hf hb hn hl rfl rfl)) ?_
    rw [State.startCommand_eq, hc]
    rfl
  · rw [hc]
    exact ⟨_, runSteps_succ 0 (step_of_lastStart_of_unwritten hf hb hn rfl rfl), rfl⟩

/-! ## The reads of get_result -/

/-- Reads of cells in turn; `resultReads` are those of the first `size` cells (R115). -/
def cellReads (cells : List Nat) : List Access := cells.map fun k => .rd (.hbuf k)

/-- The next read of a `get_result` that is past its poll (R101, R115). -/
theorem step_of_reading {s : State} {k : Nat} {v : Byte} {todo : List Access} {out : List Byte} {ts : List Turn}
    (hf : s.fault = none) (hb : s.ie = false) (hk : k < s.cfg.cap) (hv : s.buf.read k = some v)
    (hc : s.call = .reading (.rd (.hbuf k) :: todo) out) (hs : s.sched = .host :: ts) :
    step s = .next ({ s with sched := ts, call := .reading todo out }.returnCell v) :=
  (step_of_fetchHost hf hs (fetchHost_of_reading hc)).trans
    (exec_hrdHbuf (s := { s with sched := ts, call := .reading todo out }) hk hb hv)

/-- The bytes of a list, each by its index. -/
theorem map_getD_range (bytes : List Byte) : (List.range bytes.length).map (bytes.getD · 0) = bytes :=
  List.ext_getElem (by simp) fun j _ hj => by rw [List.getElem_map, List.getElem_range, List.getD_eq_getElem _ _ hj]

/-- The reads of `get_result`, one host step each: the bytes read so far, then those of the cells in order, and the call has returned. -/
theorem runSteps_cellReads {s : State} {f : Nat → Byte} {cells : List Nat} {out : List Byte} {k : Nat} {ts : List Turn}
    (hf : s.fault = none) (hb : s.ie = false) (hcells : ∀ j ∈ cells, j < s.cfg.cap ∧ s.buf.read j = some (f j))
    (hk : cells.length = k) (h0 : k ≠ 0) (hc : s.call = .reading (cellReads cells) out)
    (hs : s.sched = List.replicate k .host ++ ts) :
    runSteps k s = .next { s with
      sched := ts, call := .idle, ret := some (.result (some (out ++ cells.map f)) true) } := by
  subst hk
  induction cells generalizing s out with
  | nil => exact absurd rfl h0
  | cons j cells ih =>
    obtain ⟨⟨hj, hv⟩, hcells⟩ := List.forall_mem_cons.mp hcells
    refine Eq.trans (runSteps_succ _ (step_of_reading hf hb hj hv hc hs)) ?_
    cases cells with
    | nil =>
      rw [State.returnCell_of_last _ rfl]
      rfl
    | cons i cells =>
      rw [State.returnCell_of_more _ rfl]
      refine Eq.trans (ih hf hb hcells rfl (Nat.succ_ne_zero _) rfl) ?_
      simp

/-- Settles O36: the poll, which decides by `OK`, then the reads that remain (`runSteps_cellReads`). -/
theorem getResultReturnsTheCells : Obligations.GetResultReturnsTheCells := by
  intro s size rest ts hf hb hc hp hcap
  have hpoll : ∀ ts', s.sched = .host :: ts' →
      step s = .next (resultAfterPoll size { s with sched := ts', prog := rest }) := fun ts' hs =>
    (step_of_call hf hc hp hs).trans (exec_getResult_of_not_busy (s := { s with sched := ts', prog := rest }) hcap hb)
  refine ⟨fun bytes ho hs hlen hread => ?_, fun ho hs => ?_⟩
  · refine Eq.trans (runSteps_succ _ (hpoll _ hs)) ?_
    by_cases h0 : size = 0
    · subst h0
      rw [resultAfterPoll_of_empty (s := { s with sched := _, prog := rest }) ho, List.length_eq_zero_iff.mp hlen, ← hc]
      rfl
    · have hbytes : (List.range size.toNat).map (bytes.getD · 0) = bytes := by
        rw [← hlen, map_getD_range]
      have hcells : ∀ j ∈ List.range size.toNat, j < s.cfg.cap ∧ s.buf.read j = some (bytes.getD j 0) := by
        intro j hj
        have hj : j < size.toNat := List.mem_range.mp hj
        exact ⟨hj.trans_le hcap, (hread j hj).trans (getElem?_eq_some_getD (hlen ▸ hj))⟩
      rw [resultAfterPoll_of_success (s := { s with sched := _, prog := rest }) ho h0]
      refine Eq.trans (runSteps_cellReads hf hb hcells List.length_range (fun hz => h0 (BitVec.eq_of_toNat_eq hz)) rfl rfl) ?_
      rw [List.nil_append, hbytes, ← hc]
  · rw [hpoll ts hs, resultAfterPoll_of_failure (s := { s with sched := ts, prog := rest }) ho, ← hc]

/-! ## What makes the block busy -/

/-- Settles O46, by what each agent's turn can do: from a state that is not busy only the START command of a host's row sets `IE`. -/
theorem onlyTheStartCommandMakesBusy : Obligations.OnlyTheStartCommandMakesBusy := by
  intro t s u ha hr hb hu
  cases t with
  | host =>
    obtain ⟨i, p, c, hi, he⟩ := runTurn_host_next hr
    rcases exec_host_cases hi he with ⟨_, _, _, rfl⟩ | ⟨_, rfl, -⟩ | ⟨-, _, _, -, rfl⟩ | ⟨-, _, rfl⟩ | ⟨-, rfl⟩ |
      ⟨-, n, hn, hl, rfl⟩
    · simp [hb] at hu
    · simp [hb] at hu
    · simp [hb] at hu
    · simp [hb] at hu
    · simp at hu
    · exact ⟨rfl, rfl, rfl, rfl, rfl, by simp, rfl, n, hn, (sizeLegal_iff _ _).mp hl⟩
  | seq =>
    obtain ⟨-, hbusy, -⟩ := runTurn_seq_next hr
    simp [hb] at hbusy
  | eng w =>
    obtain ⟨-, -, -, wc, rfl⟩ := exec_engRaise_next (runTurn_eng_next hr)
    simp [hb] at hu
  | ctrl b => simp [Turn.isAgent] at ha

end Sys2Proof.Machine
end

section
/-! PROOFS. The family of 41_sequencer_events.md: the sequencer's transitions, what ends a transfer, and whole transfers. -/

namespace Sys2Proof.Machine

/-! ## What each transition answers -/

section
variable {i : Instr} {s : State} {a n : Byte}

/-- A sending event runs `advance_tx` from the cursor it starts with (R135 to R138). -/
theorem exec_of_sendsFrom (hi : SendsFrom i s a) : exec i s = commit s (advanceTx { s with cur := a }) := by
  rcases hi with ⟨rfl, rfl | rfl⟩ | ⟨rfl, rfl | rfl⟩ <;> rfl

theorem exec_sends {b : Byte} (hi : SendsFrom i s a) (hs : s.size = some n) (hn : a.toNat < n.toNat)
    (hb : s.buf.read a.toNat = some b) : exec i s = .next (sent { s with cur := a } b) := by
  rw [exec_of_sendsFrom hi, advanceTx_sent (s := { s with cur := a }) hs hn hb, commit]

theorem exec_sends_of_end (hi : SendsFrom i s a) (hs : s.size = some n) (hn : n.toNat ≤ a.toNat) :
    exec i s = .next (stopped { s with cur := a }) := by
  rw [exec_of_sendsFrom hi, advanceTx_stopped (s := { s with cur := a }) hs hn, commit]

theorem exec_sends_of_unwritten (hi : SendsFrom i s a) (hs : s.size = some n) (hn : a.toNat < n.toNat)
    (hb : s.buf.read a.toNat = none) : exec i s = raised s .uninitialisedRead := by
  have he : advanceTx { s with cur := a } = .error .uninitialisedRead := by
    simp only [advanceTx, hs, moreToSend, hn, hb, decide_true, if_true]
  rw [exec_of_sendsFrom hi, he, commit]

theorem exec_evSlarAck (hs : s.size = some n) : exec .evSlarAck s = .next (asked s n) := by
  rw [exec, execEvSlarAck, rxRequest_asked hs, commit]

/-- The byte received is stored, the cursor advanced, and the next byte asked for with the advanced cursor (R139). -/
theorem exec_evDatarAck (hs : s.size = some n) (hc : s.cur.toNat < s.cfg.cap) :
    ∃ d k, (∀ v, s.data = some v → d = v ∧ k = s.draws) ∧
      exec .evDatarAck s =
        .next (asked { s with buf := s.buf.write s.cur.toNat d, cur := s.cur + 1, draws := k } n) := by
  rcases storeReceived_cases s with ⟨hcap, -⟩ | ⟨-, d, k, hd, he⟩
  · omega
  · refine ⟨d, k, hd, ?_⟩
    have hrx := rxRequest_asked (s := { s with buf := s.buf.write s.cur.toNat d, cur := s.cur + 1, draws := k }) hs
    simp only [exec, execEvDatarAck, he, hrx, commit]

/-- The last byte is stored and the transfer ends in success (R141). -/
theorem exec_evDatarNack (hc : s.cur.toNat < s.cfg.cap) :
    ∃ d k, (∀ v, s.data = some v → d = v ∧ k = s.draws) ∧
      exec .evDatarNack s = .next (stopped { s with buf := s.buf.write s.cur.toNat d, draws := k }) := by
  rcases storeReceived_cases s with ⟨hcap, -⟩ | ⟨-, d, k, hd, he⟩
  · omega
  · refine ⟨d, k, hd, ?_⟩
    rw [exec, execEvDatarNack, he]
    simp [commit, stopped, State.ctrlWrite, imageStop]

theorem storeReceived_of_outside (hc : s.cfg.cap ≤ s.cur.toNat) :
    storeReceived s = .error (.bufferIndexFault s.cur.toNat) := if_neg hc.not_gt

theorem exec_evArbLost (s : State) : exec .evArbLost s = .next (s.ctrlWrite imageStart .start) := rfl

theorem exec_of_failsWith {c : Byte} (hi : FailsWith i s c) : exec i s = .next (s.fail c) := by
  rcases hi with rfl | ⟨rfl, rfl⟩ | ⟨rfl, rfl⟩ | ⟨rfl, rfl⟩ | ⟨rfl, rfl⟩ <;> rfl

end

/-- A cursor below a bound that fits a byte does not wrap when it advances. -/
theorem toNat_add_one {a : Byte} {m : Nat} (ha : a.toNat < m) (hm : m ≤ 255) : (a + 1).toNat = a.toNat + 1 := by
  rw [BitVec.toNat_add, show (1 : Byte).toNat = 1 from rfl]
  omega

/-! ## The transitions -/

/-- Settles O6: enabled, the turn samples `STATUS` (`step_of_seq`); else it finds no instruction. -/
theorem sequencerStepRunsTheSampledEvent : Obligations.SequencerStepRunsTheSampledEvent := by
  intro s ts hf hs
  refine ⟨fun c hp hb hc => step_of_seq hf hs hp hb hc, fun hd => ?_⟩
  have hfetch : fetch .seq { s with sched := ts } = .error .sequencerNotEnabled := by
    rcases hd with h | h <;> simp [fetch, fetchSeq, h]
  rw [step_of_turn hf hs, runTurn, hfetch]

/-- Settles O15: both events send from cursor 0. -/
theorem startEventsSendTheAddressByte : Obligations.StartEventsSendTheAddressByte := by
  intro i s n hi hs
  have hfrom : SendsFrom i s 0 := .inl ⟨rfl, hi⟩
  refine ⟨fun b hn hb => ⟨none, exec_sends hfrom hs hn hb⟩, fun hn hb => exec_sends_of_unwritten hfrom hs hn hb,
    fun hn => ⟨none, exec_sends_of_end hfrom hs hn.le⟩⟩

/-- Settles O16: both events send from the cursor as it stands. -/
theorem writeAcknowledgeSendsOrStops : Obligations.WriteAcknowledgeSendsOrStops := by
  intro i s n hi hs
  have hfrom : SendsFrom i s s.cur := .inr ⟨rfl, hi⟩
  refine ⟨fun b hn hb => ⟨toNat_add_one hn (Nat.le_of_lt_succ n.isLt), none, exec_sends hfrom hs hn hb⟩,
    fun hn hb => exec_sends_of_unwritten hfrom hs hn hb, fun hn => ⟨none, exec_sends_of_end hfrom hs hn⟩⟩

/-- Settles O17: the two answers of `rx_request` (`asked`). -/
theorem readAddressAcknowledgeRequestsAByte : Obligations.ReadAddressAcknowledgeRequestsAByte := by
  intro s n hs
  rw [exec_evSlarAck hs]
  refine ⟨fun hn => ⟨none, ?_⟩, fun hn => ⟨none, ?_⟩⟩
  · simp only [asked, hn, decide_true, if_true]
  · simp only [asked, hn.not_gt, decide_false, if_false]

/-- Settles O18: the store at the cursor, and `asked` with the cursor past it. -/
theorem receivedByteIsStoredAndTheNextRequested : Obligations.ReceivedByteIsStoredAndTheNextRequested := by
  intro s
  refine ⟨fun n hs hcap hc => ?_, fun hc => ?_⟩
  · obtain ⟨d, k, hd, he⟩ := exec_evDatarAck hs hc
    have hcur : (s.cur + 1).toNat = s.cur.toNat + 1 := toNat_add_one hc hcap
    refine ⟨_, d, he, hd, fun j => Memory.read_write _ _ _ _, hcur, ?_⟩
    simp only [asked, hcur]
  · rw [exec, execEvDatarAck, storeReceived_of_outside hc]
    rfl

/-- Settles O19: the store at the cursor, and `stopped`. -/
theorem lastReceivedByteEndsTheRead : Obligations.LastReceivedByteEndsTheRead := by
  intro s
  refine ⟨fun hc => ?_, fun hc => ?_⟩
  · obtain ⟨d, k, hd, he⟩ := exec_evDatarNack hc
    exact ⟨_, d, he, hd, fun j => Memory.read_write _ _ _ _, rfl⟩
  · rw [exec, execEvDatarNack, storeReceived_of_outside hc]
    rfl

/-- Settles O20: the START image is the whole step. -/
theorem arbitrationLossRequestsStartAgain : Obligations.ArbitrationLossRequestsStartAgain := by
  intro s
  exact ⟨none, by rw [exec_evArbLost, State.ctrlWrite_imageStart_eq]⟩

/-- Settles O21: each is the failure step (`State.fail_eq`) with its own code. -/
theorem failureEventsRecordTheirCode : Obligations.FailureEventsRecordTheirCode := by
  intro i c s hi
  have hfail : FailsWith i s c := by
    rcases hi with h | h | h | h | h
    · exact .inr (.inl h)
    · exact .inr (.inr (.inl h))
    · exact .inr (.inr (.inr (.inl h)))
    · exact .inr (.inr (.inr (.inr h)))
    · exact .inl h
  rw [exec_of_failsWith hfail, State.fail_eq]

/-! ## What ends a transfer -/

theorem failsWith_eventInstr {e : Event} {s : State} {c : Byte} (h : FailsWith (eventInstr e) s c) :
    c = s.cfg.codes.code e := by
  rcases h with h | ⟨h, rfl⟩ | ⟨h, rfl⟩ | ⟨h, rfl⟩ | ⟨h, rfl⟩
  · cases e <;> simp [eventInstr] at h
  · rw [eventInstr_injective (f := .slawNack) h]; rfl
  · rw [eventInstr_injective (f := .slarNack) h]; rfl
  · rw [eventInstr_injective (f := .datawNack) h]; rfl
  · rw [eventInstr_injective (f := .busError) h]; rfl

/-- The code that a failure event records is the one it was decoded from (R134, R181; log 21). -/
theorem failsWith_decodeStatus {s : State} {b c : Byte} (h : FailsWith (decodeStatus s.cfg b) s c) : c = b := by
  unfold decodeStatus at h
  split at h
  · next e he => exact (failsWith_eventInstr h).trans (decodeEvent_some he)
  · simpa [FailsWith, eq_comm] using h

/-- Settles O47: a host's turn while busy leaves `IE` (`hostStepsRespectTheLock`), the engine's never writes it, and of the sequencer's steps
only the two endings clear it. -/
theorem onlyTerminalSequencerStepsEndBusy : Obligations.OnlyTerminalSequencerStepsEndBusy := by
  intro t s u ha h hr hb hu
  have hwf : u.buf.wf := (h.runTurn ha hr).bufWf
  cases t with
  | host =>
    obtain ⟨-, -, -, -, -, -, -, -, -, hlock⟩ := hostStepsRespectTheLock s u hr
    rw [hlock hb] at hu
    simp [hb] at hu
  | eng w =>
    obtain ⟨-, -, -, wc, rfl⟩ := exec_engRaise_next (runTurn_eng_next hr)
    simp [hb] at hu
  | ctrl b => simp [Turn.isAgent] at ha
  | seq =>
    obtain ⟨hp, -, c, k, he, hc⟩ := runTurn_seq_next hr
    obtain ⟨b, hst⟩ := Option.isSome_iff_exists.mp (h.pendEvent hp).1
    obtain ⟨rfl, -⟩ := hc b hst
    rcases exec_seq_cases (decodeStatus_seqRow _ _) he with ⟨rfl, -⟩ | ⟨rfl, -⟩ | ⟨_, _, _, -, -, -, -, rfl⟩ |
      ⟨_, _, -, -, -, rfl⟩ | ⟨-, _, -, rfl⟩ | ⟨-, -, _, _, _, -, -, rfl⟩ | ⟨-, -, _, _, -, rfl⟩ | ⟨-, rfl⟩ | ⟨c', hfail, rfl⟩
    · simp [hb] at hu
    · simp [hb] at hu
    · simp [sent] at hu
    · exact ⟨rfl, rfl, rfl, hwf, .inl ⟨rfl, rfl, rfl, rfl, rfl⟩⟩
    · simp [asked] at hu
    · simp [asked] at hu
    · exact ⟨rfl, rfl, rfl, hwf, .inl ⟨rfl, rfl, rfl, rfl, rfl⟩⟩
    · simp [imageStart] at hu
    · rw [failsWith_decodeStatus (s := { s with draws := k }) hfail, State.fail_eq] at hwf ⊢
      exact ⟨rfl, rfl, rfl, hwf, .inr ⟨h.busyOk hb, rfl, hp, hst.symm, rfl, rfl, rfl⟩⟩

/-! ## An event and its step -/

/-- The engine may raise `e`: it raises anything, or its contract allows the event (R168, R169). -/
def EngineAllows (c : Cfg) (trace : List Request) (e : Event) : Prop := c.engine = .any ∨ e ∈ allowedEvents c trace

theorem engineMay_code {c : Cfg} {trace : List Request} {e : Event} (hc : c.wf) (h : EngineAllows c trace e) :
    engineMay c trace (c.codes.code e) = true := by
  cases he : c.engine with
  | any => simp only [engineMay, he]
  | conformant =>
    have hmem : e ∈ allowedEvents c trace := h.resolve_left (by simp [he])
    simp only [engineMay, he, decodeEvent_code hc.2.2.1 e, List.contains_iff_mem.mpr hmem]

/-- The state once the engine has raised a named event (R168), with the turns that are left. -/
def State.eventRaised (s : State) (e : Event) (d : Byte) (ts : List Turn) : State :=
  { s with
    status := some (s.cfg.codes.code e), data := some d, pend := true, wcol := Config.freeBit s.draws, draws := s.draws + 1,
    trace := s.trace ++ [.ev (s.cfg.codes.code e) d], sched := ts }

theorem State.Inv.eventRaised {s : State} (h : s.Inv) (e : Event) (d : Byte) (ts : List Turn) : (s.eventRaised e d ts).Inv :=
  ⟨h.cfgWf, h.bufWf, h.bufBound, h.curBound, h.busyOk, h.busyEn, h.busySize, fun _ => ⟨rfl, rfl⟩⟩

/-- A transfer is in flight and no event is pending: the next step of it is the engine's. -/
structure State.Waiting (s : State) : Prop where
  inv        : s.Inv
  noFault    : s.fault = none
  busy       : s.ie = true
  notPending : s.pend = false

namespace State.Waiting

variable {s t : State} {e : Event} {d : Byte} {ts : List Turn}

theorem step_eng (h : s.Waiting) (ha : EngineAllows s.cfg s.trace e) (hs : s.sched = engTurn s.cfg e d :: ts) :
    step s = .next (s.eventRaised e d ts) := by
  rw [step_of_turn h.noFault hs, runTurn_of_fetch (fetch_engTurn s.cfg e d { s with sched := ts })]
  exact (if_neg (by simp [h.notPending, h.inv.busyEn h.busy])).trans (if_pos (engineMay_code h.inv.cfgWf ha))

/-- The sequencer's step that follows runs the event just raised (R130). -/
theorem step_seq (h : s.Waiting) : step (s.eventRaised e d (.seq :: ts)) = exec (eventInstr e) (s.eventRaised e d ts) :=
  (step_of_seq (s := s.eventRaised e d (.seq :: ts)) h.noFault rfl rfl h.busy rfl).trans
    (congrArg (exec · (s.eventRaised e d ts)) (decodeStatus_code h.inv.cfgWf e))

/-- An event and its step are two steps of the run. -/
theorem runSteps_exchange (h : s.Waiting) (ha : EngineAllows s.cfg s.trace e) (hs : s.sched = engTurn s.cfg e d :: .seq :: ts)
    (he : exec (eventInstr e) (s.eventRaised e d ts) = .next t) (k : Nat) : runSteps (k + 2) s = runSteps k t := by
  rw [runSteps_succ (k + 1) (h.step_eng ha hs), runSteps_succ k (h.step_seq.trans he)]

/-- After a byte sent in answer to an event. -/
theorem sent (h : s.Waiting) {a : Byte} (ha : a.toNat < s.cfg.cap) (e : Event) (d : Byte) (ts : List Turn) (b : Byte) :
    (Machine.sent { s.eventRaised e d ts with cur := a } b).Waiting :=
  ⟨((h.inv.eventRaised e d ts).setCur ha.le).sent h.busy ha b, h.noFault, rfl, rfl⟩

/-- After the first byte of a read asked for (R140). -/
theorem asked (h : s.Waiting) (e : Event) (d : Byte) (ts : List Turn) (n : Byte) :
    (Machine.asked (s.eventRaised e d ts) n).Waiting :=
  ⟨(h.inv.eventRaised e d ts).asked h.busy n, h.noFault, rfl, rfl⟩

/-- After a byte stored and the next one asked for (R139). -/
theorem askedNext (h : s.Waiting) (hc : s.cur.toNat < s.cfg.cap) (e : Event) (d : Byte) (ts : List Turn) (v n : Byte) :
    (Machine.asked { s.eventRaised e d ts with buf := s.buf.write s.cur.toNat v, cur := s.cur + 1 } n).Waiting :=
  ⟨((h.inv.eventRaised e d ts).storeNext hc v _).asked h.busy n, h.noFault, rfl, rfl⟩

/-- After START asked for again (R142). -/
theorem startAgain (h : s.Waiting) (e : Event) (d : Byte) (ts : List Turn) :
    ((s.eventRaised e d ts).ctrlWrite imageStart .start).Waiting :=
  ⟨(h.inv.eventRaised e d ts).startAgain h.busy, h.noFault, rfl, by simp [imageStart]⟩

/-- A byte sent in answer to an event (R135 to R138). -/
theorem runSteps_sends (h : s.Waiting) (ha : EngineAllows s.cfg s.trace e) (hs : s.sched = engTurn s.cfg e d :: .seq :: ts)
    {a n b : Byte} (hi : SendsFrom (eventInstr e) s a) (hn : s.size = some n) (hlt : a.toNat < n.toNat)
    (hb : s.buf.read a.toNat = some b) (k : Nat) :
    runSteps (k + 2) s = runSteps k (Machine.sent { s.eventRaised e d ts with cur := a } b) :=
  h.runSteps_exchange ha hs (exec_sends (s := s.eventRaised e d ts) hi hn hlt hb) k

/-- A byte received with more to come (R139). -/
theorem runSteps_stores (h : s.Waiting) (ha : EngineAllows s.cfg s.trace .datarAck)
    (hs : s.sched = engTurn s.cfg .datarAck d :: .seq :: ts) {n : Byte} (hn : s.size = some n) (hc : s.cur.toNat < s.cfg.cap)
    (k : Nat) : runSteps (k + 2) s = runSteps k
      (Machine.asked { s.eventRaised .datarAck d ts with buf := s.buf.write s.cur.toNat d, cur := s.cur + 1 } n) := by
  obtain ⟨v, r, hv, he⟩ := exec_evDatarAck (s := s.eventRaised .datarAck d ts) hn hc
  obtain ⟨rfl, rfl⟩ := hv d rfl
  exact h.runSteps_exchange ha hs he k

/-- The last byte received (R141). -/
theorem runSteps_storesLast (h : s.Waiting) (ha : EngineAllows s.cfg s.trace .datarNack)
    (hs : s.sched = engTurn s.cfg .datarNack d :: .seq :: ts) (hc : s.cur.toNat < s.cfg.cap) :
    runSteps 2 s = .next (stopped { s.eventRaised .datarNack d ts with buf := s.buf.write s.cur.toNat d }) := by
  obtain ⟨v, r, hv, he⟩ := exec_evDatarNack (s := s.eventRaised .datarNack d ts) hc
  obtain ⟨rfl, rfl⟩ := hv d rfl
  exact h.runSteps_exchange ha hs he 0

/-- The packet of a transfer in flight is not empty (R107). -/
theorem size_pos (h : s.Waiting) {n : Byte} (hn : s.size = some n) : 1 ≤ n.toNat := by
  obtain ⟨m, hm, hl⟩ := h.inv.busySize h.busy
  cases hn.symm.trans hm
  exact ((sizeLegal_iff _ _).mp hl).1

end State.Waiting

/-! ## What a conformant engine may answer -/

section
variable {c : Cfg} {tr : List Request}

/-- A START request is answered by a START where the master does not hold the bus (R169). -/
theorem engineAllows_start (h : c.engine = .any ∨ busOwner c.codes tr ≠ .held) : EngineAllows c (tr ++ [.start]) .start := by
  refine h.imp id fun ho => ?_
  have hown : busOwner c.codes (tr ++ [.start]) = busOwner c.codes tr := by simp [busOwner, ownAfter]
  simp only [allowedEvents, hown, List.reverse_append, List.reverse_singleton, List.singleton_append, answersTo]
  cases hb : busOwner c.codes tr <;> simp_all [startAnswers]

/-- A send is answered by the event after which it was issued (R169). -/
theorem engineAllows_send {e f : Event} {d b : Byte} (hc : c.wf) (h : e ∈ sendAnswers c b (some f)) :
    EngineAllows c (tr ++ [.ev (c.codes.code f) d] ++ [.send b]) e := by
  refine .inr ?_
  simpa [allowedEvents, answersTo, decodeEvent_code hc.2.2.1 f] using h

theorem engineAllows_datarAck : EngineAllows c (tr ++ [.recvAck]) .datarAck := .inr (by simp [allowedEvents, answersTo])

theorem engineAllows_datarNack : EngineAllows c (tr ++ [.recvNack]) .datarNack := .inr (by simp [allowedEvents, answersTo])

end

theorem stopped_trace (u : State) : (stopped u).trace = u.trace ++ [.stop] := rfl

/-! ## A whole write transfer -/

/-- The event that acknowledges byte `k` of a write: the address byte's own, then the payload's (R150). -/
def writeAck (k : Nat) : Event := if k = 0 then .slawAck else .datawAck

theorem sendsFrom_writeAck (k : Nat) (s : State) : SendsFrom (eventInstr (writeAck k)) s s.cur := by
  refine .inr ⟨rfl, ?_⟩
  unfold writeAck
  split
  · exact .inl rfl
  · exact .inr rfl

/-- A payload byte is sent after the acknowledge of the byte before it. -/
theorem writeAck_succ_mem_sendAnswers (c : Cfg) (b : Byte) (k : Nat) :
    writeAck (k + 1) ∈ sendAnswers c b (some (writeAck k)) := by
  cases k <;> simp [writeAck, sendAnswers]

/-- The turns of a write in which the bytes of the packet listed are acknowledged (R150). -/
def writeTurns (c : Cfg) (d : Nat → Byte) (bytes : List Nat) : List Turn :=
  bytes.flatMap fun k => [engTurn c (writeAck k) (d (k + 1)), .seq]

/-- The records of their sends and acknowledges. -/
def writeRecords (c : Cfg) (x d : Nat → Byte) (bytes : List Nat) : List Request :=
  bytes.flatMap fun k => [.send (x k), .ev (c.codes.code (writeAck k)) (d (k + 1))]

/-- From the send of byte `k` of the packet on, with the bytes up to the last one acknowledged (R137, R138). -/
theorem runSteps_acknowledged {s : State} {n : Byte} {x d : Nat → Byte} {k m : Nat} {tr : List Request} {ts : List Turn}
    (h : s.Waiting) (hn : s.size = some n) (hcur : s.cur.toNat = k + 1) (hkm : k + m + 1 = n.toNat)
    (hx : ∀ j, k < j → j < n.toNat → s.buf.read j = some (x j)) (ha : EngineAllows s.cfg s.trace (writeAck k))
    (htr : s.trace = tr ++ [.send (x k)]) (hs : s.sched = writeTurns s.cfg d (List.range' k (m + 1)) ++ ts) :
    ∃ v w r, runSteps (2 * (m + 1)) s = .next (stopped { s with
      cur := n, data := v, wcol := w, draws := r, sched := ts,
      trace := tr ++ writeRecords s.cfg x d (List.range' k (m + 1)) }) := by
  induction m generalizing s k tr with
  | zero =>
    obtain rfl : s.cur = n := BitVec.eq_of_toNat_eq (by omega)
    have hend := exec_sends_of_end (s := s.eventRaised (writeAck k) (d (k + 1)) ts) (sendsFrom_writeAck k _) hn le_rfl
    have htrace : tr ++ writeRecords s.cfg x d (List.range' k (0 + 1)) =
        s.trace ++ [.ev (s.cfg.codes.code (writeAck k)) (d (k + 1))] := by
      rw [htr, List.append_assoc]; rfl
    rw [htrace]
    exact ⟨_, _, _, h.runSteps_exchange ha hs hend 0⟩
  | succ m ih =>
    have hlt : s.cur.toNat < n.toNat := by omega
    have hcap : s.cur.toNat < s.cfg.cap := hlt.trans_le (h.inv.size_le_cap h.busy hn)
    have hb : s.buf.read s.cur.toNat = some (x (k + 1)) := by rw [hcur]; exact hx _ (by omega) (by omega)
    have hnext := engineAllows_send (tr := s.trace) (d := d (k + 1)) h.inv.cfgWf
      (writeAck_succ_mem_sendAnswers s.cfg (x (k + 1)) k)
    have hrun := h.runSteps_sends ha hs (sendsFrom_writeAck k s) hn hlt hb (2 * (m + 1))
    have hwait := h.sent hcap (writeAck k) (d (k + 1)) (writeTurns s.cfg d (List.range' (k + 1) (m + 1)) ++ ts) (x (k + 1))
    obtain ⟨v, w, r, hrest⟩ := ih hwait hn
      ((h.inv.cur_succ_toNat hcap).trans (by rw [hcur])) (by omega) (fun j hj => hx j (by omega)) hnext rfl rfl
    have htrace : tr ++ writeRecords s.cfg x d (List.range' k (m + 1 + 1)) =
        s.trace ++ [.ev (s.cfg.codes.code (writeAck k)) (d (k + 1))] ++ writeRecords s.cfg x d (List.range' (k + 1) (m + 1)) := by
      rw [htr, List.append_assoc, List.append_assoc]; rfl
    rw [htrace]
    exact ⟨v, w, r, hrun.trans hrest⟩

/-- Settles O55: the START event sends the address byte, and `runSteps_acknowledged` is the rest. -/
theorem writeTransferSendsThePacket : Obligations.WriteTransferSendsThePacket := by
  intro s n x d ts tr hi hf hb hp hn htr ho hx hw hs
  have h : s.Waiting := ⟨hi, hf, hb, hp⟩
  have hpos : 1 ≤ n.toNat := h.size_pos hn
  obtain ⟨m, hm⟩ : ∃ m, n.toNat = m + 1 := ⟨n.toNat - 1, by omega⟩
  have hsends : SendsFrom (eventInstr .start) s 0 := .inl ⟨rfl, .inl rfl⟩
  have hcap : (0 : Byte).toNat < s.cfg.cap := Nat.lt_of_lt_of_le hpos (hi.size_le_cap hb hn)
  have hnext := engineAllows_send (tr := s.trace) (d := d 0) (e := writeAck 0) (f := .start) hi.cfgWf (b := x 0)
    (by simp [writeAck, sendAnswers, hw])
  rw [hm, List.range_eq_range'] at hs ⊢
  have hrun := h.runSteps_sends (htr ▸ engineAllows_start ho) hs hsends hn hpos (hx 0 hpos) (2 * (m + 1))
  obtain ⟨v, w, r, hrest⟩ := runSteps_acknowledged (k := 0) (m := m)
    (h.sent hcap .start (d 0) (writeTurns s.cfg d (List.range' 0 (m + 1)) ++ ts) (x 0)) hn rfl (by omega)
    (fun j _ => hx j) hnext rfl rfl
  refine ⟨_, hrun.trans hrest, ?_, ?_⟩
  · rw [stopped_trace]; rfl
  · simp [stopped, sent, State.eventRaised, hi.busyEn hb]

/-! ## A whole read transfer -/

/-- The turns of a read in which bytes with more to come are received, byte `k + 1` for each `k` listed (R151). -/
def readTurns (c : Cfg) (d : Nat → Byte) (bytes : List Nat) : List Turn :=
  bytes.flatMap fun k => [engTurn c .datarAck (d (k + 1)), .seq]

/-- The records of their requests and events. -/
def readRecords (c : Cfg) (d : Nat → Byte) (bytes : List Nat) : List Request :=
  bytes.flatMap fun k => [.recvAck, .ev (c.codes.code .datarAck) (d (k + 1))]

/-- From the request of byte `k + 1` of a read on, up to its last byte (R139, R141): a packet of one byte goes as one of two (R217). -/
theorem runSteps_received {s : State} {n : Byte} {d : Nat → Byte} {k r last : Nat} {tr : List Request} {ts : List Turn}
    (h : s.Waiting) (hn : s.size = some n) (hcur : s.cur.toNat = k + 1) (hl : k + r + 1 = last)
    (hmax : last + 1 = max n.toNat 2)
    (htr : s.trace = tr ++ [if s.cur.toNat + 1 < n.toNat then .recvAck else .recvNack])
    (hs : s.sched = readTurns s.cfg d (List.range' k r) ++ engTurn s.cfg .datarNack (d last) :: .seq :: ts) :
    ∃ a v w q, a.toNat = last ∧ runSteps (2 * (r + 1)) s = .next (stopped { s with
      buf := s.buf.writeCells d (List.range' (k + 1) (r + 1)), cur := a, data := v, wcol := w, draws := q, sched := ts,
      trace := tr ++ readRecords s.cfg d (List.range' k r) ++ [.recvNack, .ev (s.cfg.codes.code .datarNack) (d last)] }) := by
  have hlast : last < s.cfg.cap := by
    have hcap : 2 ≤ s.cfg.cap := h.inv.cfgWf.1
    have hsize := h.inv.size_le_cap h.busy hn
    omega
  induction r generalizing s k tr with
  | zero =>
    have hc : s.cur.toNat = last := by omega
    rw [if_neg (by omega)] at htr
    have hrun := h.runSteps_storesLast (htr ▸ engineAllows_datarNack) hs (hc ▸ hlast)
    have hbuf : s.buf.writeCells d (List.range' (k + 1) (0 + 1)) = s.buf.write s.cur.toNat (d last) := by
      rw [hcur, ← hl]; rfl
    have htrace : tr ++ readRecords s.cfg d (List.range' k 0) ++ [.recvNack, .ev (s.cfg.codes.code .datarNack) (d last)] =
        s.trace ++ [.ev (s.cfg.codes.code .datarNack) (d last)] := by
      simp [htr, readRecords]
    rw [hbuf, htrace]
    exact ⟨s.cur, _, _, _, hc, hrun⟩
  | succ r ih =>
    have hc : s.cur.toNat < s.cfg.cap := by omega
    have hcur' : (s.cur + 1).toNat = k + 1 + 1 := (h.inv.cur_succ_toNat hc).trans (by rw [hcur])
    rw [if_pos (by omega)] at htr
    have hrun := h.runSteps_stores (htr ▸ engineAllows_datarAck) hs hn hc (2 * (r + 1))
    have hwait := h.askedNext hc .datarAck (d (k + 1))
      (readTurns s.cfg d (List.range' (k + 1) r) ++ engTurn s.cfg .datarNack (d last) :: .seq :: ts) (d (k + 1)) n
    obtain ⟨a, v, w, q, ha, hrest⟩ := ih hwait hn hcur' (by omega) rfl rfl hlast
    have hbuf : s.buf.writeCells d (List.range' (k + 1) (r + 1 + 1)) =
        (s.buf.write s.cur.toNat (d (k + 1))).writeCells d (List.range' (k + 1 + 1) (r + 1)) := by
      rw [hcur]; rfl
    have htrace : tr ++ readRecords s.cfg d (List.range' k (r + 1)) =
        s.trace ++ [.ev (s.cfg.codes.code .datarAck) (d (k + 1))] ++ readRecords s.cfg d (List.range' (k + 1) r) := by
      rw [htr, List.append_assoc, List.append_assoc]; rfl
    rw [hbuf, htrace]
    exact ⟨a, v, w, q, ha, hrun.trans hrest⟩

/-- The first four steps of a read: the address byte sent and acknowledged, and byte 1 asked for (R135, R140). -/
theorem runSteps_readAddress {s : State} {n b x : Byte} {ts : List Turn} {tr : List Request} (h : s.Waiting)
    (hn : s.size = some n) (htr : s.trace = tr ++ [.start]) (ho : s.cfg.engine = .any ∨ busOwner s.cfg.codes tr ≠ .held)
    (hb : s.buf.read 0 = some b) (hr : isRead s.cfg b = true)
    (hs : s.sched = engTurn s.cfg .start x :: .seq :: engTurn s.cfg .slarAck x :: .seq :: ts) :
    ∃ u v w q, (∀ k, runSteps (k + 2 + 2) s = runSteps k u) ∧ u.Waiting ∧ u = asked { s with
      cur := 1, data := v, wcol := w, draws := q, sched := ts,
      trace := s.trace ++ [.ev (s.cfg.codes.code .start) x, .send b, .ev (s.cfg.codes.code .slarAck) x] } n := by
  have hpos : 1 ≤ n.toNat := h.size_pos hn
  have hcap : (0 : Byte).toNat < s.cfg.cap := Nat.lt_of_lt_of_le hpos (h.inv.size_le_cap h.busy hn)
  have hstart := h.runSteps_sends (htr ▸ engineAllows_start ho) hs (.inl ⟨rfl, .inl rfl⟩) hn hpos hb
  have hwait := h.sent hcap .start x (engTurn s.cfg .slarAck x :: .seq :: ts) b
  have hmem : Event.slarAck ∈ sendAnswers s.cfg b (some .start) := by simp [sendAnswers, hr]
  have hack := hwait.runSteps_exchange (engineAllows_send h.inv.cfgWf hmem) rfl (exec_evSlarAck hn)
  have htrace : s.trace ++ [.ev (s.cfg.codes.code .start) x, .send b, .ev (s.cfg.codes.code .slarAck) x] =
      s.trace ++ [.ev (s.cfg.codes.code .start) x] ++ [.send b] ++ [.ev (s.cfg.codes.code .slarAck) x] := by simp
  rw [htrace]
  exact ⟨_, _, _, _, fun k => (hstart (k + 2)).trans (hack k), hwait.asked .slarAck x ts n, rfl⟩

/-- A read transfer from its START request on (R151). -/
theorem runSteps_readTransfer {s : State} {n b x : Byte} {d : Nat → Byte} {ts : List Turn} {tr : List Request} {m : Nat}
    (h : s.Waiting) (hn : s.size = some n) (htr : s.trace = tr ++ [.start])
    (ho : s.cfg.engine = .any ∨ busOwner s.cfg.codes tr ≠ .held) (hb : s.buf.read 0 = some b) (hr : isRead s.cfg b = true)
    (hm : m = max n.toNat 2)
    (hs : s.sched = engTurn s.cfg .start x :: .seq :: engTurn s.cfg .slarAck x :: .seq ::
      readTurns s.cfg d (List.range (m - 2)) ++ (engTurn s.cfg .datarNack (d (m - 1)) :: .seq :: ts)) :
    ∃ a v w q, a.toNat = m - 1 ∧ runSteps (2 * (m + 1)) s = .next (stopped { s with
      buf := s.buf.writeCells d (List.range' 1 (m - 1)), cur := a, data := v, wcol := w, draws := q, sched := ts,
      trace := s.trace ++ [.ev (s.cfg.codes.code .start) x, .send b, .ev (s.cfg.codes.code .slarAck) x] ++
        readRecords s.cfg d (List.range (m - 2)) ++ [.recvNack, .ev (s.cfg.codes.code .datarNack) (d (m - 1))] }) := by
  obtain ⟨r, rfl⟩ : ∃ r, m = r + 2 := ⟨m - 2, by omega⟩
  rw [List.range_eq_range', Nat.add_sub_cancel] at hs ⊢
  obtain ⟨u, v, w, q, haddr, hwait, rfl⟩ := runSteps_readAddress h hn htr ho hb hr hs
  obtain ⟨a, v, w, q, ha, hrest⟩ := runSteps_received hwait hn rfl (by omega) hm rfl rfl
  exact ⟨a, v, w, q, ha, (haddr (2 * (r + 1))).trans hrest⟩

/-- Settles O56, by what `runSteps_readTransfer` leaves in the cells. -/
theorem readTransferFillsThePacket : Obligations.ReadTransferFillsThePacket := by
  intro s n b x d ts tr m hi hf hb hp hn htr ho h0 hr hm hs
  obtain ⟨a, v, w, q, ha, hrun⟩ := runSteps_readTransfer ⟨hi, hf, hb, hp⟩ hn htr ho h0 hr hm hs
  refine ⟨_, hrun, fun k => ?_, ?_, ?_, ?_⟩
  · change (s.buf.writeCells d (List.range' 1 (m - 1))).read k = _
    rw [Memory.read_writeCells]
    have hk : k ∈ List.range' 1 (m - 1) ↔ 1 ≤ k ∧ k < m := by rw [List.mem_range'_1]; omega
    simp only [hk]
  · exact ha
  · rw [stopped_trace]
    exact List.append_assoc _ _ _
  · simp only [stopped, hi.busyEn hb]

/-! ## A whole read exchange -/

/-- `start_transfer` of a read, as the host's four steps: the poll, the size, the address byte, the START command (R113). -/
theorem runSteps_startRead {s : State} {n b : Byte} {bytes : List Byte} {rest : List HostItem} {ts : List Turn}
    (hi : s.Inv) (hf : s.fault = none) (hb : s.ie = false) (hc : s.call = .idle)
    (hp : s.prog = .call (.startTransfer (b :: bytes) n) :: rest) (hl : sizeLegal s.cfg n = true)
    (hr : isRead s.cfg b = true) (hs : s.sched = List.replicate 4 .host ++ ts) :
    ∃ u, runSteps 4 s = .next u ∧ u.Waiting ∧ u = { s with
      size := some n, buf := s.buf.write 0 b, sched := ts, prog := rest, call := .idle }.startCommand := by
  have hcap : 0 < s.cfg.cap := Nat.lt_of_lt_of_le Nat.two_pos hi.cfgWf.1
  have hsuffice : s.cfg.bytesSuffice (b :: bytes) n = true := by
    have hd : (b.getLsbD 0 == s.cfg.dirRead) = true := hr
    simp only [Cfg.bytesSuffice, hd, Bool.true_or]
  have hcells : transferCells s.cfg (b :: bytes) n = [0] := by
    simp only [transferCells, List.getD_cons_zero, hr, if_true]; rfl
  have hpoll := (step_of_call hf hc hp hs).trans (exec_startTransfer_of_not_busy hl hsuffice hb)
  have hbuf : s.buf.writeCells ((b :: bytes).getD · 0) (transferCells s.cfg (b :: bytes) n) = s.buf.write 0 b := by
    rw [hcells]; rfl
  have hinv : State.Inv { s with size := some n, buf := s.buf.write 0 b, sched := ts, prog := rest, call := .idle } :=
    ((hi.writeCell hcap b).setSize hb n).frame
  have hwait : State.Waiting (State.startCommand { s with
      size := some n, buf := s.buf.write 0 b, sched := ts, prog := rest, call := .idle }) :=
    ⟨hinv.startCommand rfl hl, hf, rfl, by simp⟩
  refine ⟨_, ?_, hwait, rfl⟩
  rw [← hbuf]
  exact (runSteps_succ 3 hpoll).trans
    (runSteps_startWrites (k := 1) hf hb (by simp [hcells, hcap]) (by rw [hcells]; rfl) hl rfl rfl)

/-- The cells that the host reads after a read transfer: the address byte, then the bytes received. -/
theorem read_of_readCells {m : Memory} {b : Byte} {d : Nat → Byte} {n l k : Nat} (hk : k < n) (hl : n ≤ l + 1) :
    ((m.write 0 b).writeCells d (List.range' 1 l)).read k = (b :: (List.range (n - 1)).map fun j => d (j + 1))[k]? := by
  rw [Memory.read_writeCells, Memory.read_write]
  cases k with
  | zero => simp
  | succ j =>
    have hmem : j + 1 ∈ List.range' 1 l := List.mem_range'_1.mpr ⟨by omega, by omega⟩
    have hj : j < n - 1 := by omega
    simp [hmem, hj]

/-- `get_result` after a read transfer, as the host's `n + 1` steps: the poll, then the cells (R115). -/
theorem runSteps_resultOfRead {t : State} {n b : Byte} {d : Nat → Byte} {m : Memory} {l : Nat} {rest : List HostItem}
    {ts : List Turn} (hf : t.fault = none) (hb : t.ie = false) (ho : t.ok = true) (hc : t.call = .idle)
    (hp : t.prog = .call (.getResult n) :: rest) (h1 : 1 ≤ n.toNat) (hcap : n.toNat ≤ t.cfg.cap)
    (hbuf : t.buf = (m.write 0 b).writeCells d (List.range' 1 l)) (hl : n.toNat ≤ l + 1)
    (hs : t.sched = List.replicate (n.toNat + 1) .host ++ ts) :
    runSteps (n.toNat + 1) t = .next { t with
      sched := ts, prog := rest,
      ret := some (.result (some (b :: (List.range (n.toNat - 1)).map fun k => d (k + 1))) true) } := by
  have hlen : (b :: (List.range (n.toNat - 1)).map fun k => d (k + 1)).length = n.toNat := by simp; omega
  exact (getResultReturnsTheCells t n rest ts hf hb hc hp hcap).1 _ ho hs hlen fun k hk => hbuf ▸ read_of_readCells hk hl

/-- Settles O57: the start call, the transfer, the result call. -/
theorem readExchangeReturnsTheBytes : Obligations.ReadExchangeReturnsTheBytes := by
  intro s n b x bytes d rest ts m hi hf hb hc hp h1 hcap hr hm ho hs
  have hl : sizeLegal s.cfg n = true := (sizeLegal_iff _ _).mpr ⟨h1, hcap⟩
  obtain ⟨u, hstart, hwait, rfl⟩ := runSteps_startRead hi hf hb hc hp hl hr hs
  obtain ⟨a, v, w, q, -, htransfer⟩ :=
    runSteps_readTransfer hwait rfl rfl ho (Memory.read_write_same s.buf 0 b) hr hm rfl
  have hended := (runSteps_add 4 _ hstart).trans htransfer
  refine ⟨_, (runSteps_add _ _ hended).trans (runSteps_resultOfRead hf rfl rfl rfl rfl h1 hcap rfl (by omega) rfl),
    rfl, rfl, rfl, hf, rfl, rfl, rfl⟩

/-! ## A retry after an arbitration loss -/

/-- `P` holds after each of the first `k` steps, and before them. -/
def Throughout (P : State → Prop) (k : Nat) (s : State) : Prop := ∀ j u, j ≤ k → runSteps j s = .next u → P u

theorem throughout_zero {P : State → Prop} {s : State} (hs : P s) : Throughout P 0 s := by
  intro j u hj hr
  obtain rfl : j = 0 := Nat.le_zero.mp hj
  cases hr
  exact hs

theorem throughout_succ {P : State → Prop} {k : Nat} {s t : State} (hs : P s) (h : step s = .next t) (ht : Throughout P k t) :
    Throughout P (k + 1) s := by
  intro j u hj hr
  cases j with
  | zero => cases hr; exact hs
  | succ j => exact ht j u (Nat.le_of_succ_le_succ hj) ((runSteps_succ j h).symm.trans hr)

/-- Settles O58, step by step: the loss, START asked for again, the START, the address byte sent. -/
theorem arbitrationRetryRestartsThePacket : Obligations.ArbitrationRetryRestartsThePacket := by
  intro s b x y ts hi hf hb hp he h0 hs
  have h : s.Waiting := ⟨hi, hf, hb, hp⟩
  obtain ⟨n, hn, hl⟩ := hi.busySize hb
  have hpos : 0 < n.toNat := ((sizeLegal_iff _ _).mp hl).1
  have hloss := h.step_eng (.inl he) hs
  have hagain := (h.step_seq (e := .arbLost) (d := x) (ts := engTurn s.cfg .start y :: .seq :: ts)).trans (exec_evArbLost _)
  have hwait := h.startAgain .arbLost x (engTurn s.cfg .start y :: .seq :: ts)
  have hstart := hwait.step_eng (.inl he) rfl
  have hsend := (hwait.step_seq (e := .start) (d := y) (ts := ts)).trans
    (exec_sends (.inl ⟨rfl, .inl rfl⟩) hn hpos h0)
  have hok : s.ok = false := hi.busyOk hb
  refine ⟨throughout_succ ⟨hb, hok, rfl, rfl⟩ hloss <| throughout_succ ⟨hb, hok, rfl, rfl⟩ hagain <|
    throughout_succ ⟨rfl, hok, rfl, rfl⟩ hstart <| throughout_succ ⟨rfl, hok, rfl, rfl⟩ hsend <|
    throughout_zero ⟨rfl, hok, rfl, rfl⟩, ?_⟩
  refine ⟨_, (runSteps_succ 3 hloss).trans <| (runSteps_succ 2 hagain).trans <| (runSteps_succ 1 hstart).trans <|
    runSteps_succ 0 hsend, ?_⟩
  simp [sent, State.eventRaised, hi.busyEn hb, hb, hp]

end Sys2Proof.Machine
end

section
/-! PROOFS. The family of 42_engine_requests.md: the control images written on their own, the engine's step, and the conformant engine's contract. -/

namespace Sys2Proof.Machine

/-! ## The engine's turn and the bare control write -/

theorem step_of_ctrl_rejected {s : State} {ts : List Turn} {b : Byte} {x : DecodeError} (hf : s.fault = none)
    (hs : s.sched = .ctrl b :: ts) (hd : decodeCtrl s.cfg b = .error x) : step s = .refused (.noSuchImage b) := by
  have hfetch : fetch (.ctrl b) { s with sched := ts } = .error (.noSuchImage b) := by simp only [fetch, fetchCtrl, hd]
  rw [step_of_turn hf hs, runTurn, hfetch]

/-- Settles O8: the engine's word holds its code above its data byte (`step_of_eng`), and a control byte is fetched through its decoder. -/
theorem engineAndControlTurnsRunTheirWords : Obligations.EngineAndControlTurnsRunTheirWords := by
  intro s ts hf
  refine ⟨fun code d hs => ?_, fun b i hs hd => step_of_ctrl hf hs hd, fun b x hs hd => step_of_ctrl_rejected hf hs hd⟩
  rw [step_of_eng hf hs, extractLsb'_append_high, extractLsb'_append_low]

/-! ## The control images -/

/-- A 1 in `IF` ends the pending event (R160). -/
theorem State.ctrlWrite_of_ends_event {m : CtrlImage} (hf : m.ifl = true) (hw : m.wc = false) (s : State) (q : Request) :
    s.ctrlWrite m q = { s with
      en := m.en, ie := m.ie, ea := m.ea, sta := m.sta, sto := m.sto, pend := false, status := none, trace := s.trace ++ [q] } := by
  simp only [State.ctrlWrite, hf, hw, Bool.not_true, Bool.not_false, Bool.and_false, Bool.and_true, if_true]

/-- A 0 in `IF` keeps the pending event and its code; `WCOL` is left to a 1 in `WC` (R160). -/
theorem State.ctrlWrite_of_keeps_event {m : CtrlImage} (hf : m.ifl = false) (s : State) (q : Request) :
    s.ctrlWrite m q = { s with
      en := m.en, ie := m.ie, ea := m.ea, sta := m.sta, sto := m.sto, wcol := s.wcol && !m.wc, trace := s.trace ++ [q] } := by
  simp only [State.ctrlWrite, hf, Bool.not_false, Bool.and_true, Bool.false_eq_true, if_false]

theorem exec_imgInit (s : State) : exec .imgInit s = .next { s with
    en := true, ie := false, ea := false, sta := false, sto := false, wcol := false, trace := s.trace ++ [.init] } := by
  rw [exec, execImgInit, State.ctrlWrite_of_keeps_event rfl]
  simp only [imageInit, Bool.not_true, Bool.and_false]

theorem exec_imgIdle (s : State) : exec .imgIdle s = .next { s with
    en := true, ie := false, ea := false, sta := false, sto := false, trace := s.trace ++ [.idle] } := by
  rw [exec, execImgIdle, State.ctrlWrite_of_keeps_event rfl]
  simp only [imageIdle, Bool.not_false, Bool.and_true]

/-- Settles O13, each image by what the control write does with its `IF`. -/
theorem controlImagesWriteEveryField : Obligations.ControlImagesWriteEveryField := fun s =>
  ⟨exec_imgInit s, exec_imgIdle s,
    ⟨none, congrArg _ (State.ctrlWrite_of_ends_event rfl rfl s .start)⟩,
    ⟨none, congrArg _ (State.ctrlWrite_of_ends_event rfl rfl s .recvAck)⟩,
    ⟨none, congrArg _ (State.ctrlWrite_of_ends_event rfl rfl s .stop)⟩⟩

/-! ## The two intents of `IMG_GO` -/

/-- One of the two requests that `IMG_GO` can stand for in a state (R164). -/
def GoIntent (s : State) (q : Request) : Prop := q = .recvNack ∨ ∃ b, q = .send b ∧ ∀ d, s.data = some d → b = d

/-- Whatever the phase, `IMG_GO` asks for one of its two intents, and only the count of draws can change (R164). -/
theorem goRequest_cases (s : State) : ∃ q n, goRequest s = (q, { s with draws := n }) ∧ GoIntent s q := by
  obtain ⟨b, n, hd, hb⟩ := orDraw_frame s.data s
  obtain ⟨b', n', hd', hb'⟩ := orDraw_frame s.data { s with draws := s.draws + 1 }
  have hsend : GoIntent s (.send b) := .inr ⟨b, rfl, fun d h => (hb d h).1⟩
  have hsend' : GoIntent s (.send b') := .inr ⟨b', rfl, fun d h => (hb' d h).1⟩
  unfold goRequest
  simp only [hd, hd']
  split
  case h_5 => exact ⟨_, s.draws, rfl, .inl rfl⟩
  case h_6 => exact ⟨_, s.draws, rfl, .inl rfl⟩
  case h_7 =>
    split
    · exact ⟨_, _, rfl, .inl rfl⟩
    · exact ⟨_, _, rfl, hsend'⟩
  all_goals exact ⟨_, _, rfl, hsend⟩

/-- The event whose answer is being written tells the phase of `IMG_GO` (R164, log 14). -/
theorem goRequest_of_event {s : State} {c : Byte} {e : Event} (hp : s.pend = true) (hc : s.status = some c)
    (he : decodeEvent s.cfg.codes c = some e) :
    (∀ d, s.data = some d → e = .start ∨ e = .repStart ∨ e = .slawAck ∨ e = .datawAck → goRequest s = (.send d, s)) ∧
    (e = .slarAck ∨ e = .datarAck → goRequest s = (.recvNack, s)) := by
  have hi : decodeStatus s.cfg c = eventInstr e := by rw [decodeStatus, he]
  constructor
  · rintro d hd (rfl | rfl | rfl | rfl) <;> simp [goRequest, hp, hc, hi, eventInstr, hd, orDraw]
  · rintro (rfl | rfl) <;> simp [goRequest, hp, hc, hi, eventInstr]

theorem exec_imgGo {s : State} {q : Request} {n : Nat} (h : goRequest s = (q, { s with draws := n })) :
    exec .imgGo s = .next { s with
      en := true, ie := true, ea := false, sta := false, sto := false, pend := false, status := none, draws := n,
      trace := s.trace ++ [q] } := by
  rw [exec, execImgGo, h, State.ctrlWrite_of_ends_event rfl rfl]
  rfl

/-- Settles O14: one of the two intents in every state (`goRequest_cases`), the one of the phase where an event tells it (`goRequest_of_event`). -/
theorem goImageAsksForOneOfTwoThings : Obligations.GoImageAsksForOneOfTwoThings := by
  intro s
  obtain ⟨q, n, hgo, hq⟩ := goRequest_cases s
  refine ⟨q, n, none, exec_imgGo hgo, hq, fun c d e hp hc hd he => ?_⟩
  have hasks {q' : Request} (h : goRequest s = (q', s)) : q = q' ∧ n = s.draws := by
    have heq : (q, { s with draws := n }) = (q', s) := hgo.symm.trans h
    exact ⟨congrArg Prod.fst heq, congrArg (·.2.draws) heq⟩
  obtain ⟨hsend, hreceive⟩ := goRequest_of_event hp hc he
  exact ⟨fun h => hasks (hsend d hd h), fun h => hasks (hreceive h)⟩

/-! ## The engine's step -/

section
variable {s : State} {code d : Byte}

theorem exec_engRaise_of_not_enabled (h : s.pend = true ∨ s.en = false) :
    exec (.engRaise code d) s = .refused .engineNotEnabled :=
  if_pos (by simpa using h)

/-- Under its guard the engine raises what its contract lets it (R168); `WCOL` takes a free bit (log 7). -/
theorem exec_engRaise_of_may (hp : s.pend = false) (hen : s.en = true) (hm : engineMay s.cfg s.trace code = true) :
    exec (.engRaise code d) s = .next { s with
      status := some code, data := some d, pend := true, wcol := Config.freeBit s.draws, draws := s.draws + 1,
      trace := s.trace ++ [.ev code d] } :=
  (if_neg (by simp [hp, hen])).trans (if_pos hm)

theorem exec_engRaise_of_outside (hp : s.pend = false) (hen : s.en = true) (hm : engineMay s.cfg s.trace code = false) :
    exec (.engRaise code d) s = .refused .engineOutsideContract :=
  (if_neg (by simp [hp, hen])).trans (if_neg (by simp [hm]))

end

/-- Settles O37: an engine that may raise anything is held by the guard alone (`exec_engRaise_of_may`), and whatever is raised is raised
the same way (`exec_engRaise_next`). -/
theorem engineRaisesOneEvent : Obligations.EngineRaisesOneEvent := by
  intro s code d
  refine ⟨fun hp hen he => ⟨_, exec_engRaise_of_may hp hen (by simp only [engineMay, he])⟩, fun t ht => ?_,
    exec_engRaise_of_not_enabled⟩
  obtain ⟨-, -, -, ht⟩ := exec_engRaise_next ht
  exact ht

/-! ## Bus ownership -/

section
variable {t : StatusCodes} {tr : List Request} {e : Event} {code d : Byte} {o : BusOwner}

theorem busOwner_append (t : StatusCodes) (tr : List Request) (q : Request) :
    busOwner t (tr ++ [q]) = ownAfter t (busOwner t tr) q := List.foldl_concat ..

theorem ownAfter_start (h : decodeEvent t code = some .start ∨ decodeEvent t code = some .repStart) :
    ownAfter t o (.ev code d) = .held := by
  rcases h with h | h <;> simp only [ownAfter, h]

theorem ownAfter_arbLost (h : decodeEvent t code = some .arbLost) : ownAfter t o (.ev code d) = .notHeld := by
  simp only [ownAfter, h]

theorem ownAfter_busError (h : decodeEvent t code = some .busError) : ownAfter t o (.ev code d) = .unknown := by
  simp only [ownAfter, h]

/-- Every code but those of the four events that move the bus keeps its owner (R169). -/
theorem ownAfter_of_other_code (hs : code ≠ t.start) (hr : code ≠ t.repStart) (ha : code ≠ t.arbLost) (hb : code ≠ t.busError) :
    ownAfter t o (.ev code d) = o := by
  simp only [ownAfter]
  split
  · next h => exact absurd (decodeEvent_some h).symm hs
  · next h => exact absurd (decodeEvent_some h).symm hr
  · next h => exact absurd (decodeEvent_some h).symm ha
  · next h => exact absurd (decodeEvent_some h).symm hb
  · rfl

end

/-- Settles O39: the newest record alone moves the owner (`busOwner_append`), and an event by the code it is named by. -/
theorem busOwnershipFollowsTheTrace : Obligations.BusOwnershipFollowsTheTrace := by
  intro t tr ht
  simp only [busOwner_append]
  refine ⟨rfl, fun _ => ownAfter_start (.inl (decodeEvent_code ht .start)),
    fun _ => ownAfter_start (.inr (decodeEvent_code ht .repStart)), rfl, fun _ => ownAfter_arbLost (decodeEvent_code ht .arbLost),
    fun _ => ownAfter_busError (decodeEvent_code ht .busError), fun q hq hc => ?_⟩
  cases q with
  | stop => exact absurd rfl hq
  | ev code d =>
    obtain ⟨hs, hr, ha, hb⟩ := hc code d rfl
    exact ownAfter_of_other_code hs hr ha hb
  | _ => rfl

/-! ## The conformant engine's table -/

section
variable {c : Cfg} {tr : List Request} {e e' : Event} {x b code : Byte}

/-- A named event is raised by a conformant engine where the table lists it. -/
theorem engineMay_code_of_conformant (hc : c.wf) (he : c.engine = .conformant) :
    engineMay c tr (c.codes.code e) = true ↔ e ∈ allowedEvents c tr := by
  simp only [engineMay, he, decodeEvent_code hc.2.2.1 e, List.contains_iff_mem]

theorem engineMay_other_of_conformant (he : c.engine = .conformant) (h : ∀ e, c.codes.code e ≠ code) :
    engineMay c tr code = false := by
  simp only [engineMay, he, decodeEvent_eq_none h]

/-- The records that ask the engine for nothing: no trace, init, idle, stop, an event (logs 25, 29). -/
theorem allowedEvents_of_no_request (h : awaitsAnswer tr.reverse = false) : allowedEvents c tr = [] := by
  unfold allowedEvents
  cases hr : tr.reverse with
  | nil => rfl
  | cons q older =>
    rw [hr] at h
    cases q with
    | start | send | recvAck | recvNack => simp [awaitsAnswer] at h
    | init | idle | stop | ev => rfl

theorem allowedEvents_start : allowedEvents c (tr ++ [.start]) = startAnswers (busOwner c.codes tr) := by
  rw [allowedEvents, busOwner_append, List.reverse_concat]
  rfl

theorem allowedEvents_recvAck : allowedEvents c (tr ++ [.recvAck]) = [.datarAck, .busError] := by
  rw [allowedEvents, List.reverse_concat]
  rfl

theorem allowedEvents_recvNack : allowedEvents c (tr ++ [.recvNack]) = [.datarNack, .arbLost, .busError] := by
  rw [allowedEvents, List.reverse_concat]
  rfl

theorem allowedEvents_send (hc : c.wf) :
    allowedEvents c (tr ++ [.ev (c.codes.code e') x, .send b]) = sendAnswers c b (some e') := by
  rw [allowedEvents, List.reverse_append]
  simp only [List.reverse_cons, List.reverse_nil, List.nil_append, List.cons_append, answersTo,
    decodeEvent_code hc.2.2.1 e']

theorem mem_startAnswers_iff {o : BusOwner} :
    e ∈ startAnswers o ↔ e = .busError ∨ (e = .start ∧ o ≠ .held) ∨ (e = .repStart ∧ o ≠ .notHeld) := by
  cases o <;> simp [startAnswers] <;> tauto

theorem sendAnswers_writeAddress (h : e' = .start ∨ e' = .repStart) (hr : isRead c b = false) :
    sendAnswers c b (some e') = [.slawAck, .slawNack, .arbLost, .busError] := by
  rcases h with rfl | rfl <;> simp [sendAnswers, hr]

theorem sendAnswers_readAddress (h : e' = .start ∨ e' = .repStart) (hr : isRead c b = true) :
    sendAnswers c b (some e') = [.slarAck, .slarNack, .arbLost, .busError] := by
  rcases h with rfl | rfl <;> simp [sendAnswers, hr]

theorem sendAnswers_payload (h : e' = .slawAck ∨ e' = .datawAck) :
    sendAnswers c b (some e') = [.datawAck, .datawNack, .arbLost, .busError] := by
  rcases h with rfl | rfl <;> rfl

end

section
variable {s : State} {e : Event} {d : Byte}

/-- Under the guard the table is exactly what a conformant engine raises (R169). -/
theorem exec_engRaise_next_iff_allowed (hc : s.cfg.wf) (he : s.cfg.engine = .conformant) (hp : s.pend = false) (hen : s.en = true) :
    (∃ t, exec (.engRaise (s.cfg.codes.code e) d) s = .next t) ↔ e ∈ allowedEvents s.cfg s.trace := by
  rw [← engineMay_code_of_conformant hc he]
  constructor
  · rintro ⟨t, ht⟩
    obtain ⟨-, -, hm, -⟩ := exec_engRaise_next ht
    exact hm
  · exact fun hm => ⟨_, exec_engRaise_of_may hp hen hm⟩

theorem exec_engRaise_of_no_request (hc : s.cfg.wf) (he : s.cfg.engine = .conformant) (hp : s.pend = false) (hen : s.en = true)
    (h : awaitsAnswer s.trace.reverse = false) :
    exec (.engRaise (s.cfg.codes.code e) d) s = .refused .engineOutsideContract := by
  refine exec_engRaise_of_outside hp hen (Bool.eq_false_iff.mpr fun hm => ?_)
  rw [engineMay_code_of_conformant hc he, allowedEvents_of_no_request h] at hm
  exact absurd hm List.not_mem_nil

end

/-- Settles O38: what is raised is what the table lists (`exec_engRaise_next_iff_allowed`), read off row by row. -/
theorem conformantEngineFollowsTheTable : Obligations.ConformantEngineFollowsTheTable := by
  intro s tr d e hc he hp hen
  have hnone := exec_engRaise_of_no_request (e := e) (d := d) hc he hp hen
  simp only [exec_engRaise_next_iff_allowed hc he hp hen]
  refine ⟨fun ht => hnone (by rw [ht]; rfl), fun q ht hq => hnone ?_, fun ht => ?_, fun e' x b ht => ?_, fun ht => ?_,
    fun ht => ?_, fun code h => exec_engRaise_of_outside hp hen (engineMay_other_of_conformant he h)⟩
  · rw [ht, List.reverse_concat]
    rcases hq with rfl | rfl | rfl | ⟨_, _, rfl⟩ <;> rfl
  · rw [ht, allowedEvents_start, mem_startAnswers_iff]
  · rw [ht, allowedEvents_send hc]
    refine ⟨fun h hr => ?_, fun h hr => ?_, fun h => ?_⟩
    · simp only [sendAnswers_writeAddress h hr, List.mem_cons, List.not_mem_nil, or_false]
    · simp only [sendAnswers_readAddress h hr, List.mem_cons, List.not_mem_nil, or_false]
    · simp only [sendAnswers_payload h, List.mem_cons, List.not_mem_nil, or_false]
  · simp only [ht, allowedEvents_recvAck, List.mem_cons, List.not_mem_nil, or_false]
  · simp only [ht, allowedEvents_recvNack, List.mem_cons, List.not_mem_nil, or_false]

end Sys2Proof.Machine
end

section
/-! PROOFS. The family of 60_exceptions.md: what a failure leaves behind for the next transfer. -/

namespace Sys2Proof.Machine

/-- Every failure event is the failure step with some code (R143 to R147). -/
theorem exists_failsWith {i : Instr} {c : Byte} (s : State)
    (hi : i = .evSlawNack ∨ i = .evSlarNack ∨ i = .evDatawNack ∨ i = .evBusError ∨ i = .evOther c) :
    ∃ code, FailsWith i s code := by
  rcases hi with h | h | h | h | h
  · exact ⟨_, .inr (.inl ⟨h, rfl⟩)⟩
  · exact ⟨_, .inr (.inr (.inl ⟨h, rfl⟩))⟩
  · exact ⟨_, .inr (.inr (.inr (.inl ⟨h, rfl⟩)))⟩
  · exact ⟨_, .inr (.inr (.inr (.inr ⟨h, rfl⟩)))⟩
  · exact ⟨c, .inl h⟩

/-- A failure clears `IE`, so a repeat call passes its poll at once (R114, R188). -/
theorem exec_startTransferRepeat_fail (s : State) (code : Byte) :
    exec .startTransferRepeat (s.fail code) = .next { s.fail code with call := .writing [.wr .hcmd 0x02] } :=
  pollThen_of_not_busy (s.fail_ie code)

/-- A failure clears `IE` and keeps `SIZE`, so the START command passes its checks (R107, R188). -/
theorem exec_hwrHcmdStart_fail {s : State} {n : Byte} (code : Byte) (hs : s.size = some n)
    (hl : sizeLegal s.cfg n = true) : exec .hwrHcmdStart (s.fail code) = .next (s.fail code).startCommand :=
  exec_hwrHcmdStart (s.fail_ie code) hs hl

/-- Settles O54: the state after the event is `s.fail code`, and the next transfer starts from its `State.startCommand`. -/
theorem failureLeavesTheNextStartClean : Obligations.FailureLeavesTheNextStartClean := by
  intro i c s t n hi hs h1 hcap ht
  obtain ⟨code, hfail⟩ := exists_failsWith s hi
  rw [exec_of_failsWith hfail] at ht
  cases ht
  have hstart := exec_hwrHcmdStart_fail code hs ((sizeLegal_iff _ _).mpr ⟨h1, hcap⟩)
  refine ⟨s.fail_ie code, ?_, s.fail_sta code, s.fail_sto code, s.fail_ea code, s.fail_buf code, s.fail_cur code,
    exec_startTransferRepeat_fail s code, (s.fail code).startCommand, hstart, rfl, rfl, rfl, ?_, rfl, rfl,
    hwstateAfterStart_of_keep (s := s.fail code)⟩
  · rw [State.fail_pend, Bool.and_true]
  · rw [State.startCommand_pend, Bool.and_false]

end Sys2Proof.Machine
end

section
/-! PROOFS. The family of 70_reset_and_hazards.md: what reset leaves enabled, and what a fair run owes a busy block. -/

namespace Sys2Proof.Machine

/-! ## Reset -/

/-- The sequencer's turn is held unless an event is pending and enabled (R130). -/
theorem runTurn_seq_of_not_enabled {s : State} (h : s.pend = false ∨ s.ie = false) :
    runTurn .seq s = .refused .sequencerNotEnabled := by
  have hfetch : fetch .seq s = .error .sequencerNotEnabled := if_neg (by rcases h with h | h <;> simp [h])
  rw [runTurn, hfetch]

/-- The engine's turn is held while an event is pending or the controller is not enabled (R168). -/
theorem runTurn_eng_of_not_enabled {s : State} (h : s.pend = true ∨ s.en = false) (w : BitVec 16) :
    runTurn (.eng w) s = .refused .engineNotEnabled :=
  (runTurn_of_fetch rfl).trans (exec_engRaise_of_not_enabled h)

/-- Settles O40: reset sets each field, and its `PEND = 0` and `EN = 0` hold the sequencer and the engine. -/
theorem resetLeavesTheBlockIdle : Obligations.ResetLeavesTheBlockIdle := by
  rintro c s rfl
  exact ⟨rfl, rfl, rfl, rfl, rfl, rfl, rfl, rfl, rfl, rfl, rfl, fun _ => rfl, rfl, rfl, rfl, rfl, rfl,
    runTurn_seq_of_not_enabled (.inl rfl), runTurn_eng_of_not_enabled (.inr rfl)⟩

/-! ## A busy block has an event pending or a request to be answered -/

/-- A transfer in flight with no event pending has asked the engine for something: its newest request is one to be answered (R230). -/
def State.AsksEngine (s : State) : Prop := s.ie = true → s.pend = false → awaitsAnswer s.trace.reverse = true

/-- Only the newest request counts. -/
theorem awaitsAnswer_reverse_concat (tr : List Request) (q : Request) :
    awaitsAnswer (tr ++ [q]).reverse = awaitsAnswer [q] := by
  rw [List.reverse_concat]
  cases q <;> rfl

/-- What `rx_request` asks for (R133) is to be answered, with ACK or with NACK. -/
theorem awaitsAnswer_askedRequest (p : Prop) [Decidable p] : awaitsAnswer [if p then Request.recvAck else .recvNack] = true := by
  split <;> rfl

/-- The engine's turn leaves its event pending (R168). -/
theorem pend_of_runTurn_eng {w : BitVec 16} {s u : State} (h : runTurn (.eng w) s = .next u) : u.pend = true := by
  obtain ⟨-, -, -, _, rfl⟩ := exec_engRaise_next (runTurn_eng_next h)
  rfl

namespace State.AsksEngine

variable {s : State}

theorem ofNotBusy (h : s.ie = false) : s.AsksEngine := fun hb => by simp [h] at hb

theorem ofRequest {tr : List Request} {q : Request} (ht : s.trace = tr ++ [q]) (hq : awaitsAnswer [q] = true) : s.AsksEngine := by
  intro _ _
  rw [ht, awaitsAnswer_reverse_concat, hq]

/-- Of the host's rows only START makes the block busy, and it asks for a START; the others leave `IE`, `PEND` and `TRACE`, or end not busy. -/
theorem exec_host (h : s.AsksEngine) {i : Instr} {t : State} (hi : hostRow i = true) (he : exec i s = .next t) : t.AsksEngine := by
  rcases exec_host_cases hi he with ⟨_, _, _, rfl⟩ | ⟨_, rfl, -⟩ | ⟨hb, _, _, -, rfl⟩ | ⟨hb, _, rfl⟩ | ⟨-, rfl⟩ |
    ⟨-, _, -, -, rfl⟩
  · exact h
  · exact h
  · exact .ofNotBusy hb
  · exact .ofNotBusy hb
  · exact .ofNotBusy rfl
  · exact .ofRequest s.startCommand_trace rfl

/-- A sequencer step raises, asks for something that is to be answered, or ends the transfer. -/
theorem exec_seq (h : s.AsksEngine) {i : Instr} {t : State} (hi : seqRow i = true) (he : exec i s = .next t) : t.AsksEngine := by
  rcases exec_seq_cases hi he with ⟨rfl, -⟩ | ⟨rfl, -⟩ | ⟨_, _, _, -, -, -, -, rfl⟩ | ⟨_, _, -, -, -, rfl⟩ | ⟨-, _, -, rfl⟩ |
    ⟨-, -, _, _, _, -, -, rfl⟩ | ⟨-, -, _, _, -, rfl⟩ | ⟨-, rfl⟩ | ⟨_, -, rfl⟩
  · exact h
  · exact h
  · exact .ofRequest rfl rfl
  · exact .ofNotBusy rfl
  · exact .ofRequest rfl (awaitsAnswer_askedRequest _)
  · exact .ofRequest rfl (awaitsAnswer_askedRequest _)
  · exact .ofNotBusy rfl
  · exact .ofRequest (s.ctrlWrite_trace _ _) rfl
  · exact .ofNotBusy rfl

/-- Every turn of an agent keeps it. -/
theorem runTurn {u : State} (h : s.AsksEngine) {t : Turn} (ha : t.isAgent = true) (hr : Machine.runTurn t s = .next u) :
    u.AsksEngine := by
  cases t with
  | host =>
    obtain ⟨i, p, c, hi, he⟩ := runTurn_host_next hr
    exact AsksEngine.exec_host (s := { s with prog := p, call := c }) h hi he
  | seq =>
    obtain ⟨-, -, c, n, he, -⟩ := runTurn_seq_next hr
    exact AsksEngine.exec_seq (s := { s with draws := n }) h (decodeStatus_seqRow _ _) he
  | eng w => exact fun _ hp => by simp [pend_of_runTurn_eng hr] at hp
  | ctrl b => simp [Turn.isAgent] at ha

end State.AsksEngine

theorem Reachable.asksEngine {c : Cfg} {prog : List HostItem} {s : State} (h : Reachable c prog s) : s.AsksEngine := by
  induction h with
  | reset => exact .ofNotBusy rfl
  | move t _ hm ih =>
    obtain ⟨ha, -, hr⟩ := hm
    exact ih.runTurn ha hr

/-! ## Fair runs -/

/-- Only the sequencer ends a transfer or takes a pending event away while one is in flight: the host is locked out (`hostStepsRespectTheLock`),
and the engine only raises. -/
theorem Moves.busy_of_ne_seq {t : Turn} {s u : State} (hm : Moves t s u) (ht : t ≠ .seq) (hb : s.ie = true) :
    u.ie = true ∧ (s.pend = true → u.pend = true) := by
  obtain ⟨ha, -, hr⟩ := hm
  cases t with
  | host =>
    obtain ⟨-, -, -, -, -, -, -, -, -, hlock⟩ := hostStepsRespectTheLock s u hr
    rw [hlock hb]
    exact ⟨hb, id⟩
  | seq => exact absurd rfl ht
  | eng w =>
    obtain ⟨-, -, -, _, rfl⟩ := exec_engRaise_next (runTurn_eng_next hr)
    exact ⟨hb, fun _ => rfl⟩
  | ctrl b => simp [Turn.isAgent] at ha

section
variable {σ : Nat → State} {τ : Nat → Option Turn} {k : Nat}

/-- A busy block stays busy while the sequencer is not served. -/
theorem Run.busy_of_no_seq (h : Run σ τ) (hno : ∀ j, k ≤ j → τ j ≠ some .seq) (hb : (σ k).ie = true) (j : Nat) (hj : k ≤ j) :
    (σ j).ie = true :=
  h.keeps (P := fun s => s.ie = true) hb
    (fun m hm t ht hi => ((h.moves m t ht).busy_of_ne_seq (fun he => hno m hm (he ▸ ht)) hi).1) j hj

/-- So does an enabled sequencer step stay enabled. -/
theorem Run.seqEnabled_of_no_seq (h : Run σ τ) (hno : ∀ j, k ≤ j → τ j ≠ some .seq) (he : (σ k).seqEnabled) (j : Nat)
    (hj : k ≤ j) : (σ j).seqEnabled := by
  refine h.keeps (P := State.seqEnabled) he (fun m hm t ht hs => ?_) j hj
  obtain ⟨hp, hb⟩ := hs
  obtain ⟨hb', hp'⟩ := (h.moves m t ht).busy_of_ne_seq (fun he => hno m hm (he ▸ ht)) hb
  exact ⟨hp' hp, hb'⟩

/-- While the sequencer is not served no event is pending in a busy block: it would stay enabled, and fairness would serve it. -/
theorem WeaklyFair.pend_of_no_seq (h : WeaklyFair σ τ) (hf : ∀ j, (σ j).noFault) (hno : ∀ j, k ≤ j → τ j ≠ some .seq)
    (hb : (σ k).ie = true) (j : Nat) (hj : k ≤ j) : (σ j).pend = false := by
  by_contra hp
  have hen : (σ j).seqEnabled := ⟨Bool.eq_true_of_not_eq_false hp, h.run.busy_of_no_seq hno hb j hj⟩
  have hno' : ∀ m, j ≤ m → τ m ≠ some .seq := fun m hm => hno m (hj.trans hm)
  obtain ⟨m, hm, hseq⟩ := h.takes j fun m hm => ⟨h.run.seqEnabled_of_no_seq hno' hen m hm, hf m⟩
  exact hno' m hm hseq

end

/-- Settles O53: were the sequencer never served again, no event would ever be pending (`WeaklyFair.pend_of_no_seq`), so the block's newest
request would be awaiting its answer (`Reachable.asksEngine`), and the engine's answer, which fairness owes, leaves an event pending. -/
theorem fairRunsServeABusyBlock : Obligations.FairRunsServeABusyBlock := by
  intro c prog σ τ hfair h0 hf k hb
  by_contra hex
  have hno : ∀ j, k ≤ j → τ j ≠ some .seq := fun j hj hseq => hex ⟨j, hj, hseq⟩
  have hquiet : ∀ j, k ≤ j → (σ j).pend = false := hfair.pend_of_no_seq hf hno hb
  have hasks : awaitsAnswer (σ k).trace.reverse = true := (hfair.run.reachable h0 k).asksEngine hb (hquiet k le_rfl)
  obtain ⟨j, hj, w, hw⟩ := hfair.answers k (fun j _ => hf j) hasks
  obtain ⟨-, -, hr⟩ := hfair.run.moves j _ hw
  have hp : (σ (j + 1)).pend = true := pend_of_runTurn_eng hr
  simp [hquiet (j + 1) (hj.trans j.le_succ)] at hp

end Sys2Proof.Machine
end
